-- ==== Sys2Proof/Word.lean ====
section
/-! DEFINITION. The command word and the operand byte (30_encoding R90, R91; 00_scope R14). -/

namespace Sys2Proof

/-- A command word `w[15:0]` (R90). -/
abbrev Word := BitVec 16

/-- An 8-bit unsigned value, bits numbered 7 down to 0 (R14). -/
abbrev Byte := BitVec 8

end Sys2Proof
end

