-- ==== Sys2Proof/Config.lean ====
section
/-! DEFINITION. What is fixed for a run (the launch parameters of 00_scope R12 and 10_state R42), the
steps other agents may take (41_quadrature_decoder R185, R186), and the free values: the draws of
00_scope R13 that no script of the environment fixes. A free value is an opaque constant applied to a
plain counter of State (assumption log, entry 4). -/

namespace Sys2Proof.Config

/-- `BIT_ORDER` (CFG0, R42; 20_memory R64). -/
inductive BitOrder where
  | lsbFirst
  | msbFirst
deriving DecidableEq, Repr

/-- `AB_INPUT_MODE` (CFG8, R42). No rule depends on it. -/
inductive InputMode where
  | input
  | inputPullUp
deriving DecidableEq, Repr

/-- A pin, named by its place in the `owner` map; the set `PinId` is finite and OPEN (R12, R61; log entry 21). -/
abbrev PinId := Nat

/-- Who holds a pin (10_state R44). `other` is a holder outside the block. -/
inductive Owner where
  | free
  | sr
  | qd
  | other
deriving DecidableEq, Repr

/-- The configuration CFG0 to CFG11 of 10_state R42, in its order, and `T_CHIP_MIN` of 00_scope R12.
Durations are in nanoseconds (log entry 14). -/
structure Settings where
  bitOrder : BitOrder
  chainDepth : Nat
  pinData : PinId
  pinShclk : PinId
  pinLatch : PinId
  pinA : PinId
  pinB : PinId
  pinSw : PinId
  abInputMode : InputMode
  countWidth : Nat
  tPulseHigh : Nat
  pollPeriod : Nat
  tChipMin : Nat
deriving DecidableEq, Repr

/-- A step of an agent other than the host. `swEdge v coalesced` is the environment's `SW_EDGE(v)` with
its choice (R185); `resetEdge` is the notification agent's `RESET_EDGE` (R186). -/
inductive AsyncStep where
  | swEdge (v : Bool) (coalesced : Bool)
  | resetEdge
deriving DecidableEq, Repr, Inhabited

/-- Whose step comes next between two commands (60_exceptions R221, R229). -/
inductive Turn where
  | host
  | agent (a : AsyncStep)
deriving DecidableEq, Repr, Inhabited

/-- DESIGN CHOICE (log entry 1): the OPEN launch parameters as `State.reset` holds them. The values the
spec gives are COUNT_WIDTH 32, T_PULSE_HIGH 1 microsecond and POLL_PERIOD 10 ms (R42). -/
def resetSettings : Settings where
  bitOrder := .msbFirst
  chainDepth := 1
  pinData := 0
  pinShclk := 1
  pinLatch := 2
  pinA := 3
  pinB := 4
  pinSw := 5
  abInputMode := .input
  countWidth := 32
  tPulseHigh := 1000
  pollPeriod := 10000000
  tChipMin := 0

/-- DESIGN CHOICE (log entry 2): the OPEN launch value `OWNER0` as `State.reset` holds it. -/
def resetOwner : List Owner := [.free, .free, .free, .free, .free, .free]

/-- The draw `Denied(pin)` of the k-th unscripted `Acquire` (R13 (a), R17). -/
opaque freeDenied : Nat → Bool

/-- Whether the k-th unscripted registration is rejected (60_exceptions R212). -/
opaque freeRejected : Nat → Bool

/-- The draw `LineFails` of the k-th unscripted line access (R13 (b)). -/
opaque freeFails : Nat → Bool

/-- The level the k-th unscripted read of an input line returns (R13 (c), R161). -/
opaque freeInput : Nat → Bool

/-- The k-th unscripted level of an output line that the spec leaves a draw: right after `Acquire`
(92 D14) or after a failed write (R213). -/
opaque freeLevel : Nat → Bool

/-- The k-th unscripted chip bit that the spec leaves unconstrained (R13 (d), R29, R118, R119, R213). -/
opaque freeChipBit : Nat → Bool

/-- The switch's level at launch (10_state R38). -/
opaque freeSwitch : Bool

/-- Whose step comes next, past the schedule's script (R13 (e), R221). -/
opaque freeTurn : Nat → Turn

/-- The agents' steps at the k-th unscripted interior point (20_memory R75). -/
opaque freeInside : Nat → List AsyncStep

end Sys2Proof.Config
end

