-- ==== Sys2Proof/Syntax.lean ====
section
/-! DEFINITION. The nine commands (30_encoding R93), one constructor per row of the opcode table, and the
three pseudo-commands (30_encoding R98). -/

namespace Sys2Proof

/-- The command set (R93). `SR_SERIALIZE` alone has an operand, the byte `imm8` (R92). -/
inductive Instr where
  | srInit
  | srSerialize (b : Byte)
  | srLatch
  | srTeardown
  | qdInit
  | qdPoll
  | qdReadCount
  | qdReset
  | qdRelease
deriving DecidableEq, Repr

/-- The pseudo-commands of the assembler (R98). -/
inductive Pseudo where
  | write (b : Byte)
  | writeChain (bs : List Byte)
  | clear
deriving DecidableEq, Repr

end Sys2Proof
end

