-- ==== Sys2Proof/WellFormed.lean ====
section
/-! DEFINITION. What is well formed: commands, pseudo-commands (30_encoding R98), the launch
configuration (10_state R42) and the launch ownership map (10_state R44). -/

namespace Sys2Proof

/-- Every term of `Instr` is a legal command: the one operand is a byte by its type (R92), and every
byte is accepted (95_test_vectors, word 0x1100). -/
def Instr.wellFormed : Instr → Bool
  | .srInit => true
  | .srSerialize _ => true
  | .srLatch => true
  | .srTeardown => true
  | .qdInit => true
  | .qdPoll => true
  | .qdReadCount => true
  | .qdReset => true
  | .qdRelease => true

/-- `sr.write_chain <b_1>, ..., <b_n>` needs n >= 1 (R98). -/
def Pseudo.wellFormed : Pseudo → Bool
  | .write _ => true
  | .writeChain bs => !bs.isEmpty
  | .clear => true

/-- The legal launch values of 10_state R42 for a board of `pinCount` pins: every value that is not
listed there is illegal. -/
def Config.Settings.legal (c : Config.Settings) (pinCount : Nat) : Bool :=
  decide (1 ≤ c.chainDepth) &&
    [c.pinData, c.pinShclk, c.pinLatch, c.pinA, c.pinB, c.pinSw].all (fun p => decide (p < pinCount)) &&
    decide (2 ≤ c.countWidth) && decide (c.tChipMin ≤ c.tPulseHigh) && decide (0 < c.pollPeriod)

/-- `OWNER0` maps every pin to `FREE` or `OTHER` (10_state R44). -/
def legalOwner0 (owner0 : List Config.Owner) : Bool :=
  owner0.all (fun o => decide (o = .free ∨ o = .other))

end Sys2Proof
end

