-- ==== Sys2Proof/Decode.lean ====
section
/-! DEFINITION. The decoder of 30_encoding R91 to R95, total on 16-bit words, and the encoder. -/

namespace Sys2Proof

/-- Why a word is illegal (R94): its `op` is unassigned, or it is of format N and its low byte is not 0x00. -/
inductive IllegalWord where
  | unassignedOp
  | nonzeroOperand
deriving DecidableEq, Repr

/-- What a word decodes to (R95). -/
inductive Decoded where
  | command (i : Instr)
  | illegal (why : IllegalWord)
deriving DecidableEq, Repr

/-- `op = w[15:8]` (R91). -/
def opField (w : Word) : Byte := w.extractLsb' 8 8

/-- `imm8 = w[7:0]` (R91, R92). -/
def imm8Field (w : Word) : Byte := w.extractLsb' 0 8

/-- A format-N word: its low byte must be 0x00 (R91, R94 (b)). -/
def decodeFormatN (imm8 : Byte) (i : Instr) : Decoded :=
  if imm8 = 0x00#8 then .command i else .illegal .nonzeroOperand

/-- The decoder, by the opcode map of R93. -/
def decode (w : Word) : Decoded :=
  let op := opField w
  let imm8 := imm8Field w
  if op = 0x10#8 then decodeFormatN imm8 .srInit
  else if op = 0x11#8 then .command (.srSerialize imm8)
  else if op = 0x12#8 then decodeFormatN imm8 .srLatch
  else if op = 0x13#8 then decodeFormatN imm8 .srTeardown
  else if op = 0x20#8 then decodeFormatN imm8 .qdInit
  else if op = 0x21#8 then decodeFormatN imm8 .qdPoll
  else if op = 0x22#8 then decodeFormatN imm8 .qdReadCount
  else if op = 0x23#8 then decodeFormatN imm8 .qdReset
  else if op = 0x24#8 then decodeFormatN imm8 .qdRelease
  else .illegal .unassignedOp

/-- The word of a command, `{op, imm8}` (R91, R93). -/
def encode : Instr → Word
  | .srInit => 0x10#8 ++ 0x00#8
  | .srSerialize b => 0x11#8 ++ b
  | .srLatch => 0x12#8 ++ 0x00#8
  | .srTeardown => 0x13#8 ++ 0x00#8
  | .qdInit => 0x20#8 ++ 0x00#8
  | .qdPoll => 0x21#8 ++ 0x00#8
  | .qdReadCount => 0x22#8 ++ 0x00#8
  | .qdReset => 0x23#8 ++ 0x00#8
  | .qdRelease => 0x24#8 ++ 0x00#8

/-- A command's row of the opcode map of R93: `mask` and `match`, over the whole word. -/
structure OpcodeRow where
  maskBits : Word
  matchBits : Word
deriving DecidableEq, Repr

/-- The row of R93 that stands for a command. -/
def opcodeRow : Instr → OpcodeRow
  | .srInit => ⟨0xFFFF#16, 0x1000#16⟩
  | .srSerialize _ => ⟨0xFF00#16, 0x1100#16⟩
  | .srLatch => ⟨0xFFFF#16, 0x1200#16⟩
  | .srTeardown => ⟨0xFFFF#16, 0x1300#16⟩
  | .qdInit => ⟨0xFFFF#16, 0x2000#16⟩
  | .qdPoll => ⟨0xFFFF#16, 0x2100#16⟩
  | .qdReadCount => ⟨0xFFFF#16, 0x2200#16⟩
  | .qdReset => ⟨0xFFFF#16, 0x2300#16⟩
  | .qdRelease => ⟨0xFFFF#16, 0x2400#16⟩

/-- The nine rows of R93, in its order. -/
def opcodeRows : List OpcodeRow :=
  [opcodeRow .srInit, opcodeRow (.srSerialize 0x00#8), opcodeRow .srLatch, opcodeRow .srTeardown,
    opcodeRow .qdInit, opcodeRow .qdPoll, opcodeRow .qdReadCount, opcodeRow .qdReset, opcodeRow .qdRelease]

/-- A word selects a row when `w AND mask = match` (R93). -/
def OpcodeRow.selects (r : OpcodeRow) (w : Word) : Prop := w &&& r.maskBits = r.matchBits

/-- The expansions of the pseudo-commands (R98), for a chain of `chainDepth` chips. -/
def expandPseudo (chainDepth : Nat) : Pseudo → List Instr
  | .write b => [.srSerialize b, .srLatch]
  | .writeChain bs => bs.map .srSerialize ++ [.srLatch]
  | .clear => List.replicate chainDepth (.srSerialize 0x00#8) ++ [.srLatch]

/-- The command a decoded word stands for, where it is one. -/
def Decoded.command? : Decoded → Option Instr
  | .command i => some i
  | .illegal _ => none

/-- The decoder on an instruction of the opcode table, its bits numbered as the table numbers them: the
one command word of R90 is the low 16 bits. -/
def decodeTableWord (nbits w : Nat) : Option Instr :=
  (decode (BitVec.ofNat 16 (w % 2 ^ nbits))).command?

end Sys2Proof
end

