-- ==== Sys2Proof/Machine/Draws.lean ====
section
/-! DEFINITION. The inputs of the environment: the draws of 00_scope R13 and the schedule of
20_memory R75 and 60_exceptions R221. Each is a tape: a script of answers still to come, then the opaque
constants of Config applied to a counter, so that nothing constrains them (log entry 4). -/

namespace Sys2Proof.Machine

open Sys2Proof.Config

/-- A source of answers: `script` lists the next ones in order, `drawn` counts those taken past it. -/
@[ext]
structure Tape (α : Type) where
  script : List α
  drawn : Nat
deriving DecidableEq, Repr

/-- The answer `k` places ahead: from the script, or past it the free value of that number. -/
def Tape.nth {α : Type} (free : Nat → α) (t : Tape α) (k : Nat) : α :=
  (t.script[k]?).getD (free (t.drawn + (k - t.script.length)))

/-- The tape after `n` answers have been taken. -/
def Tape.drop {α : Type} (t : Tape α) (n : Nat) : Tape α :=
  ⟨t.script.drop n, t.drawn + (n - t.script.length)⟩

/-- The environment: the switch's level (10_state R38), the draws still to come (00_scope R13) and the
schedule of the three agents (60_exceptions R229). All but `sw` are the model's own fields. -/
@[ext]
structure Env where
  /-- `env.sw`, the switch's physical level (R38): true is released, false is pressed. -/
  sw : Bool
  /-- `Denied(pin)`, one per `Acquire` (R17). -/
  denied : Tape Bool
  /-- The platform rejects a registration, one per `OnFallingEdge` (R212). -/
  rejected : Tape Bool
  /-- `LineFails`, one per `SetLevel` or `ReadLevel` (R13 (b)). -/
  fails : Tape Bool
  /-- The level an input line returns, one per `ReadLevel` that does not fail (R161). -/
  input : Tape Bool
  /-- The level of an output line after `Acquire` (92 D14) or after a failed write (R213). -/
  level : Tape Bool
  /-- The unconstrained bits of the chip (R29, R118, R119, R213). -/
  chipBit : Tape Bool
  /-- Whose step comes next (R221). -/
  turns : Tape Turn
  /-- The agents' steps at each interior point of a command (R75). -/
  inside : Tape (List AsyncStep)
deriving DecidableEq, Repr

def Env.deniedAt (e : Env) (k : Nat) : Bool := e.denied.nth freeDenied k

def Env.rejectedAt (e : Env) (k : Nat) : Bool := e.rejected.nth freeRejected k

def Env.failsAt (e : Env) (k : Nat) : Bool := e.fails.nth freeFails k

def Env.inputAt (e : Env) (k : Nat) : Bool := e.input.nth freeInput k

def Env.levelAt (e : Env) (k : Nat) : Bool := e.level.nth freeLevel k

def Env.chipBitAt (e : Env) (k : Nat) : Bool := e.chipBit.nth freeChipBit k

def Env.turnAt (e : Env) (k : Nat) : Turn := e.turns.nth freeTurn k

def Env.insideAt (e : Env) (k : Nat) : List AsyncStep := e.inside.nth freeInside k

/-- `n` chip bits, from the `k`-th answer on: each bit a draw of its own (R29). -/
def Env.chipBits (e : Env) (k n : Nat) : List Bool := (List.range n).map (fun j => e.chipBitAt (k + j))

end Sys2Proof.Machine
end

