-- ==== Sys2Proof/Machine/State.lean ====
section
/-! DEFINITION. The state of the block (10_state), the reasons a step can stop, and the state at power-on
(10_state R45). State is plain data. -/

namespace Sys2Proof.Machine

open Sys2Proof.Config

/-- `sr.state` (10_state R23). -/
inductive SrPhase where
  | unconstructed
  | ready
  | failed
  | tornDown
deriving DecidableEq, Repr

/-- `qd.state` (10_state R32). -/
inductive QdPhase where
  | unconstructed
  | live
  | failed
  | released
deriving DecidableEq, Repr

/-- The statuses of 60_exceptions R210. -/
inductive Status where
  | ok
  | resourceUnavailable
  | notificationSetupFailed
  | platformLineFailure
  | lifecycleError
  | illegalCommand
deriving DecidableEq, Repr

/-- The mode of a line (10_state R24, R33; the directions of 00_scope R16). -/
inductive LineMode where
  | unconfigured
  | output
  | input
  | inputPullUp
deriving DecidableEq, Repr

/-- The driver's lines (10_state R24). -/
inductive SrLine where
  | data
  | shclk
  | latch
deriving DecidableEq, Repr

/-- The decoder's lines (10_state R33). -/
inductive QdLine where
  | a
  | b
  | sw
deriving DecidableEq, Repr

/-- An output line: its mode, and its level, which is a `Bit` or no value (10_state R24). -/
@[ext]
structure Line where
  mode : LineMode
  level : Option Bool
deriving DecidableEq, Repr

/-- An entry of `sr.trace` (10_state R26): `(line, level)` or `(line, released)`. -/
inductive Event where
  | level (l : SrLine) (v : Bool)
  | released (l : SrLine)
deriving DecidableEq, Repr

/-- The shift-register driver (10_state R23 to R26). -/
@[ext]
structure Sr where
  phase : SrPhase
  data : Line
  shclk : Line
  latch : Line
  trace : List Event
deriving DecidableEq, Repr

/-- The chip chain (10_state R27, R28): entry `8c + q` of a list is stage or output `q` of chip `c`. -/
@[ext]
structure Chip where
  shift : List Bool
  out : List Bool
deriving DecidableEq, Repr

/-- The quadrature decoder (10_state R32 to R37). `none` is the spec's own "no value". -/
@[ext]
structure Qd where
  phase : QdPhase
  a : LineMode
  b : LineMode
  sw : LineMode
  count : Option Int
  lastA : Option Bool
  registered : Bool
  pending : Nat
deriving DecidableEq, Repr

/-- The host's list of command words still to be issued (60_exceptions R226) and whether a second
context also issues commands (R227). The model's own fields (10_state R46). -/
@[ext]
structure HostAgent where
  words : List Word
  second : Bool
deriving DecidableEq, Repr

/-- What has no value when it is read (10_state R47). -/
inductive Element where
  | srLines
  | qdLines
  | count
  | lastA
deriving DecidableEq, Repr

/-- Why the machine stops. -/
inductive Fault where
  /-- A command would read an element that has no value, by a path no run reaches (10_state R47: "must
  fault, not pick a value"). Raised by the SR commands, QD_POLL and QD_READ_COUNT. Safe. -/
  | noValue (what : Element)
  /-- The host has issued its last word: the run has ended (70_reset_and_hazards R265). Raised by `step`.
  Safe. -/
  | runEnded
deriving DecidableEq, Repr

/-- Why the machine takes no step. -/
inductive Refusal where
  /-- An instruction without a meaning: none is left. Safe. -/
  | notModelled (mnemonic : String)
  /-- A launch with an illegal configuration value is refused (10_state R42). Raised by `step`. Safe. -/
  | illegalConfiguration
  /-- Two contexts issue commands: refused, no meaning (60_exceptions R227). Raised by `step`. Safe. -/
  | secondHost
deriving DecidableEq, Repr

/-- The whole state. `cfg` is fixed for the run (10_state R43); `owner` gives each pin's holder, the pin
being its index (R44); `status`, `result` and `fault` are R39 to R41. Two fields are the model's own:
`info` records the last raise's info (60_exceptions R211; log entry 13), and `writeLost` that a `SetLevel`
of the driver has failed in this run, which no trace event shows (R26; 60_exceptions R213; log entry 22). -/
@[ext]
structure State where
  cfg : Settings
  sr : Sr
  chip : Chip
  qd : Qd
  owner : List Owner
  status : Option Status
  info : Option PinId
  result : Option Int
  fault : Bool
  writeLost : Bool
  host : HostAgent
  env : Env
deriving DecidableEq, Repr

/-- A line at power-on (10_state R45). -/
def Line.idle : Line := ⟨.unconfigured, none⟩

/-- The machine at power-on (10_state R45) for any launch: a configuration, `OWNER0`, the host's words and
the environment's inputs. Each bit of the chip is a draw (R29). -/
def State.powerOn (cfg : Settings) (owner0 : List Owner) (words : List Word) (env : Env) : State where
  cfg := cfg
  sr := ⟨.unconstructed, Line.idle, Line.idle, Line.idle, []⟩
  chip := ⟨env.chipBits 0 (8 * cfg.chainDepth), env.chipBits (8 * cfg.chainDepth) (8 * cfg.chainDepth)⟩
  qd := ⟨.unconstructed, .unconfigured, .unconfigured, .unconfigured, none, none, false, 0⟩
  owner := owner0
  status := none
  info := none
  result := none
  fault := false
  writeLost := false
  host := ⟨words, false⟩
  env := { env with chipBit := env.chipBit.drop (16 * cfg.chainDepth) }

/-- An environment of which nothing is scripted: every draw is free. -/
def Env.unscripted : Env where
  sw := freeSwitch
  denied := ⟨[], 0⟩
  rejected := ⟨[], 0⟩
  fails := ⟨[], 0⟩
  input := ⟨[], 0⟩
  level := ⟨[], 0⟩
  chipBit := ⟨[], 0⟩
  turns := ⟨[], 0⟩
  inside := ⟨[], 0⟩

/-- The machine right after reset: power-on with the launch values of log entries 1 and 2, no word for the
host to issue, and an environment of which nothing is scripted. -/
def State.reset : State := State.powerOn resetSettings resetOwner [] Env.unscripted

end Sys2Proof.Machine
end

