-- ==== Sys2Proof/Machine/Flags.lean ====
section
/-! DEFINITION. The block has no flags (10_state R22). What stands in their place is here: how a command
writes `status` as it ends, `raise` (00_scope R15, the block's one way to report an exception,
60_exceptions R222), and the register numbers of 10_state R42. -/

namespace Sys2Proof.Machine

open Sys2Proof.Config

/-- The codes of 60_exceptions R210, in the 3-bit `status` field (10_state R42, STS2). -/
def statusCode : Status → BitVec 3
  | .ok => 0
  | .resourceUnavailable => 1
  | .notificationSetupFailed => 2
  | .platformLineFailure => 3
  | .lifecycleError => 4
  | .illegalCommand => 5

/-- The codes of `sr.state` (10_state R23, STS0). -/
def srPhaseCode : SrPhase → BitVec 2
  | .unconstructed => 0
  | .ready => 1
  | .failed => 2
  | .tornDown => 3

/-- The codes of `qd.state` (10_state R32, STS1). -/
def qdPhaseCode : QdPhase → BitVec 2
  | .unconstructed => 0
  | .live => 1
  | .failed => 2
  | .released => 3

/-- A command ends with a status that carries no info: `status <- st`, or `raise st` (00_scope R15). -/
def endWith (st : Status) (s : State) : State := { s with status := some st, info := none }

/-- `raise ResourceUnavailable(p)`: the failing pin is the info of the raise (60_exceptions R211). -/
def raiseUnavailable (p : PinId) (s : State) : State :=
  { s with status := some .resourceUnavailable, info := some p }

/-- The configuration registers CFG0 to CFG11 by number, each as the number that stands for it (R42). -/
def cfgRegister (s : State) : Nat → Option Nat
  | 0 => some (match s.cfg.bitOrder with | .lsbFirst => 0 | .msbFirst => 1)
  | 1 => some s.cfg.chainDepth
  | 2 => some s.cfg.pinData
  | 3 => some s.cfg.pinShclk
  | 4 => some s.cfg.pinLatch
  | 5 => some s.cfg.pinA
  | 6 => some s.cfg.pinB
  | 7 => some s.cfg.pinSw
  | 8 => some (match s.cfg.abInputMode with | .input => 0 | .inputPullUp => 1)
  | 9 => some s.cfg.countWidth
  | 10 => some s.cfg.tPulseHigh
  | 11 => some s.cfg.pollPeriod
  | _ => none

/-- The status registers STS0 to STS3 by number; `none` where the register has no value (R42). -/
def stsRegister (s : State) : Nat → Option Nat
  | 0 => some (srPhaseCode s.sr.phase).toNat
  | 1 => some (qdPhaseCode s.qd.phase).toNat
  | 2 => s.status.map (fun st => (statusCode st).toNat)
  | 3 => some s.fault.toNat
  | _ => none

end Sys2Proof.Machine
end

