-- ==== Sys2Proof/Machine/Operands.lean ====
section
/-! DEFINITION. Operand forms and bit helpers: the send order of a serialized byte (20_memory R64), its
image (R65), the wrapping count arithmetic (00_scope R14), and which pin a line stands on (10_state R24,
R33). -/

namespace Sys2Proof.Machine

open Sys2Proof.Config

/-- `k(i)`, the bit that pair `i` of a serialize sends (R64). -/
def sendBit (order : BitOrder) (i : Nat) : Nat :=
  match order with
  | .lsbFirst => i
  | .msbFirst => 7 - i

/-- `rev8(b)`: bit k is `b[7-k]` (00_scope R14). -/
def rev8 (b : Byte) : Byte := b.reverse

/-- `ord(b)`, the image of a byte under the run's bit order (R65). -/
def ord (order : BitOrder) (b : Byte) : Byte :=
  match order with
  | .lsbFirst => rev8 b
  | .msbFirst => b

/-- The eight bits of a byte as stages or pins of one chip: entry `q` is bit `q`. -/
def byteBits (b : Byte) : List Bool := (List.range 8).map (fun q => b.getLsbD q)

/-- Stages or pins 7..0 of chip `c` in a register of the chain (10_state R27, R28). -/
def chipBits (bits : List Bool) (c : Nat) : List Bool := (bits.drop (8 * c)).take 8

/-- `wrap_W(n)`: the value of [-2^(W-1), 2^(W-1) - 1] congruent to `n` modulo 2^W (00_scope R14). -/
def wrapW (w : Nat) (n : Int) : Int := n.bmod (2 ^ w)

/-- A W-bit two's-complement value (00_scope R14). -/
abbrev inRangeW (w : Nat) (n : Int) : Prop := -(2 ^ (w - 1) : Int) ≤ n ∧ n < 2 ^ (w - 1)

/-- The change a poll makes when A has moved: +1 clockwise, -1 counter-clockwise (41 R170, R171). -/
def pollDelta (currA currB : Bool) : Int := if currB ≠ currA then 1 else -1

/-- The pin of each driver line (10_state R24). -/
def srPin (c : Settings) : SrLine → PinId
  | .data => c.pinData
  | .shclk => c.pinShclk
  | .latch => c.pinLatch

/-- The pin of each decoder line (10_state R33). -/
def qdPin (c : Settings) : QdLine → PinId
  | .a => c.pinA
  | .b => c.pinB
  | .sw => c.pinSw

/-- `AB_INPUT_MODE` as the mode of a line (10_state R33, CFG8). -/
def abMode : InputMode → LineMode
  | .input => .input
  | .inputPullUp => .inputPullUp

/-- The mode each decoder line is acquired in (10_state R33). -/
def qdMode (c : Settings) : QdLine → LineMode
  | .a => abMode c.abInputMode
  | .b => abMode c.abInputMode
  | .sw => .inputPullUp

end Sys2Proof.Machine
end

