-- ==== Sys2Proof/Machine/Ops.lean ====
section
/-! DEFINITION. The interface primitives of 00_scope R16 and what is built from them: the chip's answer to
a line event (40 R112 to R117), the line writes and pulses of the driver (40 R122, R123, R143), the count
accesses and the steps of the other agents (41 R185, R186; 20_memory R75), acquisition and release
(00_scope R17), and the handling of a lost line (60_exceptions R213). A `Bool` beside a new state says
whether the primitive succeeded. -/

namespace Sys2Proof.Machine

open Sys2Proof.Config

/-! ### Lines -/

/-- A line of the driver. -/
def srLine (sr : Sr) : SrLine → Line
  | .data => sr.data
  | .shclk => sr.shclk
  | .latch => sr.latch

/-- The driver with one line replaced. -/
def setSrLine (l : SrLine) (x : Line) (sr : Sr) : Sr :=
  match l with
  | .data => { sr with data := x }
  | .shclk => { sr with shclk := x }
  | .latch => { sr with latch := x }

/-- The driver with one line's level replaced; its mode stays. -/
def setSrLevel (l : SrLine) (v : Bool) (sr : Sr) : Sr :=
  setSrLine l ⟨(srLine sr l).mode, some v⟩ sr

/-- The mode of a line of the decoder. -/
def qdLine (qd : Qd) : QdLine → LineMode
  | .a => qd.a
  | .b => qd.b
  | .sw => qd.sw

/-- The decoder with one line's mode replaced. -/
def setQdLine (l : QdLine) (m : LineMode) (qd : Qd) : Qd :=
  match l with
  | .a => { qd with a := m }
  | .b => { qd with b := m }
  | .sw => { qd with sw := m }

/-- All three lines of the driver are held as outputs and have a level (10_state R24, R47). -/
def srLinesDriven (sr : Sr) : Bool :=
  [sr.data, sr.shclk, sr.latch].all (fun x => decide (x.mode = .output) && x.level.isSome)

/-- All three lines of the decoder are held (10_state R33, R47). -/
def qdLinesHeld (qd : Qd) : Bool :=
  [qd.a, qd.b, qd.sw].all (fun m => decide (m ≠ .unconfigured))

/-! ### The chip -/

/-- The edge a clock input acts on (40 R112). -/
inductive ClockEdge where
  | rising
  | falling
deriving DecidableEq, Repr

/-- Whether a write of `v` to a line at level `old` is that edge; a write of the level the line already
has is none (40 R112). -/
def isEdge (e : ClockEdge) (old : Option Bool) (v : Bool) : Bool :=
  match e with
  | .rising => decide (old = some false) && v
  | .falling => decide (old = some true) && !v

/-- The chain shifts by one: stage 0 of chip 0 takes the data line's level, stage j takes stage j-1, and
the last stage's bit is lost (40 R115). -/
def shiftIn (depth : Nat) (dataLevel : Option Bool) (c : Chip) : Chip :=
  match dataLevel with
  | some d => { c with shift := (d :: c.shift).take (8 * depth) }
  | none => c

/-- The chip's answer to a `SetLevel` event on line `l`, for a chip whose clocks act on edge `e`: a shift
(40 R115), a latch (40 R117) or nothing (40 R116). -/
def chipEvent (e : ClockEdge) (depth : Nat) (dataLevel : Option Bool) (l : SrLine) (old : Option Bool)
    (v : Bool) (c : Chip) : Chip :=
  if isEdge e old v then
    match l with
    | .data => c
    | .shclk => shiftIn depth dataLevel c
    | .latch => { c with out := c.shift }
  else c

/-- The chip becomes unconstrained: each bit of both registers is a fresh draw (40 R118, R119, R143;
60_exceptions R213). -/
def freshChip (s : State) : State :=
  { s with
    chip :=
      ⟨s.env.chipBits 0 (8 * s.cfg.chainDepth),
        s.env.chipBits (8 * s.cfg.chainDepth) (8 * s.cfg.chainDepth)⟩
    env := { s.env with chipBit := s.env.chipBit.drop (16 * s.cfg.chainDepth) } }

/-- The chip's state after a trace is a function of the trace alone, applied event by event (20_memory
R78), from given line levels; a release is governed by R119, not by this. -/
def replayChip (e : ClockEdge) (depth : Nat) : List Event → Sr → Chip → Chip
  | [], _, c => c
  | .level l v :: es, sr, c =>
    replayChip e depth es (setSrLevel l v sr) (chipEvent e depth sr.data.level l (srLine sr l).level v c)
  | .released _ :: es, sr, c => replayChip e depth es sr c

/-! ### Line writes of the driver -/

/-- A line access is made: its `LineFails` draw is taken (00_scope R13 (b)). -/
def takeFails (s : State) : State := { s with env := { s.env with fails := s.env.fails.drop 1 } }

/-- A write that succeeds: the level, the trace event, and the chip's answer (00_scope R16; 40 R114). -/
def writeLevel (l : SrLine) (v : Bool) (s : State) : State :=
  { s with
    sr := { setSrLevel l v s.sr with trace := s.sr.trace ++ [.level l v] }
    chip := chipEvent .rising s.cfg.chainDepth s.sr.data.level l (srLine s.sr l).level v s.chip }

/-- A write that fails: `fault` is set for good, the line's level becomes a draw, the chip becomes
unconstrained, and no trace event is appended (60_exceptions R213 items 1 to 3; 40 R143; 10_state R26). -/
def loseLevel (l : SrLine) (s : State) : State :=
  freshChip
    { s with
      fault := true
      writeLost := true
      sr := setSrLevel l (s.env.levelAt 0) s.sr
      env := { s.env with level := s.env.level.drop 1 } }

/-- `SetLevel(line, v)` (00_scope R16). -/
def setLevel (l : SrLine) (v : Bool) (s : State) : Bool × State :=
  if s.env.failsAt 0 then (false, loseLevel l (takeFails s)) else (true, writeLevel l v (takeFails s))

/-- One primitive of an SR command's pseudocode: a `SetLevel` or a `Delay(T_PULSE_HIGH)`. -/
inductive Action where
  | set (l : SrLine) (v : Bool)
  | delay
deriving DecidableEq, Repr

/-- `Pulse(l)` (40 R122): performed whole. -/
def pulse (l : SrLine) : List Action := [.set l true, .delay, .set l false]

/-- The actions of `SR_SERIALIZE b` (40 R130). -/
def serializeActions (order : BitOrder) (b : Byte) : List Action :=
  (List.range 8).flatMap (fun i => .set .data (b.getLsbD (sendBit order i)) :: pulse .shclk)

/-- The three lines driven low (40 R125, R141). -/
def lowActions : List Action := [.set .data false, .set .shclk false, .set .latch false]

/-- The writes of `SR_TEARDOWN`: serialize(0), latch(), all three lines low (40 R141). The zero byte gives
the same actions under both bit orders. -/
def teardownActions : List Action :=
  serializeActions .lsbFirst 0x00#8 ++ pulse .latch ++ lowActions

/-- The trace events of actions that all succeed (40 R114). -/
def actionEvents (as : List Action) : List Event :=
  as.filterMap (fun a => match a with | .set l v => some (.level l v) | .delay => none)

/-- The actions one by one, stopping at the first failed write (40 R123). `Delay` has no effect on state
(00_scope R16; 70 R263). -/
def runActions : List Action → State → Bool × State
  | [], s => (true, s)
  | .delay :: as, s => runActions as s
  | .set l v :: as, s =>
    match setLevel l v s with
    | (true, s') => runActions as s'
    | (false, s') => (false, s')

/-- The actions one by one, going on past a failed write (40 R143). -/
def runBestEffort : List Action → State → State
  | [], s => s
  | .delay :: as, s => runBestEffort as s
  | .set l v :: as, s => runBestEffort as (setLevel l v s).2

/-! ### The other agents -/

/-- `SW_EDGE(v)` (41 R185): a falling edge while the notification is registered is counted, or coalesced
with one that is pending. -/
def switchEdge (v coalesced : Bool) (s : State) : State :=
  let counted := s.qd.registered && s.env.sw && !v && !(coalesced && decide (0 < s.qd.pending))
  { s with
    qd := { s.qd with pending := if counted then s.qd.pending + 1 else s.qd.pending }
    env := { s.env with sw := v } }

/-- `AtomicStore(qd.count, n)` (20_memory R72, R80). -/
def countStore (n : Int) (s : State) : State := { s with qd := { s.qd with count := some n } }

/-- `RESET_EDGE` is enabled (41 R186). -/
def resetEnabled (s : State) : Bool := s.qd.registered && decide (0 < s.qd.pending)

/-- `RESET_EDGE` (41 R186). -/
def resetEdge (s : State) : State :=
  countStore 0 { s with qd := { s.qd with pending := s.qd.pending - 1 } }

/-- One step of the environment or of the notification agent; a delivery that is not enabled does
nothing (log entry 6). -/
def asyncStep (a : AsyncStep) (s : State) : State :=
  match a with
  | .swEdge v coalesced => switchEdge v coalesced s
  | .resetEdge => if resetEnabled s then resetEdge s else s

/-- The steps the other agents take at one interior point of a command (20_memory R75). -/
def interleave (s : State) : State :=
  (s.env.insideAt 0).foldl (fun t a => asyncStep a t)
    { s with env := { s.env with inside := s.env.inside.drop 1 } }

/-! ### The count -/

/-- A count access of a command, with the points just before and just after it (20_memory R75). -/
def countAccess (access : State → State) (s : State) : State := interleave (access (interleave s))

/-- `AtomicAdd(qd.count, d)`, which writes `wrap_W(count + d)` (00_scope R16; 41 R174). -/
def countAdd (d : Int) (s : State) : State :=
  { s with qd := { s.qd with count := s.qd.count.map (fun c => wrapW s.cfg.countWidth (c + d)) } }

/-- `result <- AtomicLoad(qd.count)` (41 R177). -/
def countLoad (s : State) : State := { s with result := s.qd.count }

/-! ### Line reads of the decoder -/

/-- `ReadLevel(line)` on an input line: a draw, each read its own (41 R161), or a failure, which sets
`fault` (60_exceptions R213 item 1). No rule makes the level depend on the line or its mode. -/
def readLevel (_l : QdLine) (s : State) : Option Bool × State :=
  if s.env.failsAt 0 then (none, { takeFails s with fault := true })
  else (some (s.env.inputAt 0),
    { s with env := { s.env with fails := s.env.fails.drop 1, input := s.env.input.drop 1 } })

/-! ### Acquisition, registration, release -/

/-- `Acquire(pin, dir)` as far as ownership goes (00_scope R17): it succeeds exactly when the pin is
`FREE` and the draw `Denied` is false. -/
def acquirePin (who : Owner) (p : PinId) (s : State) : Bool × State :=
  let s' := { s with env := { s.env with denied := s.env.denied.drop 1 } }
  if s.owner[p]? = some .free ∧ s.env.deniedAt 0 = false then
    (true, { s' with owner := s.owner.set p who })
  else (false, s')

/-- `Acquire(pin, output)` for a line of the driver; its level is then a draw (92 D14). -/
def acquireSrLine (l : SrLine) (s : State) : Bool × State :=
  match acquirePin .sr (srPin s.cfg l) s with
  | (true, s') =>
    (true,
      { s' with
        sr := setSrLine l ⟨.output, some (s'.env.levelAt 0)⟩ s'.sr
        env := { s'.env with level := s'.env.level.drop 1 } })
  | (false, s') => (false, s')

/-- `Acquire(pin, dir)` for a line of the decoder, in its mode (10_state R33). -/
def acquireQdLine (l : QdLine) (s : State) : Bool × State :=
  match acquirePin .qd (qdPin s.cfg l) s with
  | (true, s') => (true, { s' with qd := setQdLine l (qdMode s'.cfg l) s'.qd })
  | (false, s') => (false, s')

/-- The pin goes back to `FREE` where the line held it: `Release` is idempotent (00_scope R16; 20 R73). -/
def freePin (p : PinId) (held : Bool) (s : State) : State :=
  if held then { s with owner := s.owner.set p .free } else s

/-- `Release` of a line of the driver: unconfigured, no level, its pin `FREE`, a release event (40 R114),
and the chip unconstrained from then on (40 R119; log entry 15). -/
def releaseSrLine (l : SrLine) (s : State) : State :=
  let s' := freePin (srPin s.cfg l) (decide ((srLine s.sr l).mode ≠ .unconfigured)) s
  freshChip { s' with sr := { setSrLine l Line.idle s.sr with trace := s.sr.trace ++ [.released l] } }

/-- `Release` of a line of the decoder. -/
def releaseQdLine (l : QdLine) (s : State) : State :=
  let s' := freePin (qdPin s.cfg l) (decide (qdLine s.qd l ≠ .unconfigured)) s
  { s' with qd := setQdLine l .unconfigured s.qd }

/-- The lines of a list released in its order. -/
def releaseAll {ι : Type} (release : ι → State → State) (ls : List ι) (s : State) : State :=
  ls.foldl (fun t l => release l t) s

/-- The acquisition loop of a construction (40 R125; 41 R165): in order; at the first refusal every line
acquired so far is released, in acquisition order, and the failing line is answered. -/
def acquireAll {ι : Type} (acquire : ι → State → Bool × State) (release : ι → State → State) :
    List ι → List ι → State → Option ι × State
  | _, [], s => (none, s)
  | acquired, l :: ls, s =>
    match acquire l s with
    | (true, s') => acquireAll acquire release (acquired ++ [l]) ls s'
    | (false, s') => (some l, releaseAll release acquired s')

/-- `OnFallingEdge(qd.sw)` (41 R184): rejected by the platform, or registered. -/
def onFallingEdge (s : State) : Bool × State :=
  let s' := { s with env := { s.env with rejected := s.env.rejected.drop 1 } }
  if s.env.rejectedAt 0 then (false, s')
  else (true, { s' with qd := { s.qd with registered := true } })

/-! ### A lost line -/

/-- An SR command ends with `PlatformLineFailure` (60_exceptions R213 items 5 and 6). -/
def srLost (s : State) : State :=
  endWith .platformLineFailure { s with sr := { s.sr with phase := .failed } }

/-- A QD command ends with `PlatformLineFailure` (60_exceptions R213 items 5 and 6). -/
def qdLost (s : State) : State :=
  endWith .platformLineFailure { s with qd := { s.qd with phase := .failed } }

/-- The end of an SR command after its writes: `OK`, or the failure of R213. -/
def endSr (r : Bool × State) : State := if r.1 then endWith .ok r.2 else srLost r.2

/-! ### Fetching -/

/-- The launch is legal (10_state R42). -/
def launchLegal (s : State) : Bool := s.cfg.legal s.owner.length

/-- The state once the host has issued its next word (60_exceptions R226) on its turn. -/
def issued (rest : List Word) (s : State) : State :=
  { s with host := { s.host with words := rest }, env := { s.env with turns := s.env.turns.drop 1 } }

/-- The state once another agent's turn has been taken from the schedule. -/
def turnTaken (s : State) : State := { s with env := { s.env with turns := s.env.turns.drop 1 } }

/-- The host's next word is `w` and the next turn is the host's. -/
def placeWord (w : Word) (s : State) : State :=
  { s with
    host := { s.host with words := w :: s.host.words }
    env := { s.env with turns := ⟨.host :: s.env.turns.script, s.env.turns.drawn⟩ } }

end Sys2Proof.Machine
end

