-- ==== Sys2Proof/Machine/Quadrature.lean ====
section
/-! DEFINITION. The meanings of the QD family (41_quadrature_decoder R165, R170, R177 to R179). -/

namespace Sys2Proof.Machine

open Sys2Proof.Config

/-- The three lines of the decoder, in acquisition order (R165). -/
def qdLines : List QdLine := [.a, .b, .sw]

/-- `QD_INIT` from its registration on: the other agents may step once it is made (R165, corner case;
R166), then the first read of A (R164). -/
def qdRegister (s : State) : State :=
  match onFallingEdge s with
  | (false, s1) =>
    let s2 := releaseAll releaseQdLine qdLines s1
    endWith .notificationSetupFailed { s2 with qd := { s2.qd with count := none } }
  | (true, s1) =>
    match readLevel .a (interleave s1) with
    | (none, s2) => qdLost s2
    | (some v, s2) => endWith .ok { s2 with qd := { s2.qd with lastA := some v, phase := .live } }

/-- The pseudocode of `QD_INIT` after its state check (R165). -/
def qdConstruct (s : State) : State :=
  match acquireAll acquireQdLine releaseQdLine [] qdLines s with
  | (some l, s1) => raiseUnavailable (qdPin s.cfg l) s1
  | (none, s1) =>
    let s2 := countAccess (countStore 0) s1
    qdRegister { s2 with qd := { s2.qd with pending := 0 } }

/-- `QD_INIT` (R165 to R169). -/
def execQdInit (s : State) : Host.Outcome State Fault Refusal :=
  if s.qd.phase ≠ .unconstructed then .next (endWith .lifecycleError s) else .next (qdConstruct s)

/-- What a poll does with its two samples (R170): one count access at most (R173), then `last_a`. -/
def pollSamples (currA currB : Bool) (s : State) : State :=
  let s' := if s.qd.lastA = some currA then s else countAccess (countAdd (pollDelta currA currB)) s
  endWith .ok { s' with qd := { s'.qd with lastA := some currA } }

/-- The pseudocode of `QD_POLL` after its state check (R170, R175): A is read first, B is a second draw. -/
def pollStep (s : State) : State :=
  match readLevel .a s with
  | (none, s1) => qdLost s1
  | (some currA, s1) =>
    match readLevel .b s1 with
    | (none, s2) => qdLost s2
    | (some currB, s2) => pollSamples currA currB s2

/-- `QD_POLL` (R170). -/
def execQdPoll (s : State) : Host.Outcome State Fault Refusal :=
  if s.qd.phase ≠ .live then .next (endWith .lifecycleError s)
  else if qdLinesHeld s.qd = false then .fault (.noValue .qdLines)
  else if s.qd.lastA = none then .fault (.noValue .lastA)
  else if s.qd.count = none then .fault (.noValue .count)
  else .next (pollStep s)

/-- `QD_READ_COUNT` (R177). -/
def execQdReadCount (s : State) : Host.Outcome State Fault Refusal :=
  if s.qd.phase = .unconstructed then .next (endWith .lifecycleError s)
  else if s.qd.count = none then .fault (.noValue .count)
  else .next (endWith .ok (countAccess countLoad s))

/-- `QD_RESET` (R178). -/
def execQdReset (s : State) : Host.Outcome State Fault Refusal :=
  if s.qd.phase = .unconstructed then .next (endWith .lifecycleError s)
  else .next (endWith .ok (countAccess (countStore 0) s))

/-- The release sequence of `QD_RELEASE` (R179): no delivery after this point, pending edges dropped. -/
def qdReleaseAll (s : State) : State :=
  let s1 := releaseAll releaseQdLine qdLines
    { s with qd := { s.qd with registered := false, pending := 0 } }
  endWith .ok { s1 with qd := { s1.qd with phase := .released } }

/-- `QD_RELEASE` (R179, R180). -/
def execQdRelease (s : State) : Host.Outcome State Fault Refusal :=
  match s.qd.phase with
  | .unconstructed => .next (endWith .lifecycleError s)
  | .released => .next (endWith .ok s)
  | _ => .next (qdReleaseAll s)

end Sys2Proof.Machine
end

