-- ==== Sys2Proof/Machine/ShiftRegister.lean ====
section
/-! DEFINITION. The meanings of the SR family (40_shift_register_driver R125, R130, R137, R141). -/

namespace Sys2Proof.Machine

open Sys2Proof.Config

/-- `SR_INIT` once its three lines are acquired: they are driven low (R125). -/
def srDriveLow (s : State) : State :=
  let r := runActions lowActions s
  if r.1 then endWith .ok { r.2 with sr := { r.2.sr with phase := .ready } } else srLost r.2

/-- The pseudocode of `SR_INIT` after its state check (R125). The chip becomes unconstrained at the first
acquisition (R118). -/
def srConstruct (s : State) : State :=
  match acquireSrLine .data s with
  | (false, s1) => raiseUnavailable s.cfg.pinData s1
  | (true, s1) =>
    match acquireAll acquireSrLine releaseSrLine [.data] [.shclk, .latch] (freshChip s1) with
    | (some l, s2) => raiseUnavailable (srPin s.cfg l) s2
    | (none, s2) => srDriveLow s2

/-- `SR_INIT` (R125, R126, R127). -/
def execSrInit (s : State) : Host.Outcome State Fault Refusal :=
  if s.sr.phase ≠ .unconstructed then .next (endWith .lifecycleError s) else .next (srConstruct s)

/-- `SR_SERIALIZE b` (R130). -/
def execSrSerialize (b : Byte) (s : State) : Host.Outcome State Fault Refusal :=
  if s.sr.phase ≠ .ready then .next (endWith .lifecycleError s)
  else if srLinesDriven s.sr = false then .fault (.noValue .srLines)
  else .next (endSr (runActions (serializeActions s.cfg.bitOrder b) s))

/-- `SR_LATCH` (R137). -/
def execSrLatch (s : State) : Host.Outcome State Fault Refusal :=
  if s.sr.phase ≠ .ready then .next (endWith .lifecycleError s)
  else if srLinesDriven s.sr = false then .fault (.noValue .srLines)
  else .next (endSr (runActions (pulse .latch) s))

/-- The point of `SR_TEARDOWN` just after its last `SetLevel` and before its first `Release` (R146). -/
def teardownDriven (s : State) : State := runBestEffort teardownActions s

/-- The three releases of `SR_TEARDOWN` and its end (R141). -/
def teardownRelease (s : State) : State :=
  let s1 := releaseAll releaseSrLine [.data, .shclk, .latch] s
  endWith .ok { s1 with sr := { s1.sr with phase := .tornDown } }

/-- `SR_TEARDOWN` (R141 to R143). -/
def execSrTeardown (s : State) : Host.Outcome State Fault Refusal :=
  match s.sr.phase with
  | .unconstructed => .next (endWith .lifecycleError s)
  | .tornDown => .next (endWith .ok s)
  | _ =>
    if srLinesDriven s.sr = false then .fault (.noValue .srLines)
    else
      .next (teardownRelease (teardownDriven s))

end Sys2Proof.Machine
end

