-- ==== Sys2Proof/Machine/Dispatch.lean ====
section
/-! DEFINITION. One arm per command (30_encoding R93). -/

namespace Sys2Proof.Machine

def exec (i : Instr) (s : State) : Host.Outcome State Fault Refusal :=
  match i with
  | .srInit => Sys2Proof.Machine.execSrInit s
  | .srSerialize b => Sys2Proof.Machine.execSrSerialize b s
  | .srLatch => Sys2Proof.Machine.execSrLatch s
  | .srTeardown => Sys2Proof.Machine.execSrTeardown s
  | .qdInit => Sys2Proof.Machine.execQdInit s
  | .qdPoll => Sys2Proof.Machine.execQdPoll s
  | .qdReadCount => Sys2Proof.Machine.execQdReadCount s
  | .qdReset => Sys2Proof.Machine.execQdReset s
  | .qdRelease => Sys2Proof.Machine.execQdRelease s

end Sys2Proof.Machine
end

