-- ==== Sys2Proof/Machine/Fetch.lean ====
section
/-! DEFINITION. Issuing a command word (60_exceptions R226) and taking a turn of the schedule
(60_exceptions R221). -/

namespace Sys2Proof.Machine

open Sys2Proof.Config

/-- A command word is issued: it runs as the command it decodes to, or ends `IllegalCommand`, which
changes nothing but `status` (30_encoding R94; 60_exceptions R215). -/
def issue (w : Word) (s : State) : Host.Outcome State Fault Refusal :=
  match decode w with
  | .command i => exec i s
  | .illegal _ => .next (endWith .illegalCommand s)

/-- The next turn of the schedule, where the host's next word is `w`: the host issues it, or another agent
takes its step (20_memory R75). -/
def takeTurn (w : Word) (rest : List Word) (s : State) : Host.Outcome State Fault Refusal :=
  match s.env.turnAt 0 with
  | .host => issue w (issued rest s)
  | .agent a => .next (asyncStep a (turnTaken s))

end Sys2Proof.Machine
end

