-- ==== Sys2Proof/Machine/Step.lean ====
section
/-! DEFINITION. One step of the machine. -/

namespace Sys2Proof.Machine

/-- One step. An illegal launch and a second host take no step (10_state R42; 60_exceptions R227); the
run ends with the host's last word (70_reset_and_hazards R265); else the next turn is taken. -/
def step (s : State) : Host.Outcome State Fault Refusal :=
  if launchLegal s = false then .refused .illegalConfiguration
  else if s.host.second then .refused .secondHost
  else
    match s.host.words with
    | [] => .fault .runEnded
    | w :: rest => takeTurn w rest s

/-- The state whose very next step issues the word `w` (log entry 8): the word is put before the host's
list and the next turn is the host's. The command word is the low 16 bits (30_encoding R90). -/
def State.withFetchWord (s : State) (nbits w : Nat) : State :=
  placeWord (BitVec.ofNat 16 (w % 2 ^ nbits)) s

end Sys2Proof.Machine
end

