-- ==== Sys2Proof/Machine/Assembler.lean ====
section
/-! DEFINITION. The assembler syntax and the listing form (30_encoding R97 to R99), on lines given as
lists of characters. Blanks, empty lines and the case of hexadecimal digits are the model's choice
(DESIGN CHOICE, log entry 17). -/

namespace Sys2Proof.Machine

/-- Why the assembler refuses a line (R97). -/
inductive AsmError where
  | unknownMnemonic
  | wrongOperandCount
  | badLiteral
  /-- A literal outside 0 to 255. -/
  | literalOutOfRange
  /-- A pseudo-command that is not well formed (R98, n >= 1). -/
  | illFormed
deriving DecidableEq, Repr

/-- A line: one that holds no command (`blank`: only a comment, or, DESIGN CHOICE of log entry 17, nothing
or blanks only), a command, or a pseudo-command. -/
inductive AsmLine where
  | blank
  | command (i : Instr)
  | pseudo (p : Pseudo)
deriving DecidableEq, Repr

def isBlank (c : Char) : Bool := decide (c = ' ') || decide (c = '\t')

/-- The text without blanks at its two ends. -/
def trimBlanks (cs : List Char) : List Char :=
  ((cs.dropWhile isBlank).reverse.dropWhile isBlank).reverse

/-- The text cut at each comma. -/
def splitCommas : List Char → List (List Char)
  | [] => [[]]
  | c :: cs =>
    if c = ',' then [] :: splitCommas cs
    else
      match splitCommas cs with
      | [] => [[c]]
      | t :: ts => (c :: t) :: ts

/-- The digits of the literals of R97. -/
def digitValue (c : Char) : Option Nat :=
  let n := c.toNat
  if 48 ≤ n ∧ n ≤ 57 then some (n - 48)
  else if 97 ≤ n ∧ n ≤ 102 then some (n - 87)
  else if 65 ≤ n ∧ n ≤ 70 then some (n - 55)
  else none

/-- A numeral in a base, its first digits already read as `acc`. -/
def numeralFrom (base : Nat) : Nat → List Char → Option Nat
  | acc, [] => some acc
  | acc, c :: cs =>
    match digitValue c with
    | some d => if d < base then numeralFrom base (base * acc + d) cs else none
    | none => none

/-- A nonempty numeral in a base. -/
def numeral (base : Nat) (cs : List Char) : Option Nat :=
  if cs.isEmpty then none else numeralFrom base 0 cs

/-- A hexadecimal `0x..`, binary `0b..` or decimal literal (R97). -/
def literal : List Char → Option Nat
  | '0' :: 'x' :: cs => numeral 16 cs
  | '0' :: 'b' :: cs => numeral 2 cs
  | cs => numeral 10 cs

/-- `<byte>`: a literal with a value from 0 to 255; any other is refused (R97). -/
def byteLiteral (cs : List Char) : Except AsmError Byte :=
  match literal cs with
  | none => .error .badLiteral
  | some n => if n ≤ 255 then .ok (BitVec.ofNat 8 n) else .error .literalOutOfRange

/-- The mnemonics of the commands without an operand (R97). -/
def plainMnemonics : List (List Char × Instr) :=
  [("sr.init".toList, .srInit), ("sr.latch".toList, .srLatch), ("sr.teardown".toList, .srTeardown),
    ("qd.init".toList, .qdInit), ("qd.poll".toList, .qdPoll), ("qd.read_count".toList, .qdReadCount),
    ("qd.reset".toList, .qdReset), ("qd.release".toList, .qdRelease)]

/-- A line of one operand that is a byte. -/
def oneByte (ops : List (List Char)) (f : Byte → AsmLine) : Except AsmError AsmLine :=
  match ops with
  | [x] => (byteLiteral x).map f
  | _ => .error .wrongOperandCount

/-- The line of a mnemonic and its operands (R97, R98). -/
def assembleLine (mnemonic : List Char) (ops : List (List Char)) : Except AsmError AsmLine :=
  match plainMnemonics.find? (fun r => decide (r.1 = mnemonic)) with
  | some r => if ops.isEmpty then .ok (.command r.2) else .error .wrongOperandCount
  | none =>
    if mnemonic = "sr.serialize".toList then oneByte ops (fun b => .command (.srSerialize b))
    else if mnemonic = "sr.write".toList then oneByte ops (fun b => .pseudo (.write b))
    else if mnemonic = "sr.write_chain".toList then
      match ops.mapM byteLiteral with
      | .error e => .error e
      | .ok bs =>
        if (Pseudo.writeChain bs).wellFormed then .ok (.pseudo (.writeChain bs)) else .error .illFormed
    else if mnemonic = "sr.clear".toList then
      if ops.isEmpty then .ok (.pseudo .clear) else .error .wrongOperandCount
    else .error .unknownMnemonic

/-- One line of a program; a comment begins with `;` (R97). DESIGN CHOICE (log entry 17), safe: a line that
is empty or of blanks only is accepted and holds no command, as a line of only a comment does; R97 says one
command per line and is silent on such a line. -/
def parseLine (cs : List Char) : Except AsmError AsmLine :=
  let t := trimBlanks (cs.takeWhile (fun c => decide (c ≠ ';')))
  if t.isEmpty then .ok .blank
  else
    let mnemonic := t.takeWhile (fun c => !isBlank c)
    let rest := trimBlanks (t.drop mnemonic.length)
    assembleLine mnemonic (if rest.isEmpty then [] else (splitCommas rest).map trimBlanks)

/-- The commands of a line, a pseudo-command expanded in place (R98); a blank line gives none (DESIGN CHOICE,
log entry 17). -/
def expandLine (chainDepth : Nat) : AsmLine → List Instr
  | .blank => []
  | .command i => [i]
  | .pseudo p => expandPseudo chainDepth p

/-- A program, one command per line (R97), as the host's list of words (60_exceptions R226). -/
def assemble (chainDepth : Nat) : List (List Char) → Except AsmError (List Word)
  | [] => .ok []
  | l :: ls =>
    match parseLine l with
    | .error e => .error e
    | .ok a =>
      match assemble chainDepth ls with
      | .error e => .error e
      | .ok ws => .ok ((expandLine chainDepth a).map encode ++ ws)

/-- A hexadecimal digit as the listings of 95_test_vectors write it. -/
def hexDigit (n : Nat) : Char := ("0123456789ABCDEF".toList).getD n '0'

/-- `n` hexadecimal digits of a number, the most significant first. -/
def hexDigits : Nat → Nat → List Char
  | 0, _ => []
  | k + 1, n => hexDigit (n / 16 ^ k % 16) :: hexDigits k n

/-- A command in assembler syntax (R97): its mnemonic in lower case with a dot, its byte in hexadecimal. -/
def assemblyText : Instr → List Char
  | .srInit => "sr.init".toList
  | .srSerialize b => "sr.serialize 0x".toList ++ hexDigits 2 b.toNat
  | .srLatch => "sr.latch".toList
  | .srTeardown => "sr.teardown".toList
  | .qdInit => "qd.init".toList
  | .qdPoll => "qd.poll".toList
  | .qdReadCount => "qd.read_count".toList
  | .qdReset => "qd.reset".toList
  | .qdRelease => "qd.release".toList

/-- The listing form `<index>: <word> <assembly>`, the word as four hexadecimal digits (R99). -/
def listingLine (index : Nat) (i : Instr) : List Char :=
  Nat.toDigits 10 index ++ ": ".toList ++ hexDigits 4 (encode i).toNat ++ " ".toList ++ assemblyText i

end Sys2Proof.Machine
end

