-- ==== Sys2Proof/Machine/Observation.lean ====
section
/-! DEFINITION. The observation of a run (92 D33; 70_reset_and_hazards R265): the trace, `chip.out` where a
rule defines it, `status`, `result` and `fault`. Which bits of the chip are defined is read from the trace,
since the chip's state after a trace is a function of the trace alone (20_memory R78; log entry 22). -/

namespace Sys2Proof.Machine

open Sys2Proof.Config

/-- A bit of the chip, or `none` where no rule defines it. -/
abbrev KnownBit := Option Bool

/-- What a trace says of the driver's levels and of the chip: each level and each bit where the trace
defines it. `atRelease` is `out` as it stood just before the first `Release` (40 R146). -/
@[ext]
structure Traced where
  data : Option Bool
  shclk : Option Bool
  latch : Option Bool
  shift : List KnownBit
  out : List KnownBit
  atRelease : Option (List KnownBit)
deriving DecidableEq, Repr

/-- A register of `depth` chips no bit of which is defined (10_state R29). -/
def unknownBits (depth : Nat) : List KnownBit := List.replicate (8 * depth) none

/-- Before the first event: no line has a level and no bit is defined (10_state R45, R29). -/
def tracedStart (depth : Nat) : Traced := ⟨none, none, none, unknownBits depth, unknownBits depth, none⟩

/-- The level a trace gives a line. -/
def tracedLevel (t : Traced) : SrLine → Option Bool
  | .data => t.data
  | .shclk => t.shclk
  | .latch => t.latch

/-- The level of one line replaced. -/
def setTracedLevel (l : SrLine) (x : Option Bool) (t : Traced) : Traced :=
  match l with
  | .data => { t with data := x }
  | .shclk => { t with shclk := x }
  | .latch => { t with latch := x }

/-- A rising edge of a clock: the chain takes the data line's level (40 R115), or the outputs take the
stages (R117). -/
def tracedEdge (depth : Nat) (l : SrLine) (t : Traced) : Traced :=
  match l with
  | .data => t
  | .shclk => { t with shift := (t.data :: t.shift).take (8 * depth) }
  | .latch => { t with out := t.shift }

/-- A clock driven to 1 from a level the trace does not give: it may have been an edge or none. -/
def tracedBlur (depth : Nat) (l : SrLine) (t : Traced) : Traced :=
  match l with
  | .data => t
  | .shclk => { t with shift := unknownBits depth }
  | .latch => { t with out := unknownBits depth }

/-- The outputs just before a `Release`: kept at the first one of a driver whose three lines were driven
(40 R146). -/
def tracedAtRelease (t : Traced) : Option (List KnownBit) :=
  if t.data.isSome && t.shclk.isSome && t.latch.isSome then some t.out else t.atRelease

/-- One event of the trace: a level (40 R112, R115 to R117), or a release, from which on the chip is
unconstrained (R119). -/
def tracedEvent (depth : Nat) (t : Traced) : Event → Traced
  | .level l v =>
    setTracedLevel l (some v)
      (if v = false then t
      else
        match tracedLevel t l with
        | none => tracedBlur depth l t
        | some false => tracedEdge depth l t
        | some true => t)
  | .released l =>
    setTracedLevel l none
      { t with
        shift := unknownBits depth
        out := unknownBits depth
        atRelease := tracedAtRelease t }

/-- What a whole trace says. -/
def traced (depth : Nat) (es : List Event) : Traced := es.foldl (tracedEvent depth) (tracedStart depth)

/-- What the driver's trace says in a state. -/
def tracedOf (s : State) : Traced := traced s.cfg.chainDepth s.sr.trace

/-- What a run shows after a command (92 D33; the info of a raise by 60_exceptions R211). `out` is
`chip.out` where a rule defines it, and `outAtRelease` what it was just before the first `Release`, once
there has been one (40 R146; 70 R265). -/
structure Observation where
  trace : List Event
  out : List KnownBit
  outAtRelease : Option (List KnownBit)
  status : Option Status
  info : Option PinId
  result : Option Int
  fault : Bool
deriving DecidableEq, Repr

/-- The observation of a state. Once a write has failed, no bit of the chip is defined again (40 R119,
R143, R144; 60_exceptions R213). -/
def observe (s : State) : Observation where
  trace := s.sr.trace
  out := if s.writeLost then unknownBits s.cfg.chainDepth else (tracedOf s).out
  outAtRelease := if s.writeLost then none else (tracedOf s).atRelease
  status := s.status
  info := s.info
  result := s.result
  fault := s.fault

end Sys2Proof.Machine
end

