-- ==== Sys2Proof/Safety.lean ====
section
/-! DEFINITION. The terms claims use: a good end of a run (70_reset_and_hazards R265), what the host owes
(40 R147; 70 R256, R257), rising edges of a trace (40 R112, R153), commands in sequence, and the invariant
of the machine. -/

namespace Sys2Proof.Machine

open Sys2Proof.Config

/-- A machine step's next state, where it has one. -/
def nextState? (o : Host.Outcome State Fault Refusal) : Option State :=
  match o with
  | .next s => some s
  | .fault _ => none
  | .refused _ => none

/-- Commands issued one after the other, each after the previous one has ended (60_exceptions R226), with
no other agent's step between two of them. -/
def execAll : List Instr → State → Host.Outcome State Fault Refusal
  | [], s => .next s
  | i :: is, s =>
    match exec i s with
    | .next s' => execAll is s'
    | .fault r => .fault r
    | .refused r => .refused r

/-- The end of a run is good (R265). That no command ended with `PlatformLineFailure` is `fault = false`,
since that status always sets `fault` (60_exceptions R213) and nothing clears it (10_state R41). -/
def goodEnd (s : State) : Prop :=
  s.host.words = [] ∧ (s.sr.phase = .unconstructed ∨ s.sr.phase = .tornDown) ∧
    launchLegal s = true ∧ s.host.second = false ∧ s.fault = false

/-- The host must issue `SR_TEARDOWN` before its run ends (40 R147; 70 R256). -/
def owesTeardown (s : State) : Bool := decide (s.sr.phase = .ready) || decide (s.sr.phase = .failed)

/-- A shutdown between commands (70 R257): the rest of the list is dropped, and the host then issues
`SR_TEARDOWN` if it owes one. -/
def hostShutdown (s : State) : State :=
  { s with host := { s.host with words := if owesTeardown s then [encode .srTeardown] else [] } }

/-- The rising edges of line `l` in a trace, its level before the trace being `level` (40 R112). -/
def risingEdges (l : SrLine) : Option Bool → List Event → Nat
  | _, [] => 0
  | level, .level m v :: es =>
    if m = l then (if isEdge .rising level v then 1 else 0) + risingEdges l (some v) es
    else risingEdges l level es
  | level, .released m :: es => risingEdges l (if m = l then none else level) es

/-- No line access of the next `n` fails: the source's infallible case (90_conflicts C6). -/
abbrev noLineFailure (n : Nat) (s : State) : Prop := ∀ k, k < n → s.env.failsAt k = false

/-- At the next `n` interior points of commands no other agent steps (20_memory R75). -/
abbrev quietInside (n : Nat) (s : State) : Prop := ∀ k, k < n → s.env.insideAt k = []

/-- From `s` to `t` nothing changed but `status`, which is `st` (60_exceptions R214, R215). The model's own
record `info` (log entry 13) is no element of the spec and is left open. -/
abbrev onlyStatus (st : Status) (s t : State) : Prop :=
  t = { s with status := some st, info := t.info }

/-- The driver between commands in `READY` (10_state R25): all lines held, both clocks at 0. -/
abbrev srAtRest (s : State) : Prop :=
  s.sr.phase = .ready ∧ srLinesDriven s.sr = true ∧
    s.sr.shclk.level = some false ∧ s.sr.latch.level = some false

/-- The states in which each command is allowed (60_exceptions R216). -/
def allowedIn (s : State) : Instr → Prop
  | .srInit => s.sr.phase = .unconstructed
  | .srSerialize _ => s.sr.phase = .ready
  | .srLatch => s.sr.phase = .ready
  | .srTeardown => s.sr.phase = .ready ∨ s.sr.phase = .failed ∨ s.sr.phase = .tornDown
  | .qdInit => s.qd.phase = .unconstructed
  | .qdPoll => s.qd.phase = .live
  | .qdReadCount => s.qd.phase = .live ∨ s.qd.phase = .failed ∨ s.qd.phase = .released
  | .qdReset => s.qd.phase = .live ∨ s.qd.phase = .failed ∨ s.qd.phase = .released
  | .qdRelease => s.qd.phase = .live ∨ s.qd.phase = .failed ∨ s.qd.phase = .released

/-- The statuses other than `OK` and `LifecycleError` a command can end with (60_exceptions R216). -/
def otherStatuses : Instr → List Status
  | .srInit => [.resourceUnavailable, .platformLineFailure]
  | .srSerialize _ => [.platformLineFailure]
  | .srLatch => [.platformLineFailure]
  | .srTeardown => []
  | .qdInit => [.resourceUnavailable, .notificationSetupFailed, .platformLineFailure]
  | .qdPoll => [.platformLineFailure]
  | .qdReadCount => []
  | .qdReset => []
  | .qdRelease => []

/-- A command of the SR family; every other one is of the QD family (30_encoding R93). -/
def isSrCommand : Instr → Bool
  | .srInit => true
  | .srSerialize _ => true
  | .srLatch => true
  | .srTeardown => true
  | .qdInit => false
  | .qdPoll => false
  | .qdReadCount => false
  | .qdReset => false
  | .qdRelease => false

/-- The direction table of 41 R171, row by row: `last_a`, `curr_a`, `curr_b` and the change of the count. -/
def directionTable : Bool → Bool → Bool → Int
  | false, false, false => 0
  | false, false, true => 0
  | true, true, false => 0
  | true, true, true => 0
  | false, true, false => 1
  | false, true, true => -1
  | true, false, true => 1
  | true, false, false => -1

/-- The lines acquired before a line of the driver (40 R125). -/
def srBefore : SrLine → List SrLine
  | .data => []
  | .shclk => [.data]
  | .latch => [.data, .shclk]

/-- The lines acquired before a line of the decoder (41 R165). -/
def qdBefore : QdLine → List QdLine
  | .a => []
  | .b => [.a]
  | .sw => [.a, .b]

/-- The decoder in `LIVE` with all it reads in place: lines, previous sample `a` and count `c`. -/
abbrev qdLiveAt (a : Bool) (c : Int) (s : State) : Prop :=
  s.qd.phase = .live ∧ qdLinesHeld s.qd = true ∧ s.qd.lastA = some a ∧ s.qd.count = some c

/-- The driver holds its lines: `READY` or `FAILED`. -/
abbrev srHolds (s : State) : Prop := s.sr.phase = .ready ∨ s.sr.phase = .failed

/-- The decoder holds its lines: `LIVE` or `FAILED`. -/
abbrev qdHolds (s : State) : Prop := s.qd.phase = .live ∨ s.qd.phase = .failed

/-- Each bit a register's record knows is the register's bit. -/
abbrev knownBits (known : List KnownBit) (bits : List Bool) : Prop :=
  List.Forall₂ (fun k b => ∀ x, k = some x → x = b) known bits

/-- The trace and the driver agree (20_memory R78), and a failed write is remembered (60_exceptions R213). -/
structure TraceAgrees (s : State) : Prop where
  /-- While no write has failed, the trace gives each line its level, and every bit it defines is the
  chip's. -/
  level : s.writeLost = false → ∀ l, tracedLevel (tracedOf s) l = (srLine s.sr l).level
  shift : s.writeLost = false → knownBits (tracedOf s).shift s.chip.shift
  out : s.writeLost = false → knownBits (tracedOf s).out s.chip.out
  /-- A driver that does not hold its lines defines no bit of the chip (40 R119; 10_state R29). -/
  idle : ¬ srHolds s →
    (tracedOf s).shift = unknownBits s.cfg.chainDepth ∧ (tracedOf s).out = unknownBits s.cfg.chainDepth
  /-- After a failed write the driver is `FAILED`, or `TORN_DOWN` (60_exceptions R213; 40 R143). -/
  lost_phase : s.writeLost = true → s.sr.phase = .failed ∨ s.sr.phase = .tornDown
  failed_lost : s.sr.phase = .failed → s.writeLost = true
  lost_fault : s.writeLost = true → s.fault = true

/-- The invariant of the machine: the relations between its elements that the lifecycle rules keep. -/
structure Inv (s : State) : Prop where
  /-- `chip.shift` holds `8 * CHAIN_DEPTH` bits (10_state R27). -/
  shift_width : s.chip.shift.length = 8 * s.cfg.chainDepth
  /-- `chip.out` holds `8 * CHAIN_DEPTH` bits (10_state R28). -/
  out_width : s.chip.out.length = 8 * s.cfg.chainDepth
  /-- A line that is not owned is unconfigured and has no level (10_state R24). -/
  sr_idle : ¬ srHolds s → ∀ l, srLine s.sr l = Line.idle
  /-- A driver that holds its lines has all three driven, on pins that are its own (10_state R24, R44). -/
  sr_driven : srHolds s → srLinesDriven s.sr = true
  sr_owner : srHolds s → ∀ l, s.owner[srPin s.cfg l]? = some .sr
  /-- No two lines of the driver stand on one pin (10_state R44). -/
  sr_pins : srHolds s → [s.cfg.pinData, s.cfg.pinShclk, s.cfg.pinLatch].Nodup
  /-- A pin the driver owns is one of its three, while it holds them. -/
  sr_only : ∀ p : Nat, s.owner[p]? = some .sr → srHolds s ∧ ∃ l, p = srPin s.cfg l
  /-- The rest levels of the clocks in `READY` (10_state R25). -/
  sr_rest : s.sr.phase = .ready → s.sr.shclk.level = some false ∧ s.sr.latch.level = some false
  /-- What the observation reads from the trace is so (20_memory R78; 70 R265). -/
  sr_trace : TraceAgrees s
  /-- The decoder's lines are held in their modes exactly while it is `LIVE` or `FAILED` (10_state R33). -/
  qd_held : qdHolds s → ∀ l, qdLine s.qd l = qdMode s.cfg l
  qd_idle : ¬ qdHolds s → ∀ l, qdLine s.qd l = .unconfigured
  qd_owner : qdHolds s → ∀ l, s.owner[qdPin s.cfg l]? = some .qd
  qd_pins : qdHolds s → [s.cfg.pinA, s.cfg.pinB, s.cfg.pinSw].Nodup
  qd_only : ∀ p : Nat, s.owner[p]? = some .qd → qdHolds s ∧ ∃ l, p = qdPin s.cfg l
  /-- The notification is registered exactly while the lines are held (10_state R36). -/
  registered_held : s.qd.registered = true ↔ qdHolds s
  /-- Nothing is pending while nothing is registered (10_state R37). -/
  pending_registered : s.qd.registered = false → s.qd.pending = 0
  /-- The count has a value exactly from `QD_INIT` on, one of the W-bit range (10_state R34). -/
  count_value : s.qd.count.isSome = true ↔ s.qd.phase ≠ .unconstructed
  count_range : ∀ c, s.qd.count = some c → inRangeW s.cfg.countWidth c
  /-- `last_a` has a value while the decoder is `LIVE` (10_state R35). -/
  last_value : s.qd.phase = .live → s.qd.lastA.isSome = true
  last_unconstructed : s.qd.phase = .unconstructed → s.qd.lastA = none
  /-- `result` is a W-bit value where it has one (10_state R40). -/
  result_range : ∀ r, s.result = some r → inRangeW s.cfg.countWidth r
  /-- A component is `FAILED`, or a command ended `PlatformLineFailure`, only after a line was lost
  (60_exceptions R213). -/
  failed_fault : s.sr.phase = .failed ∨ s.qd.phase = .failed ∨ s.status = some .platformLineFailure →
    s.fault = true

end Sys2Proof.Machine
end

