-- ==== Sys2Proof/Certificates/Slice0/Obligations.lean ====
section
/-! DEFINITION. The statements for the provers, in the order of the spec's files: encoding (30), the
shift-register driver (40), the quadrature decoder (41), errors and agents (60), and the whole machine.
`s` is any state, `t` the state after the command. `info` is the model's own record of a raise's info (log
entry 13): a statement that gives it a value is derived, and no stated one does. -/

open Sys2Proof Sys2Proof.Machine Sys2Proof.Config

/-! ## Encoding and assembler (30_encoding) -/

/-- Decoding the encoding of a well-formed command gives the command back (R91 to R93). -/
def Obligations.DecodeOfEncode : Prop :=
  ∀ i : Instr, i.wellFormed = true → decode (encode i) = .command i

/-- R95: a word decodes to the one command whose row of R93 it selects, with its `imm8`, or to an illegal
word exactly when it selects no row; and no word selects two rows. -/
def Obligations.DecoderTotalAndRowsDisjoint : Prop :=
  (∀ w i, decode w = .command i →
      (opcodeRow i).selects w ∧ ∀ b, i = .srSerialize b → b = imm8Field w) ∧
    (∀ w, (∃ why, decode w = .illegal why) ↔ ∀ r ∈ opcodeRows, ¬ r.selects w) ∧
    (∀ w, ∀ r₁ ∈ opcodeRows, ∀ r₂ ∈ opcodeRows, r₁.selects w → r₂.selects w → r₁ = r₂)

/-- Words written out from R93 decode to the commands of 95_test_vectors, Part 2, and the words listed
there as illegal are refused by their cause (R94); and the registers of 10_state R42 read by their numbers
as its table says, with the codes of R23, R32 and 60_exceptions R210, and at power-on (R45). Pins and
durations as numbers are log entries 21 and 14, `State.reset` is log entry 1. -/
def Obligations.TableWordsAndRegisterNumbers : Prop :=
  (decode 0x1000#16 = .command .srInit ∧ decode 0x1106#16 = .command (.srSerialize 0x06#8) ∧
    decode 0x11FF#16 = .command (.srSerialize 0xFF#8) ∧ decode 0x1200#16 = .command .srLatch ∧
    decode 0x1300#16 = .command .srTeardown ∧ decode 0x2000#16 = .command .qdInit ∧
    decode 0x2100#16 = .command .qdPoll ∧ decode 0x2200#16 = .command .qdReadCount ∧
    decode 0x2300#16 = .command .qdReset ∧ decode 0x2400#16 = .command .qdRelease ∧
    decode 0x1201#16 = .illegal .nonzeroOperand ∧ decode 0x2480#16 = .illegal .nonzeroOperand ∧
    decode 0x1400#16 = .illegal .unassignedOp ∧ decode 0x2500#16 = .illegal .unassignedOp) ∧
  (∀ s : State,
    (s.cfg.bitOrder = .lsbFirst → cfgRegister s 0 = some 0) ∧
    (s.cfg.bitOrder = .msbFirst → cfgRegister s 0 = some 1) ∧
    cfgRegister s 1 = some s.cfg.chainDepth ∧ cfgRegister s 2 = some s.cfg.pinData ∧
    cfgRegister s 3 = some s.cfg.pinShclk ∧ cfgRegister s 4 = some s.cfg.pinLatch ∧
    cfgRegister s 5 = some s.cfg.pinA ∧ cfgRegister s 6 = some s.cfg.pinB ∧
    cfgRegister s 7 = some s.cfg.pinSw ∧
    (s.cfg.abInputMode = .input → cfgRegister s 8 = some 0) ∧
    (s.cfg.abInputMode = .inputPullUp → cfgRegister s 8 = some 1) ∧
    cfgRegister s 9 = some s.cfg.countWidth ∧ cfgRegister s 10 = some s.cfg.tPulseHigh ∧
    cfgRegister s 11 = some s.cfg.pollPeriod ∧ ∀ k, 12 ≤ k → cfgRegister s k = none) ∧
  (∀ s : State,
    (s.sr.phase = .unconstructed → stsRegister s 0 = some 0) ∧
    (s.sr.phase = .ready → stsRegister s 0 = some 1) ∧
    (s.sr.phase = .failed → stsRegister s 0 = some 2) ∧
    (s.sr.phase = .tornDown → stsRegister s 0 = some 3) ∧
    (s.qd.phase = .unconstructed → stsRegister s 1 = some 0) ∧
    (s.qd.phase = .live → stsRegister s 1 = some 1) ∧
    (s.qd.phase = .failed → stsRegister s 1 = some 2) ∧
    (s.qd.phase = .released → stsRegister s 1 = some 3) ∧
    (s.status = none → stsRegister s 2 = none) ∧
    (s.status = some .ok → stsRegister s 2 = some 0) ∧
    (s.status = some .resourceUnavailable → stsRegister s 2 = some 1) ∧
    (s.status = some .notificationSetupFailed → stsRegister s 2 = some 2) ∧
    (s.status = some .platformLineFailure → stsRegister s 2 = some 3) ∧
    (s.status = some .lifecycleError → stsRegister s 2 = some 4) ∧
    (s.status = some .illegalCommand → stsRegister s 2 = some 5) ∧
    (s.fault = false → stsRegister s 3 = some 0) ∧ (s.fault = true → stsRegister s 3 = some 1) ∧
    ∀ k, 4 ≤ k → stsRegister s k = none) ∧
  (∀ (cfg : Settings) (owner0 : List Owner) (words : List Word) (env : Env),
    (List.range 4).map (stsRegister (State.powerOn cfg owner0 words env)) =
      [some 0, some 0, none, some 0]) ∧
  cfgRegister State.reset 9 = some 32 ∧ cfgRegister State.reset 10 = some 1000 ∧
    cfgRegister State.reset 11 = some 10000000

/-- R215: a word that selects no row ends with `IllegalCommand`, and only `status` changes. -/
def Obligations.IllegalWordChangesOnlyStatus : Prop :=
  ∀ (w : Word) (s : State), (∀ r ∈ opcodeRows, ¬ r.selects w) →
    ∃ t, issue w s = .next t ∧ onlyStatus .illegalCommand s t

/-- Every command's assembly text (R97) is parsed back to the command. -/
def Obligations.AssemblyTextParses : Prop :=
  ∀ i : Instr, parseLine (assemblyText i) = .ok (.command i)

/-! ## Steps -/

/-- A step issues the host's word, whatever word it is: where the launch is legal, there is one host and
the schedule's next turn is the host's, the step is `issue` of the next word on the state with the word and
the turn taken. So a step runs the command the word decodes to, and a word that selects no row ends
`IllegalCommand` (30_encoding R94, 60_exceptions R215). The host's list and the schedule stand in State by
the model's choice (log entries 6 and 8). -/
def Obligations.StepIssuesHostsWord : Prop :=
  ∀ (s u : State) (w : Word) (rest : List Word),
    launchLegal s = true → s.host.second = false → s.host.words = w :: rest →
    s.env.turnAt 0 = .host →
    u = { s with
      host := { s.host with words := rest }
      env := { s.env with turns := s.env.turns.drop 1 } } →
    step s = issue w u ∧ (∀ i, decode w = .command i → step s = exec i u) ∧
      ((∀ r ∈ opcodeRows, ¬ r.selects w) → ∃ t, step s = .next t ∧ onlyStatus .illegalCommand u t)

/-- A word placed by `withFetchWord` is what the very next step runs, on the state as it was. The model's
own placement of a word (log entry 8), not a rule of the spec. -/
def Obligations.PlacedWordRunsNext : Prop :=
  ∀ (s : State) (w : Nat) (i : Instr), launchLegal s = true → s.host.second = false →
    decodeTableWord 16 w = some i → step (s.withFetchWord 16 w) = exec i s

/-- Another agent's turn is that agent's step and nothing else. The schedule of turns is the model's own
form of 60_exceptions R221 and R229 (log entry 6). -/
def Obligations.AgentTurnIsItsStep : Prop :=
  ∀ (s : State) (a : AsyncStep), launchLegal s = true → s.host.second = false →
    s.host.words ≠ [] → s.env.turnAt 0 = .agent a →
    step s = .next (asyncStep a { s with env := { s.env with turns := s.env.turns.drop 1 } })

/-- An illegal launch and a second host take no step (10_state R42, 60_exceptions R227), and the machine
stops after the host's last word (70_reset_and_hazards R265). That the stop is the fault `runEnded`, and
that the two refusals are `step`'s alone, are the model's choices (log entries 9 and 10). -/
def Obligations.StepStopsAsNamed : Prop :=
  ∀ s : State,
    (launchLegal s = false → step s = .refused .illegalConfiguration) ∧
      (launchLegal s = true → s.host.second = true → step s = .refused .secondHost) ∧
      (launchLegal s = true → s.host.second = false → s.host.words = [] → step s = .fault .runEnded)

/-! ## Shift-register driver (40_shift_register_driver) -/

/-- 00_scope R17: an acquisition is refused exactly when the pin is not `FREE` or the draw `Denied` is
true; otherwise the pin's owner is the acquiring component and the line has its mode. -/
def Obligations.AcquireRefusedExactly : Prop :=
  ∀ s : State,
    (∀ l : SrLine,
      ((acquireSrLine l s).1 = false ↔
        s.owner[srPin s.cfg l]? ≠ some .free ∨ s.env.deniedAt 0 = true) ∧
      ((acquireSrLine l s).1 = true →
        (acquireSrLine l s).2.owner = s.owner.set (srPin s.cfg l) .sr ∧
          (srLine (acquireSrLine l s).2.sr l).mode = .output)) ∧
    (∀ l : QdLine,
      ((acquireQdLine l s).1 = false ↔
        s.owner[qdPin s.cfg l]? ≠ some .free ∨ s.env.deniedAt 0 = true) ∧
      ((acquireQdLine l s).1 = true →
        (acquireQdLine l s).2.owner = s.owner.set (qdPin s.cfg l) .qd ∧
          qdLine (acquireQdLine l s).2.qd l = qdMode s.cfg l))

/-- R125, R118: with three distinct pins `FREE`, no denial and no line failure, `SR_INIT` ends `OK` in
`READY` with all three lines held at 0, its three events in the trace, and every chip bit a fresh draw;
nothing else changes. -/
def Obligations.SrInitCompletes : Prop :=
  ∀ s : State, s.sr.phase = .unconstructed →
    [s.cfg.pinData, s.cfg.pinShclk, s.cfg.pinLatch].Nodup →
    (∀ l : SrLine, s.owner[srPin s.cfg l]? = some .free) →
    (∀ k, k < 3 → s.env.deniedAt k = false) → noLineFailure 3 s →
    exec .srInit s = .next
      { s with
        sr :=
          { phase := .ready
            data := ⟨.output, some false⟩
            shclk := ⟨.output, some false⟩
            latch := ⟨.output, some false⟩
            trace := s.sr.trace ++ [.level .data false, .level .shclk false, .level .latch false] }
        chip :=
          ⟨s.env.chipBits 0 (8 * s.cfg.chainDepth),
            s.env.chipBits (8 * s.cfg.chainDepth) (8 * s.cfg.chainDepth)⟩
        owner :=
          ((s.owner.set s.cfg.pinData .sr).set s.cfg.pinShclk .sr).set s.cfg.pinLatch .sr
        status := some .ok
        info := none
        env :=
          { s.env with
            denied := s.env.denied.drop 3
            fails := s.env.fails.drop 3
            level := s.env.level.drop 3
            chipBit := s.env.chipBit.drop (16 * s.cfg.chainDepth) } }

/-- R126: an `SR_INIT` that ends `ResourceUnavailable` leaves no line held and no pin taken, stays
`UNCONSTRUCTED`, and its info is the pin of one of the three lines. -/
def Obligations.SrInitNoPartialConstruction : Prop :=
  ∀ s t : State, s.sr.phase = .unconstructed → (∀ l, srLine s.sr l = Line.idle) →
    exec .srInit s = .next t → t.status = some .resourceUnavailable →
    t.sr.phase = .unconstructed ∧ (∀ l, srLine t.sr l = Line.idle) ∧ t.owner = s.owner ∧
      (∃ l, t.info = some (srPin s.cfg l)) ∧ t.qd = s.qd ∧ t.fault = s.fault ∧ t.result = s.result

/-- R125, R126 and 41_quadrature_decoder R165, R167; 60_exceptions R211, R220: a construction ends
`ResourceUnavailable` at the first line, in the order of its pins, whose pin is not `FREE`, is the pin of an
earlier line, or is denied. What it acquired is released in acquisition order, and nothing else is changed
but the chip's bits (R118, R119), the draws and the info, which is that line's pin (log entry 13). That an
equal pin takes a draw of its own is log entry 18. -/
def Obligations.ConstructionFailsAtFirstRefusedPin : Prop :=
  (∀ (s : State) (l : SrLine), s.sr.phase = .unconstructed → (∀ m, srLine s.sr m = Line.idle) →
    (∀ m ∈ srBefore l, s.owner[srPin s.cfg m]? = some .free) →
    ((srBefore l).map (srPin s.cfg)).Nodup →
    (∀ k, k < (srBefore l).length → s.env.deniedAt k = false) →
    (s.owner[srPin s.cfg l]? ≠ some .free ∨ (∃ m ∈ srBefore l, srPin s.cfg m = srPin s.cfg l) ∨
      s.env.deniedAt (srBefore l).length = true) →
    ∃ t, exec .srInit s = .next t ∧ t.status = some .resourceUnavailable ∧
      t.info = some (srPin s.cfg l) ∧
      t.sr = { s.sr with trace := s.sr.trace ++ (srBefore l).map Event.released } ∧
      t.owner = s.owner ∧ t.qd = s.qd ∧ t.fault = s.fault ∧ t.result = s.result ∧
      t.cfg = s.cfg ∧ t.host = s.host ∧ (l = .data → t.chip = s.chip)) ∧
  ∀ (s : State) (l : QdLine), s.qd.phase = .unconstructed → (∀ m, qdLine s.qd m = .unconfigured) →
    (∀ m ∈ qdBefore l, s.owner[qdPin s.cfg m]? = some .free) →
    ((qdBefore l).map (qdPin s.cfg)).Nodup →
    (∀ k, k < (qdBefore l).length → s.env.deniedAt k = false) →
    (s.owner[qdPin s.cfg l]? ≠ some .free ∨ (∃ m ∈ qdBefore l, qdPin s.cfg m = qdPin s.cfg l) ∨
      s.env.deniedAt (qdBefore l).length = true) →
    ∃ t, exec .qdInit s = .next t ∧ t.status = some .resourceUnavailable ∧
      t.info = some (qdPin s.cfg l) ∧ t.qd = s.qd ∧ t.owner = s.owner ∧ t.sr = s.sr ∧
      t.chip = s.chip ∧ t.fault = s.fault ∧ t.result = s.result ∧ t.cfg = s.cfg ∧ t.host = s.host

/-- R130: from `READY` at rest and with no line failure, `SR_SERIALIZE b` ends `OK`: its 24 events, the
byte's image in chip 0 with every older bit eight stages deeper, the data line at the last bit sent, and
nothing else changed. -/
def Obligations.SrSerializeCompletes : Prop :=
  ∀ (s : State) (b : Byte), srAtRest s → 1 ≤ s.cfg.chainDepth → noLineFailure 24 s →
    exec (.srSerialize b) s = .next
      { s with
        sr :=
          { s.sr with
            data := ⟨.output, some (b.getLsbD (sendBit s.cfg.bitOrder 7))⟩
            trace := s.sr.trace ++ actionEvents (serializeActions s.cfg.bitOrder b) }
        chip :=
          { s.chip with
            shift := byteBits (ord s.cfg.bitOrder b) ++ s.chip.shift.take (8 * s.cfg.chainDepth - 8) }
        status := some .ok
        info := none
        env := { s.env with fails := s.env.fails.drop 24 } }

/-- R132: an `SR_SERIALIZE` that ends `OK` from a state in which `sr.shclk` is 0 shifts the byte's image
in; with one chip the stages are the image; the outputs do not change. -/
def Obligations.SrSerializeShiftsImageIn : Prop :=
  ∀ (s t : State) (b : Byte), exec (.srSerialize b) s = .next t → t.status = some .ok →
    s.sr.shclk.level = some false → 1 ≤ s.cfg.chainDepth →
    t.chip.shift =
        byteBits (ord s.cfg.bitOrder b) ++ s.chip.shift.take (8 * s.cfg.chainDepth - 8) ∧
      (s.cfg.chainDepth = 1 → t.chip.shift = byteBits (ord s.cfg.bitOrder b)) ∧
      t.chip.out = s.chip.out

/-- R131: the end levels of an `SR_SERIALIZE` that ends `OK` with `sr.latch` at 0. -/
def Obligations.SrSerializeEndLevels : Prop :=
  ∀ (s t : State) (b : Byte), exec (.srSerialize b) s = .next t → t.status = some .ok →
    s.sr.latch.level = some false →
    t.sr.shclk.level = some false ∧ t.sr.latch.level = some false ∧
      (s.cfg.bitOrder = .lsbFirst → t.sr.data.level = some (b.getLsbD 7)) ∧
      (s.cfg.bitOrder = .msbFirst → t.sr.data.level = some (b.getLsbD 0))

/-- R134: after an `SR_SERIALIZE` that ends `OK`, the data line's level is stage 0 of chip 0. -/
def Obligations.SrSerializeDataIsStageZero : Prop :=
  ∀ (s t : State) (b : Byte), exec (.srSerialize b) s = .next t → t.status = some .ok →
    1 ≤ s.cfg.chainDepth → t.sr.data.level = t.chip.shift[0]? ∧ t.sr.data.level.isSome = true

/-- R123, 60_exceptions R213, 10_state R26: an `SR_INIT`, `SR_SERIALIZE` or `SR_LATCH` whose write `n` is
the first to fail stops there: the events before it are in the trace and no later one, the failing line's
level and every bit of the chip are fresh draws, `fault` is set, the driver is `FAILED`, and nothing outside
the driver, the chip, the status and the draws changes but that `SR_INIT` keeps its three pins. The model's
record `writeLost` is log entry 22. -/
def Obligations.SrCommandsStopAtFailedWrite : Prop :=
  ∀ (s : State) (n : Nat), noLineFailure n s → s.env.failsAt n = true →
    (n < 3 → s.sr.phase = .unconstructed → [s.cfg.pinData, s.cfg.pinShclk, s.cfg.pinLatch].Nodup →
      (∀ l : SrLine, s.owner[srPin s.cfg l]? = some .free) →
      (∀ k, k < 3 → s.env.deniedAt k = false) →
      ∃ t, exec .srInit s = .next t ∧ t.status = some .platformLineFailure ∧ t.fault = true ∧
        t.writeLost = true ∧ t.sr.phase = .failed ∧
        t.sr.trace = s.sr.trace ++
          [.level .data false, .level .shclk false, .level .latch false].take n ∧
        t.chip =
          ⟨s.env.chipBits (16 * s.cfg.chainDepth) (8 * s.cfg.chainDepth),
            s.env.chipBits (24 * s.cfg.chainDepth) (8 * s.cfg.chainDepth)⟩ ∧
        (∀ l, (srLine t.sr l).mode = .output) ∧
        [t.sr.data.level, t.sr.shclk.level, t.sr.latch.level] = (List.range 3).map (fun j =>
          some (if j < n then false else if j = n then s.env.levelAt 3 else s.env.levelAt j)) ∧
        t.owner = ((s.owner.set s.cfg.pinData .sr).set s.cfg.pinShclk .sr).set s.cfg.pinLatch .sr ∧
        t.qd = s.qd ∧ t.result = s.result ∧ t.cfg = s.cfg ∧ t.host = s.host ∧
        t.env.fails = s.env.fails.drop (n + 1)) ∧
    (n < 24 → srAtRest s → ∀ b : Byte,
      ∃ t, exec (.srSerialize b) s = .next t ∧ t.status = some .platformLineFailure ∧
        t.fault = true ∧ t.writeLost = true ∧ t.sr.phase = .failed ∧
        t.sr.trace = s.sr.trace ++ (actionEvents (serializeActions s.cfg.bitOrder b)).take n ∧
        t.chip =
          ⟨s.env.chipBits 0 (8 * s.cfg.chainDepth),
            s.env.chipBits (8 * s.cfg.chainDepth) (8 * s.cfg.chainDepth)⟩ ∧
        (∀ l, (srLine t.sr l).mode = .output) ∧
        (srLine t.sr (if n % 3 = 0 then .data else .shclk)).level = some (s.env.levelAt 0) ∧
        t.sr.latch = s.sr.latch ∧ t.owner = s.owner ∧
        t.qd = s.qd ∧ t.result = s.result ∧ t.cfg = s.cfg ∧ t.host = s.host ∧
        t.env.fails = s.env.fails.drop (n + 1)) ∧
    (n < 2 → srAtRest s →
      ∃ t, exec .srLatch s = .next t ∧ t.status = some .platformLineFailure ∧
        t.fault = true ∧ t.writeLost = true ∧
        t.sr =
          { s.sr with
            phase := .failed
            latch := ⟨.output, some (s.env.levelAt 0)⟩
            trace := s.sr.trace ++ [.level .latch true, .level .latch false].take n } ∧
        t.chip =
          ⟨s.env.chipBits 0 (8 * s.cfg.chainDepth),
            s.env.chipBits (8 * s.cfg.chainDepth) (8 * s.cfg.chainDepth)⟩ ∧
        t.owner = s.owner ∧ t.qd = s.qd ∧ t.result = s.result ∧ t.cfg = s.cfg ∧ t.host = s.host ∧
        t.env.fails = s.env.fails.drop (n + 1))

/-- R137: from `READY` at rest and with no line failure, `SR_LATCH` ends `OK`: its two events, the outputs
a copy of the stages, and nothing else changed. -/
def Obligations.SrLatchCompletes : Prop :=
  ∀ s : State, srAtRest s → noLineFailure 2 s →
    exec .srLatch s = .next
      { s with
        sr := { s.sr with trace := s.sr.trace ++ [.level .latch true, .level .latch false] }
        chip := { s.chip with out := s.chip.shift }
        status := some .ok
        info := none
        env := { s.env with fails := s.env.fails.drop 2 } }

/-- R138: an `SR_LATCH` that ends `OK` from a state in which `sr.latch` is 0 copies the stages. -/
def Obligations.SrLatchCopiesStages : Prop :=
  ∀ s t : State, exec .srLatch s = .next t → t.status = some .ok →
    s.sr.latch.level = some false → t.chip.out = s.chip.shift ∧ t.chip.shift = s.chip.shift

/-- R145, R143: `SR_TEARDOWN` of a driver that holds its lines ends `OK` in `TORN_DOWN` whatever writes
fail, with every line unconfigured and its pin `FREE`; a failed write sets `fault`; and where the last
three writes do not fail, the trace ends with them and the three releases. -/
def Obligations.SrTeardownCompletes : Prop :=
  ∀ s : State, srHolds s → srLinesDriven s.sr = true →
    (∀ l, s.owner[srPin s.cfg l]? = some .sr) →
    ∃ t, exec .srTeardown s = .next t ∧ t.status = some .ok ∧ t.sr.phase = .tornDown ∧
      (∀ l, srLine t.sr l = Line.idle) ∧ (∀ l, t.owner[srPin s.cfg l]? = some .free) ∧
      (∀ p : Nat, (∀ l, p ≠ srPin s.cfg l) → t.owner[p]? = s.owner[p]?) ∧
      (t.fault = true ↔ s.fault = true ∨ ∃ k, k < 29 ∧ s.env.failsAt k = true) ∧
      ((∀ k, 26 ≤ k → k < 29 → s.env.failsAt k = false) →
        ∃ es, t.sr.trace = s.sr.trace ++ es ++
          [.level .data false, .level .shclk false, .level .latch false,
            .released .data, .released .shclk, .released .latch]) ∧
      t.qd = s.qd ∧ t.result = s.result ∧ t.cfg = s.cfg ∧ t.host = s.host

/-- R146: from `READY` at rest and with no failed write, the chip just before the first release holds one
zero byte in chip 0 and in every deeper chip what the chip before it held; with one chip every output is
0. The trace up to that point is the teardown's writes, and the releases are all that follows. -/
def Obligations.SrTeardownOutputsBeforeRelease : Prop :=
  ∀ s : State, srAtRest s → 1 ≤ s.cfg.chainDepth → s.chip.shift.length = 8 * s.cfg.chainDepth →
    noLineFailure 29 s →
    (teardownDriven s).chip.shift =
        List.replicate 8 false ++ s.chip.shift.take (8 * s.cfg.chainDepth - 8) ∧
      (teardownDriven s).chip.out = (teardownDriven s).chip.shift ∧
      (s.cfg.chainDepth = 1 → (teardownDriven s).chip.out = List.replicate 8 false) ∧
      (∀ c, c + 1 < s.cfg.chainDepth →
        chipBits (teardownDriven s).chip.out (c + 1) = chipBits s.chip.shift c) ∧
      (teardownDriven s).sr.trace = s.sr.trace ++ actionEvents teardownActions ∧
      ∃ t, exec .srTeardown s = .next t ∧
        t.sr.trace = (teardownDriven s).sr.trace ++
          [.released .data, .released .shclk, .released .latch]

/-- R142: teardown of a driver already torn down does nothing and ends `OK`; of one never constructed it
ends with `LifecycleError`. -/
def Obligations.SrTeardownRepeatedDoesNothing : Prop :=
  ∀ s : State,
    (s.sr.phase = .tornDown → ∃ t, exec .srTeardown s = .next t ∧ onlyStatus .ok s t) ∧
      (s.sr.phase = .unconstructed →
        ∃ t, exec .srTeardown s = .next t ∧ onlyStatus .lifecycleError s t)

/-- R150: `SR_SERIALIZE b` then `SR_LATCH` shows the byte in the configured bit order on chip 0. -/
def Obligations.SerializeLatchRoundTrip : Prop :=
  ∀ (s : State) (b : Byte), srAtRest s → 1 ≤ s.cfg.chainDepth → noLineFailure 26 s →
    ∃ t, execAll [.srSerialize b, .srLatch] s = .next t ∧ t.status = some .ok ∧
      chipBits t.chip.out 0 = byteBits (ord s.cfg.bitOrder b) ∧
      (s.cfg.bitOrder = .msbFirst → chipBits t.chip.out 0 = byteBits b) ∧
      (s.cfg.bitOrder = .lsbFirst → chipBits t.chip.out 0 = byteBits (rev8 b))

/-- R151: the image of a byte on chip 0 under `LSB_FIRST` is the reverse of its image under `MSB_FIRST`. -/
def Obligations.ReversedOrderReversesImage : Prop :=
  ∀ (s t u : State) (b : Byte), srAtRest s → 1 ≤ s.cfg.chainDepth → noLineFailure 26 s →
    execAll [.srSerialize b, .srLatch] { s with cfg := { s.cfg with bitOrder := .msbFirst } } = .next t →
    execAll [.srSerialize b, .srLatch] { s with cfg := { s.cfg with bitOrder := .lsbFirst } } = .next u →
    chipBits u.chip.out 0 = (chipBits t.chip.out 0).reverse

/-- R152: after `SR_SERIALIZE b_1`, ..., `SR_SERIALIZE b_n` and `SR_LATCH`, chip `c < n` shows the image
of the byte `n - c`, and chip `c >= n` what chip `c - n` held in its stages before. -/
def Obligations.ChainedShift : Prop :=
  ∀ (s : State) (bs : List Byte), srAtRest s → 1 ≤ s.cfg.chainDepth →
    s.chip.shift.length = 8 * s.cfg.chainDepth → noLineFailure (24 * bs.length + 2) s →
    ∃ t, execAll (bs.map Instr.srSerialize ++ [.srLatch]) s = .next t ∧ t.status = some .ok ∧
      (∀ (c : Nat) (b : Byte), c < s.cfg.chainDepth → c < bs.length →
        bs[bs.length - 1 - c]? = some b →
        chipBits t.chip.out c = byteBits (ord s.cfg.bitOrder b)) ∧
      (∀ c, bs.length ≤ c → c < s.cfg.chainDepth →
        chipBits t.chip.out c = chipBits s.chip.shift (c - bs.length))

/-- 70_reset_and_hazards R241: after at least `CHAIN_DEPTH` serializes and a latch, the outputs do not
depend on what the chip held before; and from a state of the invariant the observation then shows every
output (92 D33: `chip.out` where a rule defines it, by log entry 22). -/
def Obligations.OutputsDefinedAfterDepthSerializes : Prop :=
  ∀ (s : State) (before₁ before₂ : Chip) (bs : List Byte), srAtRest s → 1 ≤ s.cfg.chainDepth →
    before₁.shift.length = 8 * s.cfg.chainDepth → before₂.shift.length = 8 * s.cfg.chainDepth →
    s.cfg.chainDepth ≤ bs.length → noLineFailure (24 * bs.length + 2) s →
    ∃ t₁ t₂, execAll (bs.map Instr.srSerialize ++ [.srLatch]) { s with chip := before₁ } = .next t₁ ∧
      execAll (bs.map Instr.srSerialize ++ [.srLatch]) { s with chip := before₂ } = .next t₂ ∧
      t₁.chip.out = t₂.chip.out ∧ (Inv s → (observe t₁).out = t₁.chip.out.map some)

/-- R98, R247: the pseudo-command `sr.clear` brings every output of the chain to 0. -/
def Obligations.ClearZeroesEveryOutput : Prop :=
  ∀ s : State, srAtRest s → 1 ≤ s.cfg.chainDepth → s.chip.shift.length = 8 * s.cfg.chainDepth →
    noLineFailure (24 * s.cfg.chainDepth + 2) s →
    ∃ t, execAll (expandPseudo s.cfg.chainDepth .clear) s = .next t ∧ t.status = some .ok ∧
      t.chip.out = List.replicate (8 * s.cfg.chainDepth) false

/-- R153: the rising edges each SR command makes when no write fails. -/
def Obligations.PulseCounts : Prop :=
  ∀ (s t : State) (i : Instr), noLineFailure 29 s → exec i s = .next t → t.status = some .ok →
    ∃ es, t.sr.trace = s.sr.trace ++ es ∧
      (srAtRest s → (∃ b, i = .srSerialize b) →
        risingEdges .shclk s.sr.shclk.level es = 8 ∧ risingEdges .latch s.sr.latch.level es = 0) ∧
      (srAtRest s → i = .srLatch →
        risingEdges .latch s.sr.latch.level es = 1 ∧ risingEdges .shclk s.sr.shclk.level es = 0) ∧
      (srAtRest s → i = .srTeardown →
        risingEdges .shclk s.sr.shclk.level es = 8 ∧ risingEdges .latch s.sr.latch.level es = 1) ∧
      (i = .srInit → ∀ v, risingEdges .shclk v es = 0 ∧ risingEdges .latch v es = 0)

/-- 20_memory R78: the chip after an SR_SERIALIZE or SR_LATCH that ends `OK` is the chip before, with the
command's trace events applied one by one. -/
def Obligations.ChipFollowsTrace : Prop :=
  ∀ (s t : State) (i : Instr), ((∃ b, i = .srSerialize b) ∨ i = .srLatch) → exec i s = .next t →
    t.status = some .ok →
    ∃ es, t.sr.trace = s.sr.trace ++ es ∧
      t.chip = replayChip .rising s.cfg.chainDepth es s.sr s.chip

/-- R120: for the writes of SR_SERIALIZE, SR_LATCH and SR_TEARDOWN from clocks at 0, a chip that acts on
the falling edge ends as one that acts on the rising edge. -/
def Obligations.ClockEdgeUnobservable : Prop :=
  ∀ (depth : Nat) (sr : Sr) (c : Chip) (as : List Action),
    ((∃ order b, as = serializeActions order b) ∨ as = pulse .latch ∨ as = teardownActions) →
    sr.shclk.level = some false → sr.latch.level = some false →
    replayChip .falling depth (actionEvents as) sr c = replayChip .rising depth (actionEvents as) sr c

/-- R154: a command other than SR_INIT, SR_LATCH and SR_TEARDOWN changes `chip.out` only by a line
failure. -/
def Obligations.OutputsChangeOnlyAtLatch : Prop :=
  ∀ (s t : State) (i : Instr), exec i s = .next t → i ≠ .srInit → i ≠ .srLatch → i ≠ .srTeardown →
    t.chip.out = s.chip.out ∨ ((∃ b, i = .srSerialize b) ∧ t.status = some .platformLineFailure)

/-! ## Quadrature decoder (41_quadrature_decoder) -/

/-- R165, R166: with three distinct pins `FREE`, no denial, no rejection, no failed read and no other
agent's step inside, `QD_INIT` ends `OK` in `LIVE` with the count 0 and `last_a` the first read of A;
nothing else changes. -/
def Obligations.QdInitCompletes : Prop :=
  ∀ s : State, s.qd.phase = .unconstructed →
    [s.cfg.pinA, s.cfg.pinB, s.cfg.pinSw].Nodup →
    (∀ l : QdLine, s.owner[qdPin s.cfg l]? = some .free) →
    (∀ k, k < 3 → s.env.deniedAt k = false) → s.env.rejectedAt 0 = false →
    noLineFailure 1 s → quietInside 3 s →
    exec .qdInit s = .next
      { s with
        qd :=
          { phase := .live
            a := abMode s.cfg.abInputMode
            b := abMode s.cfg.abInputMode
            sw := .inputPullUp
            count := some 0
            lastA := some (s.env.inputAt 0)
            registered := true
            pending := 0 }
        owner := ((s.owner.set s.cfg.pinA .qd).set s.cfg.pinB .qd).set s.cfg.pinSw .qd
        status := some .ok
        info := none
        env :=
          { s.env with
            denied := s.env.denied.drop 3
            rejected := s.env.rejected.drop 1
            fails := s.env.fails.drop 1
            input := s.env.input.drop 1
            inside := s.env.inside.drop 3 } }

/-- R167: a `QD_INIT` that ends `ResourceUnavailable` leaves no line held and no pin taken and stays
`UNCONSTRUCTED`; its info is the pin of one of the three lines. -/
def Obligations.QdInitNoPartialConstruction : Prop :=
  ∀ s t : State, s.qd.phase = .unconstructed → (∀ l, qdLine s.qd l = .unconfigured) →
    exec .qdInit s = .next t → t.status = some .resourceUnavailable →
    t.qd = s.qd ∧ t.owner = s.owner ∧ (∃ l, t.info = some (qdPin s.cfg l)) ∧
      t.sr = s.sr ∧ t.chip = s.chip ∧ t.fault = s.fault ∧ t.result = s.result

/-- R168: on a rejected registration `QD_INIT` ends `NotificationSetupFailed` with all three lines
released, the count without a value, and the decoder still `UNCONSTRUCTED`. -/
def Obligations.QdInitRejectedReleasesAll : Prop :=
  ∀ s : State, s.qd.phase = .unconstructed → s.qd.registered = false →
    [s.cfg.pinA, s.cfg.pinB, s.cfg.pinSw].Nodup →
    (∀ l : QdLine, s.owner[qdPin s.cfg l]? = some .free) →
    (∀ k, k < 3 → s.env.deniedAt k = false) → s.env.rejectedAt 0 = true →
    ∃ t, exec .qdInit s = .next t ∧ t.status = some .notificationSetupFailed ∧
      t.qd.phase = .unconstructed ∧ (∀ l, qdLine t.qd l = .unconfigured) ∧ t.qd.count = none ∧
      t.qd.registered = false ∧ t.qd.pending = 0 ∧ t.qd.lastA = s.qd.lastA ∧ t.owner = s.owner ∧
      t.sr = s.sr ∧ t.chip = s.chip ∧ t.fault = s.fault ∧ t.result = s.result

/-- R165, exceptions: when the first read of A fails, `QD_INIT` ends `PlatformLineFailure` in `FAILED`:
`fault` is set, `last_a` keeps what it was, and the count, the lines and the registration stay. -/
def Obligations.QdInitFirstReadFails : Prop :=
  ∀ s : State, s.qd.phase = .unconstructed → [s.cfg.pinA, s.cfg.pinB, s.cfg.pinSw].Nodup →
    (∀ l : QdLine, s.owner[qdPin s.cfg l]? = some .free) →
    (∀ k, k < 3 → s.env.deniedAt k = false) → s.env.rejectedAt 0 = false →
    s.env.failsAt 0 = true →
    ∃ t, exec .qdInit s = .next t ∧ t.status = some .platformLineFailure ∧ t.fault = true ∧
      t.qd.phase = .failed ∧ t.qd.lastA = s.qd.lastA ∧ t.qd.count = some 0 ∧
      t.qd.registered = true ∧ (∀ l, qdLine t.qd l = qdMode s.cfg l) ∧
      (∀ l, t.owner[qdPin s.cfg l]? = some .qd) ∧ t.sr = s.sr ∧ t.chip = s.chip ∧
      t.result = s.result

/-- R170: from `LIVE` with no line failure and no other agent's step inside, `QD_POLL` ends `OK`: without
a transition of A only `last_a` is written (with the value it has); with one the count moves by the
wrapping unit step of its direction and `last_a` is the new sample. Nothing else changes. -/
def Obligations.QdPollCompletes : Prop :=
  ∀ (s : State) (a : Bool) (c : Int), qdLiveAt a c s → noLineFailure 2 s → quietInside 2 s →
    exec .qdPoll s = .next
      { s with
        qd :=
          { s.qd with
            count :=
              if s.env.inputAt 0 = a then some c
              else some (wrapW s.cfg.countWidth (c + pollDelta (s.env.inputAt 0) (s.env.inputAt 1)))
            lastA := some (s.env.inputAt 0) }
        status := some .ok
        info := none
        env :=
          { s.env with
            fails := s.env.fails.drop 2
            input := s.env.input.drop 2
            inside := if s.env.inputAt 0 = a then s.env.inside else s.env.inside.drop 2 } }

/-- R171: the change of the count by a poll is the row of the direction table. -/
def Obligations.QdPollFollowsDirectionTable : Prop :=
  ∀ (s : State) (a : Bool) (c : Int), qdLiveAt a c s → 2 ≤ s.cfg.countWidth →
    inRangeW s.cfg.countWidth c → noLineFailure 2 s → quietInside 2 s →
    ∃ t, exec .qdPoll s = .next t ∧
      t.qd.count = some (wrapW s.cfg.countWidth
        (c + directionTable a (s.env.inputAt 0) (s.env.inputAt 1)))

/-- R174: the add of a poll is `wrap_W(qd.count + delta)`; with W = 32 a clockwise step from 2147483647
gives -2147483648, and a counter-clockwise step from -2147483648 gives 2147483647. -/
def Obligations.QdPollWraps : Prop :=
  ∀ (s : State) (a : Bool) (c : Int), qdLiveAt a c s → noLineFailure 2 s → quietInside 2 s →
    s.env.inputAt 0 ≠ a →
    ∃ t, exec .qdPoll s = .next t ∧
      t.qd.count = some (wrapW s.cfg.countWidth (c + directionTable a (s.env.inputAt 0) (s.env.inputAt 1))) ∧
      (s.cfg.countWidth = 32 → c = 2147483647 → s.env.inputAt 1 ≠ s.env.inputAt 0 →
        t.qd.count = some (-2147483648)) ∧
      (s.cfg.countWidth = 32 → c = -2147483648 → s.env.inputAt 1 = s.env.inputAt 0 →
        t.qd.count = some 2147483647)

/-- R175: a poll whose read of A or of B fails ends `PlatformLineFailure` in `FAILED`; the count and
`last_a` keep their values, and nothing else changes but `fault` and the draws taken. -/
def Obligations.QdPollFailedRead : Prop :=
  ∀ (s : State) (a : Bool) (c : Int), qdLiveAt a c s →
    (s.env.failsAt 0 = true →
      ∃ t, exec .qdPoll s = .next t ∧
        onlyStatus .platformLineFailure
          { s with
            qd := { s.qd with phase := .failed }
            fault := true
            env := { s.env with fails := s.env.fails.drop 1 } } t) ∧
    (s.env.failsAt 0 = false → s.env.failsAt 1 = true →
      ∃ t, exec .qdPoll s = .next t ∧
        onlyStatus .platformLineFailure
          { s with
            qd := { s.qd with phase := .failed }
            fault := true
            env := { s.env with fails := s.env.fails.drop 2, input := s.env.input.drop 1 } } t)

/-- 20_memory R81: a delivery that races a poll whose count moves by `d` ends the count at `wrap_W(d)` if
it falls before the add, and at 0 if it falls after. -/
def Obligations.ResetRacesPoll : Prop :=
  ∀ (s : State) (a : Bool) (c : Int), qdLiveAt a c s → noLineFailure 2 s → s.env.inputAt 0 ≠ a →
    s.qd.registered = true → 0 < s.qd.pending →
    (s.env.insideAt 0 = [.resetEdge] → s.env.insideAt 1 = [] →
      ∃ t, exec .qdPoll s = .next t ∧ t.qd.pending = s.qd.pending - 1 ∧
        t.qd.count = some (wrapW s.cfg.countWidth
          (pollDelta (s.env.inputAt 0) (s.env.inputAt 1)))) ∧
    (s.env.insideAt 0 = [] → s.env.insideAt 1 = [.resetEdge] →
      ∃ t, exec .qdPoll s = .next t ∧ t.qd.pending = s.qd.pending - 1 ∧ t.qd.count = some 0)

/-- R191, R192: from `last_a` = 0 and with no reset, four polls that sample (1,0), (1,1), (0,1), (0,0)
change the count by +1, 0, +1, 0, net +2, and four that sample the mirrored (0,1), (1,1), (1,0), (0,0)
change it by 0, -1, 0, -1, net -2. -/
def Obligations.QuadratureCycleMovesCountByTwo : Prop :=
  ∀ (s : State) (c : Int), qdLiveAt false c s → 2 ≤ s.cfg.countWidth →
    inRangeW s.cfg.countWidth c → noLineFailure 8 s → quietInside 8 s →
    ∃ t₁ t₂ t₃ t₄, exec .qdPoll s = .next t₁ ∧ exec .qdPoll t₁ = .next t₂ ∧
      exec .qdPoll t₂ = .next t₃ ∧ exec .qdPoll t₃ = .next t₄ ∧
      ((List.range 8).map s.env.inputAt = [true, false, true, true, false, true, false, false] →
        t₁.qd.count = some (wrapW s.cfg.countWidth (c + 1)) ∧ t₂.qd.count = t₁.qd.count ∧
          t₃.qd.count = some (wrapW s.cfg.countWidth (c + 2)) ∧ t₄.qd.count = t₃.qd.count) ∧
      ((List.range 8).map s.env.inputAt = [false, true, true, true, true, false, false, false] →
        t₁.qd.count = some c ∧ t₂.qd.count = some (wrapW s.cfg.countWidth (c - 1)) ∧
          t₃.qd.count = t₂.qd.count ∧ t₄.qd.count = some (wrapW s.cfg.countWidth (c - 2)))

/-- R177: after construction, `QD_READ_COUNT` puts the count into `result` and ends `OK`; nothing else
changes where no other agent steps inside. A delivery inside it falls before the load, which then reads 0,
or after it (R177, corner case; 20_memory R76); the two points are log entry 7. -/
def Obligations.QdReadCountCompletes : Prop :=
  ∀ (s : State) (c : Int), s.qd.phase ≠ .unconstructed → s.qd.count = some c →
    (quietInside 2 s →
      exec .qdReadCount s = .next
        { s with
          result := some c
          status := some .ok
          info := none
          env := { s.env with inside := s.env.inside.drop 2 } }) ∧
    (s.qd.registered = true → 0 < s.qd.pending →
      s.env.insideAt 0 = [.resetEdge] → s.env.insideAt 1 = [] →
      exec .qdReadCount s = .next
        { s with
          qd := { s.qd with count := some 0, pending := s.qd.pending - 1 }
          result := some 0
          status := some .ok
          info := none
          env := { s.env with inside := s.env.inside.drop 2 } }) ∧
    (s.qd.registered = true → 0 < s.qd.pending →
      s.env.insideAt 0 = [] → s.env.insideAt 1 = [.resetEdge] →
      exec .qdReadCount s = .next
        { s with
          qd := { s.qd with count := some 0, pending := s.qd.pending - 1 }
          result := some c
          status := some .ok
          info := none
          env := { s.env with inside := s.env.inside.drop 2 } })

/-- R178: after construction, with no other agent's step inside, `QD_RESET` sets the count to 0 and ends
`OK`; `last_a`, `pending` and everything else stay. -/
def Obligations.QdResetCompletes : Prop :=
  ∀ s : State, s.qd.phase ≠ .unconstructed → quietInside 2 s →
    exec .qdReset s = .next
      { s with
        qd := { s.qd with count := some 0 }
        status := some .ok
        info := none
        env := { s.env with inside := s.env.inside.drop 2 } }

/-- R195, R189, R186: a delivery that is enabled takes one pending edge and zeroes the count, and touches
nothing else; after a `QD_RESET`, whatever other agents do inside it, the count is 0 and `last_a` is as
before. A delivery that is not enabled changes nothing: that the schedule may name one is the model's choice
(log entry 6). -/
def Obligations.ResetZeroesCountOnly : Prop :=
  ∀ s : State,
    (s.qd.registered = true → 0 < s.qd.pending →
      asyncStep .resetEdge s =
        { s with qd := { s.qd with count := some 0, pending := s.qd.pending - 1 } }) ∧
    (¬ (s.qd.registered = true ∧ 0 < s.qd.pending) → asyncStep .resetEdge s = s) ∧
    (s.qd.phase ≠ .unconstructed →
      ∃ t, exec .qdReset s = .next t ∧ t.qd.count = some 0 ∧ t.qd.lastA = s.qd.lastA)

/-- R179: `QD_RELEASE` of a decoder that holds its lines drops the registration and every pending edge,
frees the three pins, keeps the count, and ends `OK` in `RELEASED`; nothing else changes. -/
def Obligations.QdReleaseCompletes : Prop :=
  ∀ s : State, qdHolds s → qdLinesHeld s.qd = true →
    exec .qdRelease s = .next
      { s with
        qd :=
          { s.qd with
            phase := .released
            a := .unconfigured
            b := .unconfigured
            sw := .unconfigured
            registered := false
            pending := 0 }
        owner := ((s.owner.set s.cfg.pinA .free).set s.cfg.pinB .free).set s.cfg.pinSw .free
        status := some .ok
        info := none }

/-- R180: after `QD_RELEASE`, polls and a second construction end with `LifecycleError`, the retained
count can still be read and reset, and a second release does nothing. -/
def Obligations.AfterReleaseCountRemains : Prop :=
  ∀ (s : State) (c : Int), s.qd.phase = .released → s.qd.count = some c →
    (∃ t, exec .qdPoll s = .next t ∧ onlyStatus .lifecycleError s t) ∧
      (∃ t, exec .qdInit s = .next t ∧ onlyStatus .lifecycleError s t) ∧
      (∃ t, exec .qdRelease s = .next t ∧ onlyStatus .ok s t) ∧
      (quietInside 2 s → ∃ t, exec .qdReadCount s = .next t ∧ t.status = some .ok ∧ t.result = some c) ∧
      ∃ t, exec .qdReset s = .next t ∧ t.status = some .ok ∧ t.qd.count = some 0

/-- R185: the switch's step: its level is written; a falling edge while registered adds one pending edge,
or is coalesced with one already pending; nothing else changes. -/
def Obligations.SwitchEdgeCountsFallingEdges : Prop :=
  ∀ (s : State) (v coalesced : Bool),
    asyncStep (.swEdge v coalesced) s =
      { s with
        qd :=
          { s.qd with
            pending :=
              if s.qd.registered = true ∧ s.env.sw = true ∧ v = false ∧
                  ¬ (coalesced = true ∧ 0 < s.qd.pending) then s.qd.pending + 1
              else s.qd.pending }
        env := { s.env with sw := v } }

/-- R196: once constructed, and with no other agent's step inside a command, a step leaves the count, sets
it to 0 (a delivery, which R186 enables, or a `QD_RESET`), or moves it by a wrapping unit step of a poll that
saw A move. -/
def Obligations.CountChangesOnlyAsNamed : Prop :=
  ∀ s t : State, s.qd.phase ≠ .unconstructed → quietInside 2 s → step s = .next t →
    t.qd.count = s.qd.count ∨
    (t.qd.count = some 0 ∧
      (s.env.turnAt 0 = .agent .resetEdge ∧ s.qd.registered = true ∧ 0 < s.qd.pending ∨
        s.env.turnAt 0 = .host ∧ (s.host.words.head?.map decode) = some (.command .qdReset))) ∨
    (∃ c d, s.qd.count = some c ∧ (d = 1 ∨ d = -1) ∧
      t.qd.count = some (wrapW s.cfg.countWidth (c + d)) ∧
      s.env.turnAt 0 = .host ∧ (s.host.words.head?.map decode) = some (.command .qdPoll) ∧
      t.qd.lastA ≠ s.qd.lastA)

/-! ## Errors and agents (60_exceptions) -/

/-- R216: outside the states it is allowed in, a command ends with `LifecycleError` and changes nothing
but `status` (R214); in them it ends `OK` or with one of the statuses its row names. -/
def Obligations.CommandsEndAsTheirRowSays : Prop :=
  ∀ (i : Instr) (s : State),
    (¬ allowedIn s i → ∃ t, exec i s = .next t ∧ onlyStatus .lifecycleError s t) ∧
      (∀ t, allowedIn s i → exec i s = .next t →
        t.status = some .ok ∨ ∃ st ∈ otherStatuses i, t.status = some st)

/-- 10_state R47: a command that would read an element without a value, by a path no run reaches, faults
and picks no value. Log entry 11 (DEDUCED): that the fault comes at the command's start, also where the
command's own path would not come to read that element, and the order in which the elements are looked at,
are the model's choice. -/
def Obligations.ReadWithoutValueFaults : Prop :=
  ∀ s : State,
    (s.sr.phase = .ready → srLinesDriven s.sr = false →
      (∀ b, exec (.srSerialize b) s = .fault (.noValue .srLines)) ∧
        exec .srLatch s = .fault (.noValue .srLines)) ∧
    (srHolds s → srLinesDriven s.sr = false → exec .srTeardown s = .fault (.noValue .srLines)) ∧
    (s.qd.phase = .live → qdLinesHeld s.qd = false → exec .qdPoll s = .fault (.noValue .qdLines)) ∧
    (s.qd.phase = .live → qdLinesHeld s.qd = true → s.qd.lastA = none →
      exec .qdPoll s = .fault (.noValue .lastA)) ∧
    (s.qd.phase = .live → qdLinesHeld s.qd = true → s.qd.lastA ≠ none → s.qd.count = none →
      exec .qdPoll s = .fault (.noValue .count)) ∧
    (s.qd.phase ≠ .unconstructed → s.qd.count = none →
      exec .qdReadCount s = .fault (.noValue .count))

/-- 00_scope R2: an SR command leaves the decoder, the count's `result` and the switch alone; a QD command
leaves the driver and the chip alone. -/
def Obligations.ComponentsIndependent : Prop :=
  ∀ (i : Instr) (s t : State), exec i s = .next t →
    (isSrCommand i = true →
      t.qd = s.qd ∧ t.result = s.result ∧ t.env.sw = s.env.sw ∧ t.env.inside = s.env.inside ∧
        t.env.input = s.env.input) ∧
    (isSrCommand i = false →
      t.sr = s.sr ∧ t.chip = s.chip ∧ t.env.level = s.env.level ∧ t.env.chipBit = s.env.chipBit)

/-! ## The whole machine -/

/-- 10_state R43: no step writes the configuration. -/
def Obligations.ConfigurationFixed : Prop :=
  ∀ s t : State, step s = .next t → t.cfg = s.cfg

/-- 10_state R41: `fault` after a step that makes `n` line accesses is `fault` before it, or set by one of
those accesses that failed; no step clears it. -/
def Obligations.FaultSetOnlyByLostLine : Prop :=
  ∀ s t : State, step s = .next t →
    ∃ n, t.env.fails = s.env.fails.drop n ∧
      (t.fault = true ↔ s.fault = true ∨ ∃ k, k < n ∧ s.env.failsAt k = true)

/-- 10_state R26: the trace only grows. -/
def Obligations.TraceOnlyGrows : Prop :=
  ∀ s t : State, step s = .next t → ∃ es, t.sr.trace = s.sr.trace ++ es

/-- 10_state R44: from a state of the invariant, no step gives a pin to a holder outside the block or
takes one from it, and the map keeps its pins. -/
def Obligations.OutsideHoldersKeepTheirPins : Prop :=
  ∀ s t : State, Inv s → step s = .next t →
    t.owner.length = s.owner.length ∧
      ∀ p : Nat, t.owner[p]? = some .other ↔ s.owner[p]? = some .other

/-- The invariant holds at power-on for every launch that maps each pin to `FREE` or `OTHER` (10_state
R45, R44), and so at `State.reset`. -/
def Obligations.InvAtPowerOn : Prop :=
  (∀ (cfg : Settings) (owner0 : List Owner) (words : List Word) (env : Env),
      legalOwner0 owner0 = true → Inv (State.powerOn cfg owner0 words env)) ∧
    Inv State.reset

/-- Every step keeps the invariant. -/
def Obligations.InvKeptByStep : Prop :=
  ∀ s t : State, Inv s → step s = .next t → Inv t

/-- From a state of the invariant a legal machine with one host and a word left takes a step, so that none
of the faults of `ReadWithoutValueFaults` is met: with that statement, no command reads an element that has
no value (10_state R47; log entry 11). -/
def Obligations.LegalMachineTakesStep : Prop :=
  ∀ s : State, Inv s → launchLegal s = true → s.host.second = false → s.host.words ≠ [] →
    ∃ t, step s = .next t

/-- 70_reset_and_hazards R256, R257, R265: a host that shuts down between commands comes to a good end: at
once where it owes no teardown, and else by the teardown it then issues, if no line was or is lost. The end
observation shows no output after the release (R119), and after that teardown it shows chip 0 at 0 just
before the first release (R146), which with one chip is every output. Which bits the observation shows is
log entry 22. -/
def Obligations.ShutdownComesToGoodEnd : Prop :=
  ∀ s : State, Inv s → launchLegal s = true → s.host.second = false → s.fault = false →
    noLineFailure 29 s → s.env.turnAt 0 = .host →
    (owesTeardown s = false →
      goodEnd (hostShutdown s) ∧ (observe (hostShutdown s)).out = unknownBits s.cfg.chainDepth) ∧
    (owesTeardown s = true →
      ∃ t outs, step (hostShutdown s) = .next t ∧ goodEnd t ∧
        (observe t).out = unknownBits s.cfg.chainDepth ∧ (observe t).outAtRelease = some outs ∧
        outs.take 8 = List.replicate 8 (some false) ∧
        (s.cfg.chainDepth = 1 → outs = List.replicate 8 (some false)))
end

