-- ==== Sys2Proof/Laws/Draws.lean ====
section
/-! SUPPORT. What taking answers from a tape does to the answers still to come. -/

namespace Sys2Proof.Machine

open Sys2Proof.Config

variable {α : Type}

@[simp] theorem Tape.nth_drop (free : Nat → α) (t : Tape α) (n k : Nat) :
    (t.drop n).nth free k = t.nth free (n + k) := by
  have h : t.drawn + (n - t.script.length) + (k - (t.script.drop n).length) =
      t.drawn + (n + k - t.script.length) ∨ n + k < t.script.length := by
    rw [List.length_drop]; omega
  simp only [Tape.nth, Tape.drop, List.getElem?_drop]
  rcases h with h | h
  · rw [h]
  · simp [List.getElem?_eq_getElem h]

@[simp] theorem Tape.drop_drop (t : Tape α) (m n : Nat) : (t.drop m).drop n = t.drop (m + n) := by
  simp only [Tape.drop, List.drop_drop, List.length_drop, Tape.mk.injEq, true_and]
  omega

@[simp] theorem Tape.drop_zero (t : Tape α) : t.drop 0 = t := by
  simp [Tape.drop]

/-- Taking one answer from a tape that an answer was put before gives the tape back. -/
@[simp] theorem Tape.drop_one_cons (x : α) (xs : List α) (n : Nat) :
    (Tape.mk (x :: xs) n).drop 1 = ⟨xs, n⟩ := by
  simp [Tape.drop]

@[simp] theorem Tape.nth_zero_cons (free : Nat → α) (x : α) (xs : List α) (n : Nat) :
    (Tape.mk (x :: xs) n).nth free 0 = x := rfl

/-- A stretch of chip bits has as many bits as are drawn. -/
@[simp] theorem Env.chipBits_length (e : Env) (k n : Nat) : (e.chipBits k n).length = n := by
  simp [Env.chipBits]

end Sys2Proof.Machine
end

