-- ==== Sys2Proof/Laws/Encoding.lean ====
section
/-! SUPPORT. The fields of a command word, and which words select a row of the opcode map. -/

namespace Sys2Proof

theorem getLsbD_pair (a b : Byte) (i : Nat) :
    (a ++ b : Word).getLsbD i = if i < 8 then b.getLsbD i else a.getLsbD (i - 8) :=
  BitVec.getLsbD_append

@[simp] theorem opField_append (a b : Byte) : opField (a ++ b) = a := by
  ext i hi
  simp [opField, getLsbD_pair, BitVec.getLsbD_eq_getElem hi]

@[simp] theorem imm8Field_append (a b : Byte) : imm8Field (a ++ b) = b := by
  ext i hi
  simp [imm8Field, getLsbD_pair, hi]

/-- A word is its two fields (30_encoding R91). -/
theorem word_eq_fields (w : Word) : w = opField w ++ imm8Field w := by
  apply BitVec.eq_of_getLsbD_eq
  intro i hi
  rw [getLsbD_pair]
  split
  · simp [imm8Field, *]
  · have : i - 8 < 8 := by omega
    simp [opField, this, show 8 + (i - 8) = i by omega]

theorem pair_inj (a b c d : Byte) : (a ++ b : Word) = c ++ d ↔ a = c ∧ b = d := by
  constructor
  · intro h
    exact ⟨by rw [← opField_append a b, h, opField_append],
      by rw [← imm8Field_append a b, h, imm8Field_append]⟩
  · rintro ⟨rfl, rfl⟩; rfl

/-- A format-N row is selected by its one word. -/
theorem selects_formatN (w : Word) (c : Byte) :
    w &&& 0xFFFF#16 = (c ++ 0x00#8 : Word) ↔ opField w = c ∧ imm8Field w = 0x00#8 := by
  rw [show (0xFFFF#16 : Word) = BitVec.allOnes 16 by decide, BitVec.and_allOnes]
  conv_lhs => rw [word_eq_fields w]
  exact pair_inj _ _ _ _

/-- A format-B row is selected by its `op`. -/
theorem selects_formatB (w : Word) (c : Byte) :
    w &&& 0xFF00#16 = (c ++ 0x00#8 : Word) ↔ opField w = c := by
  conv_lhs => rw [word_eq_fields w, show (0xFF00#16 : Word) = BitVec.allOnes 8 ++ 0#8 by decide]
  have := @BitVec.and_append 8 8 (opField w) (BitVec.allOnes 8) (imm8Field w) 0#8
  rw [show ((opField w ++ imm8Field w : Word) &&& (BitVec.allOnes 8 ++ 0#8 : Word)) = _ from this]
  simp only [BitVec.and_allOnes, BitVec.and_zero]
  rw [pair_inj]; simp

/-- The words that select a command's row. -/
theorem opcodeRow_selects (w : Word) (i : Instr) :
    (opcodeRow i).selects w ↔
      opField w = opField (encode i) ∧ ((∃ b, i = .srSerialize b) ∨ imm8Field w = 0x00#8) := by
  by_cases h : ∃ b, i = .srSerialize b
  · obtain ⟨b, rfl⟩ := h
    have e : (opcodeRow (.srSerialize b)).selects w ↔ w &&& 0xFF00#16 = (0x11#8 ++ 0x00#8 : Word) :=
      Iff.rfl
    rw [e, selects_formatB, encode, opField_append]
    exact ⟨fun h => ⟨h, .inl ⟨b, rfl⟩⟩, fun h => h.1⟩
  · have e : (opcodeRow i).selects w ↔ w &&& 0xFFFF#16 = (opField (encode i) ++ 0x00#8 : Word) := by
      cases i with
      | srSerialize b => exact absurd ⟨b, rfl⟩ h
      | _ => rw [encode, opField_append]; exact Iff.rfl
    rw [e, selects_formatN]
    exact ⟨fun k => ⟨k.1, .inr k.2⟩, fun k => ⟨k.1, k.2.resolve_left h⟩⟩

end Sys2Proof
end

