-- ==== Sys2Proof/Laws/State.lean ====
section
/-! SUPPORT. One lemma per field for each named update of the state. -/

namespace Sys2Proof.Machine

open Sys2Proof.Config

/-! `endWith` -/

@[simp] theorem endWith_cfg (st : Status) (s : State) : (endWith st s).cfg = s.cfg := rfl
@[simp] theorem endWith_sr (st : Status) (s : State) : (endWith st s).sr = s.sr := rfl
@[simp] theorem endWith_chip (st : Status) (s : State) : (endWith st s).chip = s.chip := rfl
@[simp] theorem endWith_qd (st : Status) (s : State) : (endWith st s).qd = s.qd := rfl
@[simp] theorem endWith_owner (st : Status) (s : State) : (endWith st s).owner = s.owner := rfl
@[simp] theorem endWith_status (st : Status) (s : State) : (endWith st s).status = some st := rfl
@[simp] theorem endWith_info (st : Status) (s : State) : (endWith st s).info = none := rfl
@[simp] theorem endWith_result (st : Status) (s : State) : (endWith st s).result = s.result := rfl
@[simp] theorem endWith_fault (st : Status) (s : State) : (endWith st s).fault = s.fault := rfl
@[simp] theorem endWith_writeLost (st : Status) (s : State) :
    (endWith st s).writeLost = s.writeLost := rfl
@[simp] theorem endWith_host (st : Status) (s : State) : (endWith st s).host = s.host := rfl
@[simp] theorem endWith_env (st : Status) (s : State) : (endWith st s).env = s.env := rfl

/-! `raiseUnavailable` -/

@[simp] theorem raiseUnavailable_cfg (p : PinId) (s : State) :
    (raiseUnavailable p s).cfg = s.cfg := rfl
@[simp] theorem raiseUnavailable_sr (p : PinId) (s : State) :
    (raiseUnavailable p s).sr = s.sr := rfl
@[simp] theorem raiseUnavailable_chip (p : PinId) (s : State) :
    (raiseUnavailable p s).chip = s.chip := rfl
@[simp] theorem raiseUnavailable_qd (p : PinId) (s : State) :
    (raiseUnavailable p s).qd = s.qd := rfl
@[simp] theorem raiseUnavailable_owner (p : PinId) (s : State) :
    (raiseUnavailable p s).owner = s.owner := rfl
@[simp] theorem raiseUnavailable_status (p : PinId) (s : State) :
    (raiseUnavailable p s).status = some .resourceUnavailable := rfl
@[simp] theorem raiseUnavailable_info (p : PinId) (s : State) :
    (raiseUnavailable p s).info = some p := rfl
@[simp] theorem raiseUnavailable_result (p : PinId) (s : State) :
    (raiseUnavailable p s).result = s.result := rfl
@[simp] theorem raiseUnavailable_fault (p : PinId) (s : State) :
    (raiseUnavailable p s).fault = s.fault := rfl
@[simp] theorem raiseUnavailable_writeLost (p : PinId) (s : State) :
    (raiseUnavailable p s).writeLost = s.writeLost := rfl
@[simp] theorem raiseUnavailable_host (p : PinId) (s : State) :
    (raiseUnavailable p s).host = s.host := rfl
@[simp] theorem raiseUnavailable_env (p : PinId) (s : State) :
    (raiseUnavailable p s).env = s.env := rfl

/-! `freshChip` -/

@[simp] theorem freshChip_cfg (s : State) : (freshChip s).cfg = s.cfg := rfl
@[simp] theorem freshChip_sr (s : State) : (freshChip s).sr = s.sr := rfl
@[simp] theorem freshChip_chip (s : State) :
    (freshChip s).chip = ⟨s.env.chipBits 0 (8 * s.cfg.chainDepth), s.env.chipBits (8 * s.cfg.chainDepth) (8 * s.cfg.chainDepth)⟩ := rfl
@[simp] theorem freshChip_qd (s : State) : (freshChip s).qd = s.qd := rfl
@[simp] theorem freshChip_owner (s : State) : (freshChip s).owner = s.owner := rfl
@[simp] theorem freshChip_status (s : State) : (freshChip s).status = s.status := rfl
@[simp] theorem freshChip_info (s : State) : (freshChip s).info = s.info := rfl
@[simp] theorem freshChip_result (s : State) : (freshChip s).result = s.result := rfl
@[simp] theorem freshChip_fault (s : State) : (freshChip s).fault = s.fault := rfl
@[simp] theorem freshChip_writeLost (s : State) : (freshChip s).writeLost = s.writeLost := rfl
@[simp] theorem freshChip_host (s : State) : (freshChip s).host = s.host := rfl
@[simp] theorem freshChip_env (s : State) :
    (freshChip s).env = { s.env with chipBit := s.env.chipBit.drop (16 * s.cfg.chainDepth) } := rfl

/-! `takeFails` -/

@[simp] theorem takeFails_cfg (s : State) : (takeFails s).cfg = s.cfg := rfl
@[simp] theorem takeFails_sr (s : State) : (takeFails s).sr = s.sr := rfl
@[simp] theorem takeFails_chip (s : State) : (takeFails s).chip = s.chip := rfl
@[simp] theorem takeFails_qd (s : State) : (takeFails s).qd = s.qd := rfl
@[simp] theorem takeFails_owner (s : State) : (takeFails s).owner = s.owner := rfl
@[simp] theorem takeFails_status (s : State) : (takeFails s).status = s.status := rfl
@[simp] theorem takeFails_info (s : State) : (takeFails s).info = s.info := rfl
@[simp] theorem takeFails_result (s : State) : (takeFails s).result = s.result := rfl
@[simp] theorem takeFails_fault (s : State) : (takeFails s).fault = s.fault := rfl
@[simp] theorem takeFails_writeLost (s : State) : (takeFails s).writeLost = s.writeLost := rfl
@[simp] theorem takeFails_host (s : State) : (takeFails s).host = s.host := rfl
@[simp] theorem takeFails_env (s : State) :
    (takeFails s).env = { s.env with fails := s.env.fails.drop 1 } := rfl

/-! `writeLevel` -/

@[simp] theorem writeLevel_cfg (l : SrLine) (v : Bool) (s : State) :
    (writeLevel l v s).cfg = s.cfg := rfl
@[simp] theorem writeLevel_sr (l : SrLine) (v : Bool) (s : State) :
    (writeLevel l v s).sr = { setSrLevel l v s.sr with trace := s.sr.trace ++ [.level l v] } := rfl
@[simp] theorem writeLevel_chip (l : SrLine) (v : Bool) (s : State) :
    (writeLevel l v s).chip = chipEvent .rising s.cfg.chainDepth s.sr.data.level l (srLine s.sr l).level v s.chip := rfl
@[simp] theorem writeLevel_qd (l : SrLine) (v : Bool) (s : State) :
    (writeLevel l v s).qd = s.qd := rfl
@[simp] theorem writeLevel_owner (l : SrLine) (v : Bool) (s : State) :
    (writeLevel l v s).owner = s.owner := rfl
@[simp] theorem writeLevel_status (l : SrLine) (v : Bool) (s : State) :
    (writeLevel l v s).status = s.status := rfl
@[simp] theorem writeLevel_info (l : SrLine) (v : Bool) (s : State) :
    (writeLevel l v s).info = s.info := rfl
@[simp] theorem writeLevel_result (l : SrLine) (v : Bool) (s : State) :
    (writeLevel l v s).result = s.result := rfl
@[simp] theorem writeLevel_fault (l : SrLine) (v : Bool) (s : State) :
    (writeLevel l v s).fault = s.fault := rfl
@[simp] theorem writeLevel_writeLost (l : SrLine) (v : Bool) (s : State) :
    (writeLevel l v s).writeLost = s.writeLost := rfl
@[simp] theorem writeLevel_host (l : SrLine) (v : Bool) (s : State) :
    (writeLevel l v s).host = s.host := rfl
@[simp] theorem writeLevel_env (l : SrLine) (v : Bool) (s : State) :
    (writeLevel l v s).env = s.env := rfl

/-! `loseLevel` -/

@[simp] theorem loseLevel_cfg (l : SrLine) (s : State) : (loseLevel l s).cfg = s.cfg := rfl
@[simp] theorem loseLevel_sr (l : SrLine) (s : State) :
    (loseLevel l s).sr = setSrLevel l (s.env.levelAt 0) s.sr := rfl
@[simp] theorem loseLevel_chip (l : SrLine) (s : State) :
    (loseLevel l s).chip = ⟨s.env.chipBits 0 (8 * s.cfg.chainDepth), s.env.chipBits (8 * s.cfg.chainDepth) (8 * s.cfg.chainDepth)⟩ := rfl
@[simp] theorem loseLevel_qd (l : SrLine) (s : State) : (loseLevel l s).qd = s.qd := rfl
@[simp] theorem loseLevel_owner (l : SrLine) (s : State) : (loseLevel l s).owner = s.owner := rfl
@[simp] theorem loseLevel_status (l : SrLine) (s : State) : (loseLevel l s).status = s.status := rfl
@[simp] theorem loseLevel_info (l : SrLine) (s : State) : (loseLevel l s).info = s.info := rfl
@[simp] theorem loseLevel_result (l : SrLine) (s : State) : (loseLevel l s).result = s.result := rfl
@[simp] theorem loseLevel_fault (l : SrLine) (s : State) : (loseLevel l s).fault = true := rfl
@[simp] theorem loseLevel_writeLost (l : SrLine) (s : State) :
    (loseLevel l s).writeLost = true := rfl
@[simp] theorem loseLevel_host (l : SrLine) (s : State) : (loseLevel l s).host = s.host := rfl
@[simp] theorem loseLevel_env (l : SrLine) (s : State) :
    (loseLevel l s).env = { s.env with level := s.env.level.drop 1, chipBit := s.env.chipBit.drop (16 * s.cfg.chainDepth) } := rfl

/-! `switchEdge` -/

@[simp] theorem switchEdge_cfg (v k : Bool) (s : State) : (switchEdge v k s).cfg = s.cfg := rfl
@[simp] theorem switchEdge_sr (v k : Bool) (s : State) : (switchEdge v k s).sr = s.sr := rfl
@[simp] theorem switchEdge_chip (v k : Bool) (s : State) : (switchEdge v k s).chip = s.chip := rfl
@[simp] theorem switchEdge_owner (v k : Bool) (s : State) :
    (switchEdge v k s).owner = s.owner := rfl
@[simp] theorem switchEdge_status (v k : Bool) (s : State) :
    (switchEdge v k s).status = s.status := rfl
@[simp] theorem switchEdge_info (v k : Bool) (s : State) : (switchEdge v k s).info = s.info := rfl
@[simp] theorem switchEdge_result (v k : Bool) (s : State) :
    (switchEdge v k s).result = s.result := rfl
@[simp] theorem switchEdge_fault (v k : Bool) (s : State) :
    (switchEdge v k s).fault = s.fault := rfl
@[simp] theorem switchEdge_writeLost (v k : Bool) (s : State) :
    (switchEdge v k s).writeLost = s.writeLost := rfl
@[simp] theorem switchEdge_host (v k : Bool) (s : State) : (switchEdge v k s).host = s.host := rfl
@[simp] theorem switchEdge_env (v k : Bool) (s : State) :
    (switchEdge v k s).env = { s.env with sw := v } := rfl

/-! `countStore` -/

@[simp] theorem countStore_cfg (n : Int) (s : State) : (countStore n s).cfg = s.cfg := rfl
@[simp] theorem countStore_sr (n : Int) (s : State) : (countStore n s).sr = s.sr := rfl
@[simp] theorem countStore_chip (n : Int) (s : State) : (countStore n s).chip = s.chip := rfl
@[simp] theorem countStore_qd (n : Int) (s : State) :
    (countStore n s).qd = { s.qd with count := some n } := rfl
@[simp] theorem countStore_owner (n : Int) (s : State) : (countStore n s).owner = s.owner := rfl
@[simp] theorem countStore_status (n : Int) (s : State) : (countStore n s).status = s.status := rfl
@[simp] theorem countStore_info (n : Int) (s : State) : (countStore n s).info = s.info := rfl
@[simp] theorem countStore_result (n : Int) (s : State) : (countStore n s).result = s.result := rfl
@[simp] theorem countStore_fault (n : Int) (s : State) : (countStore n s).fault = s.fault := rfl
@[simp] theorem countStore_writeLost (n : Int) (s : State) :
    (countStore n s).writeLost = s.writeLost := rfl
@[simp] theorem countStore_host (n : Int) (s : State) : (countStore n s).host = s.host := rfl
@[simp] theorem countStore_env (n : Int) (s : State) : (countStore n s).env = s.env := rfl

/-! `resetEdge` -/

@[simp] theorem resetEdge_cfg (s : State) : (resetEdge s).cfg = s.cfg := rfl
@[simp] theorem resetEdge_sr (s : State) : (resetEdge s).sr = s.sr := rfl
@[simp] theorem resetEdge_chip (s : State) : (resetEdge s).chip = s.chip := rfl
@[simp] theorem resetEdge_qd (s : State) :
    (resetEdge s).qd = { s.qd with count := some 0, pending := s.qd.pending - 1 } := rfl
@[simp] theorem resetEdge_owner (s : State) : (resetEdge s).owner = s.owner := rfl
@[simp] theorem resetEdge_status (s : State) : (resetEdge s).status = s.status := rfl
@[simp] theorem resetEdge_info (s : State) : (resetEdge s).info = s.info := rfl
@[simp] theorem resetEdge_result (s : State) : (resetEdge s).result = s.result := rfl
@[simp] theorem resetEdge_fault (s : State) : (resetEdge s).fault = s.fault := rfl
@[simp] theorem resetEdge_writeLost (s : State) : (resetEdge s).writeLost = s.writeLost := rfl
@[simp] theorem resetEdge_host (s : State) : (resetEdge s).host = s.host := rfl
@[simp] theorem resetEdge_env (s : State) : (resetEdge s).env = s.env := rfl

/-! `countAdd` -/

@[simp] theorem countAdd_cfg (d : Int) (s : State) : (countAdd d s).cfg = s.cfg := rfl
@[simp] theorem countAdd_sr (d : Int) (s : State) : (countAdd d s).sr = s.sr := rfl
@[simp] theorem countAdd_chip (d : Int) (s : State) : (countAdd d s).chip = s.chip := rfl
@[simp] theorem countAdd_qd (d : Int) (s : State) :
    (countAdd d s).qd = { s.qd with count := s.qd.count.map (fun c => wrapW s.cfg.countWidth (c + d)) } := rfl
@[simp] theorem countAdd_owner (d : Int) (s : State) : (countAdd d s).owner = s.owner := rfl
@[simp] theorem countAdd_status (d : Int) (s : State) : (countAdd d s).status = s.status := rfl
@[simp] theorem countAdd_info (d : Int) (s : State) : (countAdd d s).info = s.info := rfl
@[simp] theorem countAdd_result (d : Int) (s : State) : (countAdd d s).result = s.result := rfl
@[simp] theorem countAdd_fault (d : Int) (s : State) : (countAdd d s).fault = s.fault := rfl
@[simp] theorem countAdd_writeLost (d : Int) (s : State) :
    (countAdd d s).writeLost = s.writeLost := rfl
@[simp] theorem countAdd_host (d : Int) (s : State) : (countAdd d s).host = s.host := rfl
@[simp] theorem countAdd_env (d : Int) (s : State) : (countAdd d s).env = s.env := rfl

/-! `countLoad` -/

@[simp] theorem countLoad_cfg (s : State) : (countLoad s).cfg = s.cfg := rfl
@[simp] theorem countLoad_sr (s : State) : (countLoad s).sr = s.sr := rfl
@[simp] theorem countLoad_chip (s : State) : (countLoad s).chip = s.chip := rfl
@[simp] theorem countLoad_qd (s : State) : (countLoad s).qd = s.qd := rfl
@[simp] theorem countLoad_owner (s : State) : (countLoad s).owner = s.owner := rfl
@[simp] theorem countLoad_status (s : State) : (countLoad s).status = s.status := rfl
@[simp] theorem countLoad_info (s : State) : (countLoad s).info = s.info := rfl
@[simp] theorem countLoad_result (s : State) : (countLoad s).result = s.qd.count := rfl
@[simp] theorem countLoad_fault (s : State) : (countLoad s).fault = s.fault := rfl
@[simp] theorem countLoad_writeLost (s : State) : (countLoad s).writeLost = s.writeLost := rfl
@[simp] theorem countLoad_host (s : State) : (countLoad s).host = s.host := rfl
@[simp] theorem countLoad_env (s : State) : (countLoad s).env = s.env := rfl

/-! `srLost` -/

@[simp] theorem srLost_cfg (s : State) : (srLost s).cfg = s.cfg := rfl
@[simp] theorem srLost_sr (s : State) : (srLost s).sr = { s.sr with phase := .failed } := rfl
@[simp] theorem srLost_chip (s : State) : (srLost s).chip = s.chip := rfl
@[simp] theorem srLost_qd (s : State) : (srLost s).qd = s.qd := rfl
@[simp] theorem srLost_owner (s : State) : (srLost s).owner = s.owner := rfl
@[simp] theorem srLost_status (s : State) : (srLost s).status = some .platformLineFailure := rfl
@[simp] theorem srLost_info (s : State) : (srLost s).info = none := rfl
@[simp] theorem srLost_result (s : State) : (srLost s).result = s.result := rfl
@[simp] theorem srLost_fault (s : State) : (srLost s).fault = s.fault := rfl
@[simp] theorem srLost_writeLost (s : State) : (srLost s).writeLost = s.writeLost := rfl
@[simp] theorem srLost_host (s : State) : (srLost s).host = s.host := rfl
@[simp] theorem srLost_env (s : State) : (srLost s).env = s.env := rfl

/-! `qdLost` -/

@[simp] theorem qdLost_cfg (s : State) : (qdLost s).cfg = s.cfg := rfl
@[simp] theorem qdLost_sr (s : State) : (qdLost s).sr = s.sr := rfl
@[simp] theorem qdLost_chip (s : State) : (qdLost s).chip = s.chip := rfl
@[simp] theorem qdLost_qd (s : State) : (qdLost s).qd = { s.qd with phase := .failed } := rfl
@[simp] theorem qdLost_owner (s : State) : (qdLost s).owner = s.owner := rfl
@[simp] theorem qdLost_status (s : State) : (qdLost s).status = some .platformLineFailure := rfl
@[simp] theorem qdLost_info (s : State) : (qdLost s).info = none := rfl
@[simp] theorem qdLost_result (s : State) : (qdLost s).result = s.result := rfl
@[simp] theorem qdLost_fault (s : State) : (qdLost s).fault = s.fault := rfl
@[simp] theorem qdLost_writeLost (s : State) : (qdLost s).writeLost = s.writeLost := rfl
@[simp] theorem qdLost_host (s : State) : (qdLost s).host = s.host := rfl
@[simp] theorem qdLost_env (s : State) : (qdLost s).env = s.env := rfl

/-! `issued` -/

@[simp] theorem issued_cfg (ws : List Word) (s : State) : (issued ws s).cfg = s.cfg := rfl
@[simp] theorem issued_sr (ws : List Word) (s : State) : (issued ws s).sr = s.sr := rfl
@[simp] theorem issued_chip (ws : List Word) (s : State) : (issued ws s).chip = s.chip := rfl
@[simp] theorem issued_qd (ws : List Word) (s : State) : (issued ws s).qd = s.qd := rfl
@[simp] theorem issued_owner (ws : List Word) (s : State) : (issued ws s).owner = s.owner := rfl
@[simp] theorem issued_status (ws : List Word) (s : State) : (issued ws s).status = s.status := rfl
@[simp] theorem issued_info (ws : List Word) (s : State) : (issued ws s).info = s.info := rfl
@[simp] theorem issued_result (ws : List Word) (s : State) : (issued ws s).result = s.result := rfl
@[simp] theorem issued_fault (ws : List Word) (s : State) : (issued ws s).fault = s.fault := rfl
@[simp] theorem issued_writeLost (ws : List Word) (s : State) :
    (issued ws s).writeLost = s.writeLost := rfl
@[simp] theorem issued_host (ws : List Word) (s : State) :
    (issued ws s).host = { s.host with words := ws } := rfl
@[simp] theorem issued_env (ws : List Word) (s : State) :
    (issued ws s).env = { s.env with turns := s.env.turns.drop 1 } := rfl

/-! `turnTaken` -/

@[simp] theorem turnTaken_cfg (s : State) : (turnTaken s).cfg = s.cfg := rfl
@[simp] theorem turnTaken_sr (s : State) : (turnTaken s).sr = s.sr := rfl
@[simp] theorem turnTaken_chip (s : State) : (turnTaken s).chip = s.chip := rfl
@[simp] theorem turnTaken_qd (s : State) : (turnTaken s).qd = s.qd := rfl
@[simp] theorem turnTaken_owner (s : State) : (turnTaken s).owner = s.owner := rfl
@[simp] theorem turnTaken_status (s : State) : (turnTaken s).status = s.status := rfl
@[simp] theorem turnTaken_info (s : State) : (turnTaken s).info = s.info := rfl
@[simp] theorem turnTaken_result (s : State) : (turnTaken s).result = s.result := rfl
@[simp] theorem turnTaken_fault (s : State) : (turnTaken s).fault = s.fault := rfl
@[simp] theorem turnTaken_writeLost (s : State) : (turnTaken s).writeLost = s.writeLost := rfl
@[simp] theorem turnTaken_host (s : State) : (turnTaken s).host = s.host := rfl
@[simp] theorem turnTaken_env (s : State) :
    (turnTaken s).env = { s.env with turns := s.env.turns.drop 1 } := rfl

/-! `placeWord` -/

@[simp] theorem placeWord_cfg (w : Word) (s : State) : (placeWord w s).cfg = s.cfg := rfl
@[simp] theorem placeWord_sr (w : Word) (s : State) : (placeWord w s).sr = s.sr := rfl
@[simp] theorem placeWord_chip (w : Word) (s : State) : (placeWord w s).chip = s.chip := rfl
@[simp] theorem placeWord_qd (w : Word) (s : State) : (placeWord w s).qd = s.qd := rfl
@[simp] theorem placeWord_owner (w : Word) (s : State) : (placeWord w s).owner = s.owner := rfl
@[simp] theorem placeWord_status (w : Word) (s : State) : (placeWord w s).status = s.status := rfl
@[simp] theorem placeWord_info (w : Word) (s : State) : (placeWord w s).info = s.info := rfl
@[simp] theorem placeWord_result (w : Word) (s : State) : (placeWord w s).result = s.result := rfl
@[simp] theorem placeWord_fault (w : Word) (s : State) : (placeWord w s).fault = s.fault := rfl
@[simp] theorem placeWord_writeLost (w : Word) (s : State) :
    (placeWord w s).writeLost = s.writeLost := rfl
@[simp] theorem placeWord_host (w : Word) (s : State) :
    (placeWord w s).host = { s.host with words := w :: s.host.words } := rfl
@[simp] theorem placeWord_env (w : Word) (s : State) :
    (placeWord w s).env = { s.env with turns := ⟨.host :: s.env.turns.script, s.env.turns.drawn⟩ } := rfl

end Sys2Proof.Machine
end

