-- ==== Sys2Proof/Laws/Lines.lean ====
section
/-! SUPPORT. Lines, edges and chip events. -/

namespace Sys2Proof.Machine

open Sys2Proof.Config

/-! ### Reading a line after writing one -/

@[simp] theorem srLine_setSrLine_self (l : SrLine) (x : Line) (sr : Sr) :
    srLine (setSrLine l x sr) l = x := by cases l <;> rfl

theorem srLine_setSrLine_ne {l m : SrLine} (h : m ≠ l) (x : Line) (sr : Sr) :
    srLine (setSrLine l x sr) m = srLine sr m := by
  cases l <;> cases m <;> first | rfl | exact absurd rfl h

@[simp] theorem setSrLine_phase (l : SrLine) (x : Line) (sr : Sr) :
    (setSrLine l x sr).phase = sr.phase := by cases l <;> rfl

@[simp] theorem setSrLine_trace (l : SrLine) (x : Line) (sr : Sr) :
    (setSrLine l x sr).trace = sr.trace := by cases l <;> rfl

@[simp] theorem setSrLevel_phase (l : SrLine) (v : Bool) (sr : Sr) :
    (setSrLevel l v sr).phase = sr.phase := setSrLine_phase ..

@[simp] theorem setSrLevel_trace (l : SrLine) (v : Bool) (sr : Sr) :
    (setSrLevel l v sr).trace = sr.trace := setSrLine_trace ..

@[simp] theorem srLine_setSrLevel_mode (l m : SrLine) (v : Bool) (sr : Sr) :
    (srLine (setSrLevel l v sr) m).mode = (srLine sr m).mode := by
  cases l <;> cases m <;> rfl

theorem srLine_setSrLevel_level (l m : SrLine) (v : Bool) (sr : Sr) :
    (srLine (setSrLevel l v sr) m).level = if m = l then some v else (srLine sr m).level := by
  cases l <;> cases m <;> rfl

/-- The driver's trace is no part of its lines. -/
@[simp] theorem srLine_trace (sr : Sr) (es : List Event) (l : SrLine) :
    srLine { sr with trace := es } l = srLine sr l := by cases l <;> rfl

@[simp] theorem srLine_phase (sr : Sr) (p : SrPhase) (l : SrLine) :
    srLine { sr with phase := p } l = srLine sr l := by cases l <;> rfl

@[simp] theorem qdLine_setQdLine_self (l : QdLine) (m : LineMode) (qd : Qd) :
    qdLine (setQdLine l m qd) l = m := by cases l <;> rfl

theorem qdLine_setQdLine_ne {l k : QdLine} (h : k ≠ l) (m : LineMode) (qd : Qd) :
    qdLine (setQdLine l m qd) k = qdLine qd k := by
  cases l <;> cases k <;> first | rfl | exact absurd rfl h

/-- All lines driven, line by line. -/
theorem srLinesDriven_iff (sr : Sr) :
    srLinesDriven sr = true ↔ ∀ l, (srLine sr l).mode = .output ∧ (srLine sr l).level.isSome = true := by
  constructor
  · intro h l
    simp only [srLinesDriven, List.all_cons, List.all_nil, Bool.and_true, Bool.and_eq_true,
      decide_eq_true_eq] at h
    cases l
    · exact h.1
    · exact h.2.1
    · exact h.2.2
  · intro h
    have hd := h .data
    have hs := h .shclk
    have hl := h .latch
    simp only [srLine] at hd hs hl
    simp [srLinesDriven, hd, hs, hl]

/-- All lines held, line by line. -/
theorem qdLinesHeld_iff (qd : Qd) :
    qdLinesHeld qd = true ↔ ∀ l, qdLine qd l ≠ .unconfigured := by
  constructor
  · intro h l
    simp only [qdLinesHeld, List.all_cons, List.all_nil, Bool.and_true, Bool.and_eq_true,
      decide_eq_true_eq] at h
    cases l
    · exact h.1
    · exact h.2.1
    · exact h.2.2
  · intro h
    have ha := h .a
    have hb := h .b
    have hs := h .sw
    simp only [qdLine] at ha hb hs
    simp [qdLinesHeld, ha, hb, hs]

theorem qdMode_ne_unconfigured (c : Settings) (l : QdLine) : qdMode c l ≠ .unconfigured := by
  cases l <;> simp [qdMode] <;> cases c.abInputMode <;> simp [abMode]

/-! ### The chip -/

/-- No chip event changes the widths of a chip whose registers are full. -/
theorem chipEvent_width {e : ClockEdge} {depth : Nat} {d : Option Bool} {l : SrLine}
    {old : Option Bool} {v : Bool} {c : Chip}
    (hs : c.shift.length = 8 * depth) (ho : c.out.length = 8 * depth) :
    (chipEvent e depth d l old v c).shift.length = 8 * depth ∧
      (chipEvent e depth d l old v c).out.length = 8 * depth := by
  unfold chipEvent
  split
  · cases l
    · exact ⟨hs, ho⟩
    · cases d
      · exact ⟨hs, ho⟩
      · exact ⟨by simp [shiftIn, hs], ho⟩
    · exact ⟨hs, hs⟩
  · exact ⟨hs, ho⟩

/-- Only a write to the latch clock changes the outputs. -/
theorem chipEvent_out {e : ClockEdge} {depth : Nat} {d : Option Bool} {l : SrLine}
    {old : Option Bool} {v : Bool} {c : Chip} (h : l ≠ .latch) :
    (chipEvent e depth d l old v c).out = c.out := by
  unfold chipEvent
  split
  · cases l
    · rfl
    · cases d <;> rfl
    · exact absurd rfl h
  · rfl

end Sys2Proof.Machine
end

