-- ==== Sys2Proof/Laws/Ops.lean ====
section
/-! SUPPORT. What each shared operation can do, said once. -/

namespace Sys2Proof.Machine

open Sys2Proof.Config

/-! ### Line writes of the driver -/

/-- What a sequence of `n` line writes of the driver leaves alone. -/
structure SrFrame (n : Nat) (s t : State) : Prop where
  cfg : t.cfg = s.cfg
  phase : t.sr.phase = s.sr.phase
  mode : ∀ l, (srLine t.sr l).mode = (srLine s.sr l).mode
  driven : (∀ l, (srLine s.sr l).level.isSome = true) → ∀ l, (srLine t.sr l).level.isSome = true
  width : s.chip.shift.length = 8 * s.cfg.chainDepth ∧ s.chip.out.length = 8 * s.cfg.chainDepth →
    t.chip.shift.length = 8 * s.cfg.chainDepth ∧ t.chip.out.length = 8 * s.cfg.chainDepth
  trace : ∃ es, t.sr.trace = s.sr.trace ++ es
  qd : t.qd = s.qd
  owner : t.owner = s.owner
  status : t.status = s.status
  info : t.info = s.info
  result : t.result = s.result
  host : t.host = s.host
  env : t.env = { s.env with
    fails := s.env.fails.drop n, level := t.env.level, chipBit := t.env.chipBit }

theorem SrFrame.refl (s : State) : SrFrame 0 s s where
  cfg := rfl
  phase := rfl
  mode _ := rfl
  driven h := h
  width h := h
  trace := ⟨[], by simp⟩
  qd := rfl
  owner := rfl
  status := rfl
  info := rfl
  result := rfl
  host := rfl
  env := by simp

theorem SrFrame.trans {m n : Nat} {s t u : State} (h : SrFrame m s t) (k : SrFrame n t u) :
    SrFrame (m + n) s u where
  cfg := k.cfg.trans h.cfg
  phase := k.phase.trans h.phase
  mode l := (k.mode l).trans (h.mode l)
  driven d := k.driven (h.driven d)
  width w := by
    have := k.width
    rw [h.cfg] at this
    exact this (h.width w)
  trace := by
    obtain ⟨es, he⟩ := h.trace
    obtain ⟨fs, hf⟩ := k.trace
    exact ⟨es ++ fs, by rw [hf, he, List.append_assoc]⟩
  qd := k.qd.trans h.qd
  owner := k.owner.trans h.owner
  status := k.status.trans h.status
  info := k.info.trans h.info
  result := k.result.trans h.result
  host := k.host.trans h.host
  env := by
    rw [k.env, h.env]
    simp

/-- The `LineFails` draws still to come after a frame. -/
theorem SrFrame.failsAt {n : Nat} {s t : State} (h : SrFrame n s t) (k : Nat) :
    t.env.failsAt k = s.env.failsAt (n + k) := by
  rw [h.env]
  simp [Env.failsAt]

theorem setLevel_of_ok {l : SrLine} {v : Bool} {s : State} (h : s.env.failsAt 0 = false) :
    setLevel l v s = (true, writeLevel l v (takeFails s)) := by simp [setLevel, h]

theorem setLevel_of_lost {l : SrLine} {v : Bool} {s : State} (h : s.env.failsAt 0 = true) :
    setLevel l v s = (false, loseLevel l (takeFails s)) := by simp [setLevel, h]

/-- A write that succeeds leaves the other elements alone. -/
theorem writeLevel_frame (l : SrLine) (v : Bool) (s : State) :
    SrFrame 1 s (writeLevel l v (takeFails s)) where
  cfg := rfl
  phase := by simp
  mode m := by cases l <;> cases m <;> rfl
  driven h m := by
    simp only [writeLevel_sr, srLine_trace, takeFails_sr, srLine_setSrLevel_level]
    split
    · rfl
    · exact h m
  width h := chipEvent_width h.1 h.2
  trace := ⟨[.level l v], rfl⟩
  qd := rfl
  owner := rfl
  status := rfl
  info := rfl
  result := rfl
  host := rfl
  env := rfl

/-- A write that fails leaves the other elements alone, but for `fault`. -/
theorem loseLevel_frame (l : SrLine) (s : State) : SrFrame 1 s (loseLevel l (takeFails s)) where
  cfg := rfl
  phase := by simp
  mode m := by simp
  driven h m := by
    simp only [loseLevel_sr, takeFails_sr, srLine_setSrLevel_level]
    split
    · rfl
    · exact h m
  width _ := by simp
  trace := ⟨[], by simp⟩
  qd := rfl
  owner := rfl
  status := rfl
  info := rfl
  result := rfl
  host := rfl
  env := rfl

theorem setLevel_frame (l : SrLine) (v : Bool) (s : State) : SrFrame 1 s (setLevel l v s).2 := by
  cases h : s.env.failsAt 0
  · rw [setLevel_of_ok h]
    exact writeLevel_frame l v s
  · rw [setLevel_of_lost h]
    exact loseLevel_frame l s

/-- `fault` after a write: as before, or set by its failure. -/
theorem setLevel_fault (l : SrLine) (v : Bool) (s : State) :
    (setLevel l v s).2.fault = (s.fault || s.env.failsAt 0) := by
  cases h : s.env.failsAt 0
  · simp [setLevel_of_ok h]
  · simp [setLevel_of_lost h]

/-- The writes of a list of actions. -/
def writeCount : List Action → Nat
  | [] => 0
  | .delay :: as => writeCount as
  | .set _ _ :: as => writeCount as + 1

@[simp] theorem writeCount_append (as bs : List Action) :
    writeCount (as ++ bs) = writeCount as + writeCount bs := by
  induction as with
  | nil => simp [writeCount]
  | cons a as ih =>
    cases a with
    | delay => exact ih
    | set l v => simp only [List.cons_append, writeCount, ih]; omega

theorem writeCount_events (as : List Action) : (actionEvents as).length = writeCount as := by
  induction as with
  | nil => rfl
  | cons a as ih => cases a <;> simp_all [actionEvents, writeCount]

@[simp] theorem actionEvents_append (as bs : List Action) :
    actionEvents (as ++ bs) = actionEvents as ++ actionEvents bs := by simp [actionEvents]

/-- The state after actions none of whose writes fails. -/
def writeAll : List Action → State → State
  | [], s => s
  | .delay :: as, s => writeAll as s
  | .set l v :: as, s => writeAll as (writeLevel l v (takeFails s))

@[simp] theorem writeAll_append (as bs : List Action) (s : State) :
    writeAll (as ++ bs) s = writeAll bs (writeAll as s) := by
  induction as generalizing s with
  | nil => rfl
  | cons a as ih => cases a <;> simp [writeAll, ih]

theorem noLineFailure_tail {n : Nat} {s t : State} (hf : SrFrame 1 s t)
    (h : noLineFailure (n + 1) s) : noLineFailure n t := by
  intro k hk
  rw [hf.failsAt]
  exact h _ (by omega)

/-- Actions none of whose writes fails: all of them are done. -/
theorem runActions_of_ok {as : List Action} {s : State} (h : noLineFailure (writeCount as) s) :
    runActions as s = (true, writeAll as s) := by
  induction as generalizing s with
  | nil => rfl
  | cons a as ih =>
    cases a with
    | delay => exact ih h
    | set l v =>
      simp only [runActions, writeAll]
      rw [setLevel_of_ok (h 0 (by simp [writeCount]))]
      exact ih (noLineFailure_tail (writeLevel_frame l v s) h)

/-- The same for best effort. -/
theorem runBestEffort_of_ok {as : List Action} {s : State} (h : noLineFailure (writeCount as) s) :
    runBestEffort as s = writeAll as s := by
  induction as generalizing s with
  | nil => rfl
  | cons a as ih =>
    cases a with
    | delay => exact ih h
    | set l v =>
      simp only [runBestEffort, writeAll]
      rw [setLevel_of_ok (h 0 (by simp [writeCount]))]
      exact ih (noLineFailure_tail (writeLevel_frame l v s) h)

/-- Actions that end without a failure had none. -/
theorem runActions_ok_inv {as : List Action} {s : State} (h : (runActions as s).1 = true) :
    noLineFailure (writeCount as) s := by
  induction as generalizing s with
  | nil => intro k hk; simp [writeCount] at hk
  | cons a as ih =>
    cases a with
    | delay => exact ih h
    | set l v =>
      cases h0 : s.env.failsAt 0
      · simp only [runActions, setLevel_of_ok h0] at h
        intro k hk
        cases k with
        | zero => exact h0
        | succ k =>
          have := ih h k (by simp only [writeCount] at hk; omega)
          rwa [(writeLevel_frame l v s).failsAt, Nat.add_comm] at this
      · simp [runActions, setLevel_of_lost h0] at h

/-- What any run of actions leaves alone; the trace grows by a beginning of the actions' events. -/
theorem runActions_frame (as : List Action) (s : State) :
    ∃ n, n ≤ writeCount as ∧ SrFrame n s (runActions as s).2 := by
  induction as generalizing s with
  | nil => exact ⟨0, Nat.le_refl _, SrFrame.refl s⟩
  | cons a as ih =>
    cases a with
    | delay => exact ih s
    | set l v =>
      cases h : s.env.failsAt 0
      · obtain ⟨n, hn, hf⟩ := ih (writeLevel l v (takeFails s))
        refine ⟨1 + n, by simp only [writeCount]; omega, ?_⟩
        simp only [runActions, setLevel_of_ok h]
        exact (writeLevel_frame l v s).trans hf
      · refine ⟨1, by simp [writeCount], ?_⟩
        simp only [runActions, setLevel_of_lost h]
        exact loseLevel_frame l s

theorem runBestEffort_frame (as : List Action) (s : State) :
    SrFrame (writeCount as) s (runBestEffort as s) := by
  induction as generalizing s with
  | nil => exact SrFrame.refl s
  | cons a as ih =>
    cases a with
    | delay => exact ih s
    | set l v =>
      have := (setLevel_frame l v s).trans (ih (setLevel l v s).2)
      rwa [Nat.add_comm] at this

theorem writeAll_frame (as : List Action) (s : State) :
    SrFrame (writeCount as) s (writeAll as s) := by
  induction as generalizing s with
  | nil => exact SrFrame.refl s
  | cons a as ih =>
    cases a with
    | delay => exact ih s
    | set l v =>
      have := (writeLevel_frame l v s).trans (ih (writeLevel l v (takeFails s)))
      rwa [Nat.add_comm] at this

@[simp] theorem writeAll_fault (as : List Action) (s : State) : (writeAll as s).fault = s.fault := by
  induction as generalizing s with
  | nil => rfl
  | cons a as ih => cases a <;> simp [writeAll, ih]

/-- The trace of writes that succeed. -/
theorem writeAll_trace (as : List Action) (s : State) :
    (writeAll as s).sr.trace = s.sr.trace ++ actionEvents as := by
  induction as generalizing s with
  | nil => simp [writeAll, actionEvents]
  | cons a as ih => cases a <;> simp [writeAll, ih, actionEvents]

/-- The chip after writes that succeed is the chip before with their events replayed (20_memory R78). -/
theorem writeAll_chip (as : List Action) (s : State) :
    (writeAll as s).chip =
      replayChip .rising s.cfg.chainDepth (actionEvents as) s.sr s.chip := by
  have key : ∀ (es : List Event) (d : Nat) (sr : Sr) (tr : List Event) (c : Chip),
      replayChip .rising d es { sr with trace := tr } c = replayChip .rising d es sr c := by
    intro es
    induction es with
    | nil => intros; rfl
    | cons e es ih =>
      intro d sr tr c
      cases e with
      | level l v =>
        simp only [replayChip, srLine_trace]
        have h : setSrLevel l v { sr with trace := tr } = { setSrLevel l v sr with trace := tr } := by
          cases l <;> rfl
        rw [h, ih]
      | released l => exact ih d sr tr c
  induction as generalizing s with
  | nil => rfl
  | cons a as ih =>
    cases a with
    | delay => exact ih s
    | set l v =>
      have h : actionEvents (.set l v :: as) = .level l v :: actionEvents as := rfl
      rw [writeAll, ih, h]
      exact key _ _ _ _ _

/-- `fault` after a run of actions: as before, or set by a write that failed. -/
theorem runActions_fault (as : List Action) (s : State) :
    (s.fault = true → (runActions as s).2.fault = true) ∧
      ((runActions as s).2.fault = true →
        s.fault = true ∨ ∃ k, k < writeCount as ∧ s.env.failsAt k = true) ∧
      ((runActions as s).1 = false → (runActions as s).2.fault = true) := by
  induction as generalizing s with
  | nil => exact ⟨id, Or.inl, by simp [runActions]⟩
  | cons a as ih =>
    cases a with
    | delay => exact ih s
    | set l v =>
      cases h : s.env.failsAt 0
      · simp only [runActions, setLevel_of_ok h, writeCount]
        obtain ⟨h1, h2, h3⟩ := ih (writeLevel l v (takeFails s))
        refine ⟨h1, fun ht => ?_, h3⟩
        rcases h2 ht with hs | ⟨k, hk, hk'⟩
        · exact .inl hs
        · refine .inr ⟨1 + k, by omega, ?_⟩
          rwa [(writeLevel_frame l v s).failsAt] at hk'
      · simp only [runActions, setLevel_of_lost h, writeCount]
        exact ⟨fun _ => rfl, fun _ => .inr ⟨0, by omega, h⟩, fun _ => rfl⟩

/-- The writes a run of actions takes: `fault` after it is `fault` before, or set by one of them. -/
theorem runActions_taken (as : List Action) (s : State) :
    ∃ n, n ≤ writeCount as ∧ SrFrame n s (runActions as s).2 ∧
      ((runActions as s).2.fault = true ↔ s.fault = true ∨ ∃ k, k < n ∧ s.env.failsAt k = true) := by
  induction as generalizing s with
  | nil => exact ⟨0, Nat.le_refl _, SrFrame.refl s, by simp [runActions]⟩
  | cons a as ih =>
    cases a with
    | delay => exact ih s
    | set l v =>
      cases h : s.env.failsAt 0
      · obtain ⟨n, hn, hf, hb⟩ := ih (writeLevel l v (takeFails s))
        have fr := writeLevel_frame l v s
        refine ⟨1 + n, by simp only [writeCount]; omega, ?_, ?_⟩
        · simp only [runActions, setLevel_of_ok h]
          exact fr.trans hf
        · simp only [runActions, setLevel_of_ok h, hb, fr.failsAt, writeLevel_fault, takeFails_fault]
          refine or_congr_right ⟨fun ⟨k, hk, hx⟩ => ⟨1 + k, by omega, hx⟩, fun ⟨k, hk, hx⟩ => ?_⟩
          cases k with
          | zero => rw [h] at hx; cases hx
          | succ k => exact ⟨k, by omega, by rwa [Nat.add_comm]⟩
      · refine ⟨1, by simp [writeCount], ?_, ?_⟩
        · simp only [runActions, setLevel_of_lost h]
          exact loseLevel_frame l s
        · simp only [runActions, setLevel_of_lost h, loseLevel_fault, true_iff]
          exact .inr ⟨0, by omega, h⟩

theorem runBestEffort_fault (as : List Action) (s : State) :
    (runBestEffort as s).fault = true ↔
      s.fault = true ∨ ∃ k, k < writeCount as ∧ s.env.failsAt k = true := by
  induction as generalizing s with
  | nil => simp [runBestEffort, writeCount]
  | cons a as ih =>
    cases a with
    | delay => exact ih s
    | set l v =>
      simp only [runBestEffort, ih, setLevel_fault, writeCount, Bool.or_eq_true,
        (setLevel_frame l v s).failsAt]
      constructor
      · rintro ((h | h) | ⟨k, hk, h⟩)
        · exact .inl h
        · exact .inr ⟨0, by omega, h⟩
        · exact .inr ⟨1 + k, by omega, h⟩
      · rintro (h | ⟨k, hk, h⟩)
        · exact .inl (.inl h)
        · cases k with
          | zero => exact .inl (.inr h)
          | succ k => exact .inr ⟨k, by omega, by rwa [Nat.add_comm]⟩

/-- `writeLost` after a run of actions: as before, or set by the write that stopped it. -/
theorem runActions_lost (as : List Action) (s : State) :
    (runActions as s).2.writeLost = (s.writeLost || !(runActions as s).1) := by
  induction as generalizing s with
  | nil => simp [runActions]
  | cons a as ih =>
    cases a with
    | delay => exact ih s
    | set l v =>
      cases h : s.env.failsAt 0
      · simp only [runActions, setLevel_of_ok h, ih, writeLevel_writeLost, takeFails_writeLost]
      · simp [runActions, setLevel_of_lost h]

theorem setLevel_lost (l : SrLine) (v : Bool) (s : State) :
    (setLevel l v s).2.writeLost = (s.writeLost || s.env.failsAt 0) := by
  cases h : s.env.failsAt 0
  · simp [setLevel_of_ok h]
  · simp [setLevel_of_lost h]

theorem runBestEffort_lost (as : List Action) (s : State) :
    (runBestEffort as s).writeLost = true ↔
      s.writeLost = true ∨ ∃ k, k < writeCount as ∧ s.env.failsAt k = true := by
  induction as generalizing s with
  | nil => simp [runBestEffort, writeCount]
  | cons a as ih =>
    cases a with
    | delay => exact ih s
    | set l v =>
      simp only [runBestEffort, ih, setLevel_lost, writeCount, Bool.or_eq_true,
        (setLevel_frame l v s).failsAt, or_assoc]
      refine or_congr_right ⟨?_, ?_⟩
      · rintro (h | ⟨k, hk, h⟩)
        · exact ⟨0, by omega, h⟩
        · exact ⟨1 + k, by omega, h⟩
      · rintro ⟨k, hk, h⟩
        cases k with
        | zero => exact .inl h
        | succ k => exact .inr ⟨k, by omega, by rwa [Nat.add_comm]⟩

@[simp] theorem writeAll_lost (as : List Action) (s : State) :
    (writeAll as s).writeLost = s.writeLost := by
  induction as generalizing s with
  | nil => rfl
  | cons a as ih => cases a <;> simp [writeAll, ih]

/-! ### The other agents -/

/-- What other agents' steps leave alone: all but the count, the pending edges and the switch. -/
structure AsyncFrame (s t : State) : Prop where
  cfg : t.cfg = s.cfg
  sr : t.sr = s.sr
  chip : t.chip = s.chip
  qd : t.qd = { s.qd with count := t.qd.count, pending := t.qd.pending }
  count : t.qd.count = s.qd.count ∨ t.qd.count = some 0 ∧ s.qd.registered = true
  pending : s.qd.registered = false → t.qd.pending = s.qd.pending
  owner : t.owner = s.owner
  status : t.status = s.status
  info : t.info = s.info
  result : t.result = s.result
  fault : t.fault = s.fault
  lost : t.writeLost = s.writeLost
  host : t.host = s.host
  env : t.env = { s.env with sw := t.env.sw, inside := t.env.inside }

theorem AsyncFrame.refl (s : State) : AsyncFrame s s where
  cfg := rfl
  sr := rfl
  chip := rfl
  qd := rfl
  count := .inl rfl
  pending _ := rfl
  owner := rfl
  status := rfl
  info := rfl
  result := rfl
  fault := rfl
  lost := rfl
  host := rfl
  env := rfl

theorem AsyncFrame.registered {s t : State} (h : AsyncFrame s t) :
    t.qd.registered = s.qd.registered := by rw [h.qd]

theorem AsyncFrame.trans {s t u : State} (h : AsyncFrame s t) (k : AsyncFrame t u) :
    AsyncFrame s u where
  cfg := k.cfg.trans h.cfg
  sr := k.sr.trans h.sr
  chip := k.chip.trans h.chip
  qd := by rw [k.qd, h.qd]
  count := by
    rcases k.count with hc | ⟨hc, hr⟩
    · rcases h.count with hd | hd
      · exact .inl (hc.trans hd)
      · exact .inr ⟨hc.trans hd.1, hd.2⟩
    · exact .inr ⟨hc, h.registered ▸ hr⟩
  pending hr := (k.pending (h.registered.trans hr)).trans (h.pending hr)
  owner := k.owner.trans h.owner
  status := k.status.trans h.status
  info := k.info.trans h.info
  result := k.result.trans h.result
  fault := k.fault.trans h.fault
  lost := k.lost.trans h.lost
  host := k.host.trans h.host
  env := by rw [k.env, h.env]

theorem asyncStep_resetEdge_of_enabled {s : State} (h : resetEnabled s = true) :
    asyncStep .resetEdge s = resetEdge s := by simp [asyncStep, h]

theorem asyncStep_resetEdge_of_disabled {s : State} (h : resetEnabled s = false) :
    asyncStep .resetEdge s = s := by simp [asyncStep, h]

theorem asyncStep_frame (a : AsyncStep) (s : State) : AsyncFrame s (asyncStep a s) := by
  cases a with
  | swEdge v k =>
    refine ⟨rfl, rfl, rfl, rfl, .inl rfl, fun hr => ?_, rfl, rfl, rfl, rfl, rfl, rfl, rfl, rfl⟩
    simp [asyncStep, switchEdge, hr]
  | resetEdge =>
    by_cases h : resetEnabled s = true
    · rw [asyncStep_resetEdge_of_enabled h]
      have hr : s.qd.registered = true := by
        simp only [resetEnabled, Bool.and_eq_true] at h
        exact h.1
      exact ⟨rfl, rfl, rfl, rfl, .inr ⟨rfl, hr⟩, fun h' => by simp [hr] at h', rfl, rfl, rfl, rfl,
        rfl, rfl, rfl, rfl⟩
    · rw [asyncStep_resetEdge_of_disabled (by simpa using h)]
      exact AsyncFrame.refl s

/-- The agents' steps at an interior point. -/
theorem interleave_frame (s : State) :
    AsyncFrame s (interleave s) ∧ (interleave s).env.inside = s.env.inside.drop 1 := by
  have key : ∀ (as : List AsyncStep) (t : State),
      AsyncFrame t (as.foldl (fun u a => asyncStep a u) t) ∧
        (as.foldl (fun u a => asyncStep a u) t).env.inside = t.env.inside := by
    intro as
    induction as with
    | nil => intro t; exact ⟨AsyncFrame.refl t, rfl⟩
    | cons a as ih =>
      intro t
      obtain ⟨h, h'⟩ := ih (asyncStep a t)
      refine ⟨(asyncStep_frame a t).trans h, h'.trans ?_⟩
      cases a with
      | swEdge v k => rfl
      | resetEdge =>
        by_cases hr : resetEnabled t = true
        · rw [asyncStep_resetEdge_of_enabled hr]; rfl
        · rw [asyncStep_resetEdge_of_disabled (by simpa using hr)]
  obtain ⟨h, h'⟩ := key (s.env.insideAt 0)
    { s with env := { s.env with inside := s.env.inside.drop 1 } }
  refine ⟨AsyncFrame.trans ?_ h, h'⟩
  exact ⟨rfl, rfl, rfl, rfl, .inl rfl, fun _ => rfl, rfl, rfl, rfl, rfl, rfl, rfl, rfl, rfl⟩

/-- An interior point at which no agent steps. -/
theorem interleave_of_quiet {s : State} (h : s.env.insideAt 0 = []) :
    interleave s = { s with env := { s.env with inside := s.env.inside.drop 1 } } := by
  simp [interleave, h]

/-! ### Line reads of the decoder -/

theorem readLevel_of_ok {l : QdLine} {s : State} (h : s.env.failsAt 0 = false) :
    readLevel l s = (some (s.env.inputAt 0),
      { s with env := { s.env with fails := s.env.fails.drop 1, input := s.env.input.drop 1 } }) := by
  simp [readLevel, h]

theorem readLevel_of_lost {l : QdLine} {s : State} (h : s.env.failsAt 0 = true) :
    readLevel l s = (none, { takeFails s with fault := true }) := by simp [readLevel, h]

/-! ### Acquisition and release -/

/-- What an acquisition can do (00_scope R17). -/
theorem acquirePin_cases (who : Owner) (p : PinId) (s : State) :
    (s.owner[p]? = some .free ∧ s.env.deniedAt 0 = false ∧
      acquirePin who p s =
        (true, { s with
          env := { s.env with denied := s.env.denied.drop 1 }, owner := s.owner.set p who })) ∨
    ((s.owner[p]? ≠ some .free ∨ s.env.deniedAt 0 = true) ∧
      acquirePin who p s = (false, { s with env := { s.env with denied := s.env.denied.drop 1 } })) := by
  by_cases h : s.owner[p]? = some .free ∧ s.env.deniedAt 0 = false
  · exact .inl ⟨h.1, h.2, by simp [acquirePin, h]⟩
  · refine .inr ⟨?_, by simp [acquirePin, h]⟩
    by_cases h1 : s.owner[p]? = some .free
    · exact .inr (by simpa [h1] using h)
    · exact .inl h1

theorem acquireSrLine_of_free {l : SrLine} {s : State}
    (h : s.owner[srPin s.cfg l]? = some .free) (hd : s.env.deniedAt 0 = false) :
    acquireSrLine l s =
      (true, { s with
        sr := setSrLine l ⟨.output, some (s.env.levelAt 0)⟩ s.sr
        owner := s.owner.set (srPin s.cfg l) .sr
        env := { s.env with denied := s.env.denied.drop 1, level := s.env.level.drop 1 } }) := by
  simp [acquireSrLine, acquirePin, h, hd, Env.levelAt]

theorem acquireSrLine_of_taken {l : SrLine} {s : State}
    (h : s.owner[srPin s.cfg l]? ≠ some .free ∨ s.env.deniedAt 0 = true) :
    acquireSrLine l s = (false, { s with env := { s.env with denied := s.env.denied.drop 1 } }) := by
  rcases h with h | h <;> simp [acquireSrLine, acquirePin, h]

theorem acquireQdLine_of_free {l : QdLine} {s : State}
    (h : s.owner[qdPin s.cfg l]? = some .free) (hd : s.env.deniedAt 0 = false) :
    acquireQdLine l s =
      (true, { s with
        qd := setQdLine l (qdMode s.cfg l) s.qd
        owner := s.owner.set (qdPin s.cfg l) .qd
        env := { s.env with denied := s.env.denied.drop 1 } }) := by
  simp [acquireQdLine, acquirePin, h, hd]

theorem acquireQdLine_of_taken {l : QdLine} {s : State}
    (h : s.owner[qdPin s.cfg l]? ≠ some .free ∨ s.env.deniedAt 0 = true) :
    acquireQdLine l s = (false, { s with env := { s.env with denied := s.env.denied.drop 1 } }) := by
  rcases h with h | h <;> simp [acquireQdLine, acquirePin, h]

/-- Each acquisition of the driver succeeds or fails. -/
theorem acquireSrLine_cases (l : SrLine) (s : State) :
    (s.owner[srPin s.cfg l]? = some .free ∧ s.env.deniedAt 0 = false) ∨
      (s.owner[srPin s.cfg l]? ≠ some .free ∨ s.env.deniedAt 0 = true) := by
  by_cases h : s.owner[srPin s.cfg l]? = some .free
  · cases hd : s.env.deniedAt 0
    · exact .inl ⟨h, rfl⟩
    · exact .inr (.inr rfl)
  · exact .inr (.inl h)

/-- Each acquisition of the decoder succeeds or fails. -/
theorem acquireQdLine_cases (l : QdLine) (s : State) :
    (s.owner[qdPin s.cfg l]? = some .free ∧ s.env.deniedAt 0 = false) ∨
      (s.owner[qdPin s.cfg l]? ≠ some .free ∨ s.env.deniedAt 0 = true) := by
  by_cases h : s.owner[qdPin s.cfg l]? = some .free
  · cases hd : s.env.deniedAt 0
    · exact .inl ⟨h, rfl⟩
    · exact .inr (.inr rfl)
  · exact .inr (.inl h)

/-- The release of a line of the driver that is held. -/
theorem releaseSrLine_of_held {l : SrLine} {s : State} (h : (srLine s.sr l).mode ≠ .unconfigured) :
    releaseSrLine l s = freshChip { s with
      sr := { setSrLine l Line.idle s.sr with trace := s.sr.trace ++ [.released l] }
      owner := s.owner.set (srPin s.cfg l) .free } := by
  simp [releaseSrLine, freePin, h]

/-- The release of a line of the decoder that is held. -/
theorem releaseQdLine_of_held {l : QdLine} {s : State} (h : qdLine s.qd l ≠ .unconfigured) :
    releaseQdLine l s = { s with
      qd := setQdLine l .unconfigured s.qd
      owner := s.owner.set (qdPin s.cfg l) .free } := by
  simp [releaseQdLine, freePin, h]

/-! ### The count -/

/-- A wrapped value is a W-bit value (00_scope R14). -/
theorem wrapW_inRange {w : Nat} (hw : 1 ≤ w) (n : Int) : inRangeW w (wrapW w n) := by
  obtain ⟨k, rfl⟩ : ∃ k, w = k + 1 := ⟨w - 1, by omega⟩
  have hp : (0 : Nat) < 2 ^ (k + 1) := Nat.two_pow_pos _
  have h1 := Int.le_bmod (x := n) hp
  have h2 := Int.bmod_lt (x := n) hp
  simp only [wrapW, inRangeW, Nat.add_sub_cancel]
  have e : ((2 ^ (k + 1) : Nat) : Int) = 2 * 2 ^ k := by push_cast; ring
  rw [e] at h1 h2
  constructor <;> omega

/-- A value of the range is its own wrap. -/
theorem wrapW_of_inRange {w : Nat} {n : Int} (hw : 1 ≤ w) (h : inRangeW w n) : wrapW w n = n := by
  obtain ⟨k, rfl⟩ : ∃ k, w = k + 1 := ⟨w - 1, by omega⟩
  simp only [inRangeW, Nat.add_sub_cancel] at h
  have e : ((2 ^ (k + 1) : Nat) : Int) = 2 * 2 ^ k := by push_cast; ring
  exact Int.bmod_eq_of_le (by rw [e]; omega) (by rw [e]; omega)

/-- Two unit steps one after the other wrap as their sum. -/
theorem wrapW_add_wrapW (w : Nat) (m n : Int) : wrapW w (wrapW w m + n) = wrapW w (m + n) := by
  simp [wrapW]

/-- The wrapped value read as a W-bit vector is the machine's own signed reading. -/
theorem wrapW_eq_toInt (w : Nat) (n : Int) : wrapW w n = (BitVec.ofInt w n).toInt := by
  rw [BitVec.toInt_ofInt, wrapW]

end Sys2Proof.Machine
end

