-- ==== Sys2Proof/Laws/ShiftRegister.lean ====
section
/-! SUPPORT. What the sequences of the SR family do: eight data-and-pulse pairs, the acquisition of the
three lines, the first failed write, and the three releases. -/

namespace Sys2Proof.Machine

open Sys2Proof.Config

/-! ### Serialized bits -/

/-- One data-and-pulse pair of a serialize (40 R130). -/
def bitPair (v : Bool) : List Action := .set .data v :: pulse .shclk

/-- The bits of a byte in the order they are sent (20_memory R64). -/
def sentBits (order : BitOrder) (b : Byte) : List Bool :=
  (List.range 8).map (fun i => b.getLsbD (sendBit order i))

theorem serializeActions_eq (order : BitOrder) (b : Byte) :
    serializeActions order b = (sentBits order b).flatMap bitPair := by
  simp [serializeActions, sentBits, bitPair, List.flatMap_map]

@[simp] theorem writeCount_serializeActions (order : BitOrder) (b : Byte) :
    writeCount (serializeActions order b) = 24 := by
  cases order <;> rfl

theorem writeCount_teardownActions : writeCount teardownActions = 29 := rfl

/-- The first bit sent ends in stage 7 (20_memory R65). -/
theorem sentBits_reverse (order : BitOrder) (b : Byte) :
    (sentBits order b).reverse = byteBits (ord order b) := by
  cases order with
  | lsbFirst =>
    simp only [sentBits, byteBits, ord, rev8, BitVec.getLsbD_reverse, sendBit]
    simp [List.range_succ, BitVec.getMsbD]
  | msbFirst => simp [sentBits, byteBits, ord, sendBit, List.range_succ]

@[simp] theorem byteBits_length (b : Byte) : (byteBits b).length = 8 := by simp [byteBits]

theorem take_append_take {α : Type} (xs ys : List α) (n : Nat) :
    (xs ++ ys.take n).take n = (xs ++ ys).take n := by
  rw [List.take_append, List.take_append, List.take_take, Nat.min_eq_left (by omega)]

theorem take_byteBits_append {depth : Nat} (h : 1 ≤ depth) (b : Byte) (xs : List Bool) :
    (byteBits b ++ xs).take (8 * depth) = byteBits b ++ xs.take (8 * depth - 8) := by
  rw [List.take_append, List.take_of_length_le (by simp; omega), byteBits_length]

/-- One pair from a low shift clock shifts one bit in. -/
theorem bitPair_write (s : State) (v : Bool) (h : s.sr.shclk.level = some false) :
    writeAll (bitPair v) s = { s with
      sr := { s.sr with
        data := ⟨s.sr.data.mode, some v⟩
        trace := s.sr.trace ++ actionEvents (bitPair v) }
      chip := { s.chip with shift := (v :: s.chip.shift).take (8 * s.cfg.chainDepth) }
      env := { s.env with fails := s.env.fails.drop 3 } } := by
  have hl : (⟨s.sr.shclk.mode, some false⟩ : Line) = s.sr.shclk := by rw [← h]
  simp only [bitPair, pulse, writeAll, writeLevel, takeFails, setSrLevel, setSrLine, srLine,
    chipEvent, isEdge, h, shiftIn, actionEvents]
  simp [hl]

/-- A pair leaves the shift clock low and the latch clock alone, wherever it starts. -/
theorem bitPair_clocks (s : State) (v : Bool) :
    (writeAll (bitPair v) s).sr.shclk.level = some false ∧
      (writeAll (bitPair v) s).sr.latch = s.sr.latch := by
  simp [bitPair, pulse, writeAll, writeLevel, takeFails, setSrLevel, setSrLine, srLine]

/-- Pairs from a low shift clock shift their bits in, the first one deepest. -/
theorem bitPairs_write (vs : List Bool) (s : State) (h : s.sr.shclk.level = some false) :
    writeAll (vs.flatMap bitPair) s = { s with
      sr := { s.sr with
        data := ⟨s.sr.data.mode, vs.getLast?.orElse (fun _ => s.sr.data.level)⟩
        trace := s.sr.trace ++ actionEvents (vs.flatMap bitPair) }
      chip := { s.chip with
        shift := if vs = [] then s.chip.shift
          else (vs.reverse ++ s.chip.shift).take (8 * s.cfg.chainDepth) }
      env := { s.env with fails := s.env.fails.drop (3 * vs.length) } } := by
  induction vs generalizing s with
  | nil => simp [writeAll, actionEvents]
  | cons v vs ih =>
    rw [List.flatMap_cons, writeAll_append, bitPair_write s v h, ih _ (by exact h)]
    cases vs with
    | nil => simp [actionEvents]
    | cons w ws =>
      have e : ((w :: ws).reverse ++ (v :: s.chip.shift).take (8 * s.cfg.chainDepth)).take
          (8 * s.cfg.chainDepth) =
          ((v :: w :: ws).reverse ++ s.chip.shift).take (8 * s.cfg.chainDepth) := by
        rw [take_append_take]; simp
      simp only [if_neg (List.cons_ne_nil _ _), e, Tape.drop_drop]
      simp only [actionEvents_append, List.append_assoc, List.length_cons, List.flatMap_cons,
        State.mk.injEq, Sr.mk.injEq, Line.mk.injEq, Env.mk.injEq, true_and, and_true]
      refine ⟨?_, by congr 1; omega⟩
      cases h : (w :: ws).getLast? with
      | none => simp at h
      | some x => rw [List.getLast?_cons_cons, h]; rfl

/-- The writes of `SR_SERIALIZE b` from a low shift clock (40 R130 to R132). -/
theorem serialize_write (s : State) (b : Byte) (h : s.sr.shclk.level = some false)
    (hd : 1 ≤ s.cfg.chainDepth) :
    writeAll (serializeActions s.cfg.bitOrder b) s = { s with
      sr := { s.sr with
        data := ⟨s.sr.data.mode, some (b.getLsbD (sendBit s.cfg.bitOrder 7))⟩
        trace := s.sr.trace ++ actionEvents (serializeActions s.cfg.bitOrder b) }
      chip := { s.chip with
        shift := byteBits (ord s.cfg.bitOrder b) ++ s.chip.shift.take (8 * s.cfg.chainDepth - 8) }
      env := { s.env with fails := s.env.fails.drop 24 } } := by
  rw [serializeActions_eq, bitPairs_write _ s h, sentBits_reverse, take_byteBits_append hd]
  simp [sentBits, List.range_succ]

/-- A serialize is a first pair and seven more. -/
theorem serializeActions_split (order : BitOrder) (b : Byte) :
    serializeActions order b = bitPair (b.getLsbD (sendBit order 0)) ++
      ((List.range' 1 7).map (fun i => b.getLsbD (sendBit order i))).flatMap bitPair := by
  rw [serializeActions_eq]; rfl

/-- The lines of a driver at rest. -/
theorem srAtRest_lines {s : State} (h : srAtRest s) :
    s.sr.data.mode = .output ∧ s.sr.shclk = ⟨.output, some false⟩ ∧
      s.sr.latch = ⟨.output, some false⟩ := by
  obtain ⟨_, hd, hs, hl⟩ := h
  rw [srLinesDriven_iff] at hd
  exact ⟨(hd .data).1, Line.ext (hd .shclk).1 hs, Line.ext (hd .latch).1 hl⟩

/-! ### The first failed write -/

/-- Actions whose write `n` is the first to fail stop there. -/
theorem runActions_of_lost {as : List Action} {s : State} {n : Nat} (hn : n < writeCount as)
    (hf : noLineFailure n s) (hx : s.env.failsAt n = true) :
    ∃ (pre post : List Action) (l : SrLine) (v : Bool), as = pre ++ .set l v :: post ∧
      writeCount pre = n ∧ runActions as s = (false, loseLevel l (takeFails (writeAll pre s))) := by
  induction as generalizing s n with
  | nil => simp [writeCount] at hn
  | cons a as ih =>
    cases a with
    | delay =>
      obtain ⟨pre, post, l, v, h1, h2, h3⟩ := ih hn hf hx
      exact ⟨.delay :: pre, post, l, v, by rw [h1]; rfl, h2, h3⟩
    | set l v =>
      cases n with
      | zero => exact ⟨[], as, l, v, rfl, rfl, by simp [runActions, setLevel_of_lost hx, writeAll]⟩
      | succ n =>
        have hfr := writeLevel_frame l v s
        obtain ⟨pre, post, l', v', h1, h2, h3⟩ := ih (by simp only [writeCount] at hn; omega)
          (noLineFailure_tail hfr hf) (by rw [hfr.failsAt, Nat.add_comm]; exact hx)
        refine ⟨.set l v :: pre, post, l', v', by rw [h1]; rfl, by simp [writeCount, h2], ?_⟩
        simp only [runActions, setLevel_of_ok (hf 0 (by omega)), writeAll, h3]

theorem actionEvents_take (pre post : List Action) :
    (actionEvents (pre ++ post)).take (writeCount pre) = actionEvents pre := by
  rw [actionEvents_append, ← writeCount_events, List.take_left']; rfl

/-- Writes that succeed take no draw of a level or of a chip bit. -/
theorem writeAll_draws (as : List Action) (s : State) :
    (writeAll as s).env.level = s.env.level ∧ (writeAll as s).env.chipBit = s.env.chipBit := by
  induction as generalizing s with
  | nil => exact ⟨rfl, rfl⟩
  | cons a as ih =>
    cases a with
    | delay => exact ih s
    | set l v => exact ih _

/-- What a run of best effort that is cut in two does. -/
theorem runBestEffort_append (as bs : List Action) (s : State) :
    runBestEffort (as ++ bs) s = runBestEffort bs (runBestEffort as s) := by
  induction as generalizing s with
  | nil => rfl
  | cons a as ih => cases a <;> exact ih _

/-! ### Acquisition of the three lines -/

/-- A refused acquisition takes its draw and nothing else. -/
def acquireRefused (s : State) : State :=
  { s with env := { s.env with denied := s.env.denied.drop 1 } }

/-- The state after a line of the driver is acquired. -/
def srLineAcquired (l : SrLine) (s : State) : State :=
  { s with
    sr := setSrLine l ⟨.output, some (s.env.levelAt 0)⟩ s.sr
    owner := s.owner.set (srPin s.cfg l) .sr
    env := { s.env with denied := s.env.denied.drop 1, level := s.env.level.drop 1 } }

/-- After the data line: the chip is unconstrained (40 R118). -/
def srAcquired1 (s : State) : State := freshChip (srLineAcquired .data s)

def srAcquired2 (s : State) : State := srLineAcquired .shclk (srAcquired1 s)

def srAcquired3 (s : State) : State := srLineAcquired .latch (srAcquired2 s)

/-- All `SR_INIT` can do after its state check (40 R125): a refusal at the first, second or third pin,
with what was acquired released, or all three lines and the writes that drive them low. -/
theorem srConstruct_cases (s : State) :
    ((s.owner[s.cfg.pinData]? ≠ some .free ∨ s.env.deniedAt 0 = true) ∧
      srConstruct s = raiseUnavailable s.cfg.pinData (acquireRefused s)) ∨
    (s.owner[s.cfg.pinData]? = some .free ∧ s.env.deniedAt 0 = false ∧
      ((((srAcquired1 s).owner[s.cfg.pinShclk]? ≠ some .free ∨ s.env.deniedAt 1 = true) ∧
          srConstruct s = raiseUnavailable s.cfg.pinShclk
            (releaseSrLine .data (acquireRefused (srAcquired1 s)))) ∨
        ((srAcquired1 s).owner[s.cfg.pinShclk]? = some .free ∧ s.env.deniedAt 1 = false ∧
          ((((srAcquired2 s).owner[s.cfg.pinLatch]? ≠ some .free ∨ s.env.deniedAt 2 = true) ∧
              srConstruct s = raiseUnavailable s.cfg.pinLatch
                (releaseSrLine .shclk (releaseSrLine .data (acquireRefused (srAcquired2 s))))) ∨
            ((srAcquired2 s).owner[s.cfg.pinLatch]? = some .free ∧ s.env.deniedAt 2 = false ∧
              srConstruct s = srDriveLow (srAcquired3 s)))))) := by
  have d1 : (srAcquired1 s).env.deniedAt 0 = s.env.deniedAt 1 := by
    simp [srAcquired1, srLineAcquired, Env.deniedAt]
  have d2 : (srAcquired2 s).env.deniedAt 0 = s.env.deniedAt 2 := by
    simp [srAcquired2, srAcquired1, srLineAcquired, Env.deniedAt]
  have start : ∀ {r : Bool × State}, acquireSrLine .data s = (true, srLineAcquired .data s) →
      srConstruct s =
        match acquireAll acquireSrLine releaseSrLine [.data] [.shclk, .latch] (srAcquired1 s) with
        | (some l, s2) => raiseUnavailable (srPin s.cfg l) s2
        | (none, s2) => srDriveLow s2 := by
    intro r h
    simp only [srConstruct, h]
    rfl
  rcases acquireSrLine_cases .data s with ⟨h, hd⟩ | h
  · refine .inr ⟨h, hd, ?_⟩
    have e1 := start (r := acquireSrLine .data s) (acquireSrLine_of_free h hd)
    rcases acquireSrLine_cases .shclk (srAcquired1 s) with ⟨h', hd'⟩ | h'
    · have e2 : acquireSrLine .shclk (srAcquired1 s) = (true, srAcquired2 s) :=
        acquireSrLine_of_free h' hd'
      refine .inr ⟨h', d1 ▸ hd', ?_⟩
      rcases acquireSrLine_cases .latch (srAcquired2 s) with ⟨h'', hd''⟩ | h''
      · have e3 : acquireSrLine .latch (srAcquired2 s) = (true, srAcquired3 s) :=
          acquireSrLine_of_free h'' hd''
        refine .inr ⟨h'', d2 ▸ hd'', ?_⟩
        rw [e1]
        simp only [acquireAll, e2, e3]
      · have e3 : acquireSrLine .latch (srAcquired2 s) = (false, acquireRefused (srAcquired2 s)) :=
          acquireSrLine_of_taken h''
        refine .inl ⟨d2 ▸ h'', ?_⟩
        rw [e1]
        simp only [acquireAll, e2, e3]
        rfl
    · have e2 : acquireSrLine .shclk (srAcquired1 s) = (false, acquireRefused (srAcquired1 s)) :=
        acquireSrLine_of_taken h'
      refine .inl ⟨d1 ▸ h', ?_⟩
      rw [e1]
      simp only [acquireAll, e2]
      rfl
  · refine .inl ⟨h, ?_⟩
    have e1 : acquireSrLine .data s = (false, acquireRefused s) := acquireSrLine_of_taken h
    simp only [srConstruct, e1]

/-- A pin taken and given back is as before. -/
theorem owner_set_back {p : Nat} {os : List Owner} {x : Owner} (h : os[p]? = some x) (y : Owner) :
    (os.set p y).set p x = os := by
  rw [List.set_set]
  apply List.ext_getElem?
  intro i
  rw [List.getElem?_set]
  split_ifs with h1 h2
  · subst h1; exact h.symm
  · subst h1
    rw [List.getElem?_eq_some_iff] at h
    exact absurd h.1 h2
  · rfl

/-! ### The three releases -/

/-- The three releases of a driver that holds its lines (40 R141). -/
theorem releaseAll_sr {s : State} (hm : ∀ l, (srLine s.sr l).mode = .output) :
    ∃ t, releaseAll releaseSrLine [.data, .shclk, .latch] s = t ∧
      t.sr = ⟨s.sr.phase, Line.idle, Line.idle, Line.idle,
        s.sr.trace ++ [.released .data, .released .shclk, .released .latch]⟩ ∧
      t.owner =
        ((s.owner.set s.cfg.pinData .free).set s.cfg.pinShclk .free).set s.cfg.pinLatch .free ∧
      t.cfg = s.cfg ∧ t.qd = s.qd ∧ t.status = s.status ∧ t.info = s.info ∧ t.result = s.result ∧
      t.fault = s.fault ∧ t.writeLost = s.writeLost ∧ t.host = s.host ∧
      t.env = { s.env with chipBit := t.env.chipBit } ∧
      t.chip.shift.length = 8 * s.cfg.chainDepth ∧ t.chip.out.length = 8 * s.cfg.chainDepth := by
  have h1 := hm .data
  have h2 := hm .shclk
  have h3 := hm .latch
  simp only [srLine] at h1 h2 h3
  refine ⟨_, rfl, ?_⟩
  simp [releaseAll, releaseSrLine, freePin, srLine, h1, h2, h3, setSrLine, srPin, freshChip]

end Sys2Proof.Machine
end

