-- ==== Sys2Proof/Laws/Quadrature.lean ====
section
/-! SUPPORT. What the construction, the polls and the count accesses of the quadrature decoder can do. -/

namespace Sys2Proof.Machine

open Sys2Proof.Config

/-! ### Acquisition of the three lines -/

/-- The state after a line of the decoder is acquired. -/
def qdLineAcquired (l : QdLine) (s : State) : State :=
  { s with
    qd := setQdLine l (qdMode s.cfg l) s.qd
    owner := s.owner.set (qdPin s.cfg l) .qd
    env := { s.env with denied := s.env.denied.drop 1 } }

def qdAcquired1 (s : State) : State := qdLineAcquired .a s

def qdAcquired2 (s : State) : State := qdLineAcquired .b (qdAcquired1 s)

def qdAcquired3 (s : State) : State := qdLineAcquired .sw (qdAcquired2 s)

/-- The point of `QD_INIT` just before its registration (41 R165). -/
def qdCleared (s : State) : State :=
  let s' := countAccess (countStore 0) s
  { s' with qd := { s'.qd with pending := 0 } }

/-- All `QD_INIT` can do after its state check (41 R165): a refusal at the first, second or third pin,
with what was acquired released, or all three lines and the rest of the construction. -/
theorem qdConstruct_cases (s : State) :
    ((s.owner[s.cfg.pinA]? ≠ some .free ∨ s.env.deniedAt 0 = true) ∧
      qdConstruct s = raiseUnavailable s.cfg.pinA (acquireRefused s)) ∨
    (s.owner[s.cfg.pinA]? = some .free ∧ s.env.deniedAt 0 = false ∧
      ((((qdAcquired1 s).owner[s.cfg.pinB]? ≠ some .free ∨ s.env.deniedAt 1 = true) ∧
          qdConstruct s = raiseUnavailable s.cfg.pinB
            (releaseQdLine .a (acquireRefused (qdAcquired1 s)))) ∨
        ((qdAcquired1 s).owner[s.cfg.pinB]? = some .free ∧ s.env.deniedAt 1 = false ∧
          ((((qdAcquired2 s).owner[s.cfg.pinSw]? ≠ some .free ∨ s.env.deniedAt 2 = true) ∧
              qdConstruct s = raiseUnavailable s.cfg.pinSw
                (releaseQdLine .b (releaseQdLine .a (acquireRefused (qdAcquired2 s))))) ∨
            ((qdAcquired2 s).owner[s.cfg.pinSw]? = some .free ∧ s.env.deniedAt 2 = false ∧
              qdConstruct s = qdRegister (qdCleared (qdAcquired3 s))))))) := by
  have d1 : (qdAcquired1 s).env.deniedAt 0 = s.env.deniedAt 1 := by
    simp [qdAcquired1, qdLineAcquired, Env.deniedAt]
  have d2 : (qdAcquired2 s).env.deniedAt 0 = s.env.deniedAt 2 := by
    simp [qdAcquired2, qdAcquired1, qdLineAcquired, Env.deniedAt]
  rcases acquireQdLine_cases .a s with ⟨h, hd⟩ | h
  · refine .inr ⟨h, hd, ?_⟩
    have e1 : acquireQdLine .a s = (true, qdAcquired1 s) := acquireQdLine_of_free h hd
    rcases acquireQdLine_cases .b (qdAcquired1 s) with ⟨h', hd'⟩ | h'
    · have e2 : acquireQdLine .b (qdAcquired1 s) = (true, qdAcquired2 s) :=
        acquireQdLine_of_free h' hd'
      refine .inr ⟨h', d1 ▸ hd', ?_⟩
      rcases acquireQdLine_cases .sw (qdAcquired2 s) with ⟨h'', hd''⟩ | h''
      · have e3 : acquireQdLine .sw (qdAcquired2 s) = (true, qdAcquired3 s) :=
          acquireQdLine_of_free h'' hd''
        refine .inr ⟨h'', d2 ▸ hd'', ?_⟩
        simp only [qdConstruct, qdLines, acquireAll, e1, e2, e3]
        rfl
      · have e3 : acquireQdLine .sw (qdAcquired2 s) = (false, acquireRefused (qdAcquired2 s)) :=
          acquireQdLine_of_taken h''
        refine .inl ⟨d2 ▸ h'', ?_⟩
        simp only [qdConstruct, qdLines, acquireAll, e1, e2, e3]
        rfl
    · have e2 : acquireQdLine .b (qdAcquired1 s) = (false, acquireRefused (qdAcquired1 s)) :=
        acquireQdLine_of_taken h'
      refine .inl ⟨d1 ▸ h', ?_⟩
      simp only [qdConstruct, qdLines, acquireAll, e1, e2]
      rfl
  · refine .inl ⟨h, ?_⟩
    have e1 : acquireQdLine .a s = (false, acquireRefused s) := acquireQdLine_of_taken h
    simp only [qdConstruct, qdLines, acquireAll, e1]
    rfl

/-- The three releases of a decoder that holds its lines (41 R165, R179). -/
theorem releaseAll_qd {s : State} (h : ∀ l, qdLine s.qd l ≠ .unconfigured) :
    releaseAll releaseQdLine qdLines s =
      { s with
        qd := { s.qd with a := .unconfigured, b := .unconfigured, sw := .unconfigured }
        owner := ((s.owner.set s.cfg.pinA .free).set s.cfg.pinB .free).set s.cfg.pinSw .free } := by
  have h1 := h .a
  have h2 := h .b
  have h3 := h .sw
  simp only [qdLine] at h1 h2 h3
  simp [releaseAll, qdLines, releaseQdLine, freePin, qdLine, h1, h2, h3, setQdLine, qdPin]

/-- The release sequence of a decoder that holds its lines (41 R179). -/
theorem qdReleaseAll_of_held {s : State} (h : ∀ l, qdLine s.qd l ≠ .unconfigured) :
    qdReleaseAll s = endWith .ok
      { s with
        qd := ⟨.released, .unconfigured, .unconfigured, .unconfigured, s.qd.count, s.qd.lastA, false, 0⟩
        owner := ((s.owner.set s.cfg.pinA .free).set s.cfg.pinB .free).set s.cfg.pinSw .free } := by
  have h1 := h .a
  have h2 := h .b
  have h3 := h .sw
  simp only [qdLine] at h1 h2 h3
  simp [qdReleaseAll, releaseAll, qdLines, releaseQdLine, freePin, qdLine, h1, h2, h3, setQdLine, qdPin]

/-! ### Count accesses -/

/-- An access at whose two points no other agent steps. -/
theorem countAccess_of_quiet {access : State → State} {s : State} (h : quietInside 2 s)
    (hi : ∀ u, (access u).env.inside = u.env.inside) :
    countAccess access s =
      let u := access { s with env := { s.env with inside := s.env.inside.drop 1 } }
      { u with env := { u.env with inside := s.env.inside.drop 2 } } := by
  have h0 : s.env.insideAt 0 = [] := h 0 (by omega)
  have h1 : s.env.insideAt 1 = [] := h 1 (by omega)
  simp only [countAccess, interleave_of_quiet h0]
  rw [interleave_of_quiet]
  · rw [hi]
    simp
  · simpa [Env.insideAt, hi] using h1

/-- What a count access leaves alone: all but the count, `result`, the pending edges and the switch. -/
structure CountFrame (s t : State) : Prop where
  cfg : t.cfg = s.cfg
  sr : t.sr = s.sr
  chip : t.chip = s.chip
  qd : t.qd = { s.qd with count := t.qd.count, pending := t.qd.pending }
  pending : s.qd.registered = false → t.qd.pending = s.qd.pending
  owner : t.owner = s.owner
  status : t.status = s.status
  info : t.info = s.info
  fault : t.fault = s.fault
  lost : t.writeLost = s.writeLost
  host : t.host = s.host
  env : t.env = { s.env with sw := t.env.sw, inside := s.env.inside.drop 2 }

/-- A count access whose own action writes only the count and `result`. -/
theorem countAccess_frame {access : State → State} (s : State)
    (hq : ∀ u, (access u).qd = { u.qd with count := (access u).qd.count })
    (ha : ∀ u, access u = { u with qd := (access u).qd, result := (access u).result }) :
    CountFrame s (countAccess access s) := by
  have f1 := (interleave_frame s).1
  have i1 := (interleave_frame s).2
  have f2 := (interleave_frame (access (interleave s))).1
  have i2 := (interleave_frame (access (interleave s))).2
  have a1 := ha (interleave s)
  have q1 := hq (interleave s)
  have e1 : (access (interleave s)).env = (interleave s).env := by rw [a1]
  constructor
  · exact f2.cfg.trans ((by rw [a1] : (access (interleave s)).cfg = _).trans f1.cfg)
  · exact f2.sr.trans ((by rw [a1] : (access (interleave s)).sr = _).trans f1.sr)
  · exact f2.chip.trans ((by rw [a1] : (access (interleave s)).chip = _).trans f1.chip)
  · show (interleave (access (interleave s))).qd = _
    rw [f2.qd, q1, f1.qd]
    rfl
  · intro hr
    have hr1 : (interleave s).qd.registered = false := f1.registered.trans hr
    have hr2 : (access (interleave s)).qd.registered = false := by rw [q1]; exact hr1
    refine (f2.pending hr2).trans (Eq.trans ?_ (f1.pending hr))
    rw [q1]
  · exact f2.owner.trans ((by rw [a1] : (access (interleave s)).owner = _).trans f1.owner)
  · exact f2.status.trans ((by rw [a1] : (access (interleave s)).status = _).trans f1.status)
  · exact f2.info.trans ((by rw [a1] : (access (interleave s)).info = _).trans f1.info)
  · exact f2.fault.trans ((by rw [a1] : (access (interleave s)).fault = _).trans f1.fault)
  · exact f2.lost.trans ((by rw [a1] : (access (interleave s)).writeLost = _).trans f1.lost)
  · exact f2.host.trans ((by rw [a1] : (access (interleave s)).host = _).trans f1.host)
  · show (interleave (access (interleave s))).env = _
    rw [f2.env, e1, f1.env, i2, e1, i1]
    simp [countAccess]

theorem countStore_access_frame (n : Int) (s : State) :
    CountFrame s (countAccess (countStore n) s) ∧
      (countAccess (countStore n) s).result = s.result := by
  refine ⟨countAccess_frame s (fun _ => rfl) (fun _ => rfl), ?_⟩
  exact (interleave_frame _).1.result.trans (interleave_frame s).1.result

theorem countAdd_access_frame (d : Int) (s : State) :
    CountFrame s (countAccess (countAdd d) s) ∧ (countAccess (countAdd d) s).result = s.result := by
  refine ⟨countAccess_frame s (fun _ => rfl) (fun _ => rfl), ?_⟩
  exact (interleave_frame _).1.result.trans (interleave_frame s).1.result

theorem countLoad_access_frame (s : State) : CountFrame s (countAccess countLoad s) :=
  countAccess_frame s (fun _ => rfl) (fun _ => rfl)

/-- A store of 0 leaves 0 whatever other agents do at its two points: their deliveries store 0 too. -/
theorem countStore_zero_count (s : State) : (countAccess (countStore 0) s).qd.count = some 0 := by
  rcases (interleave_frame (countStore 0 (interleave s))).1.count with h | h
  · exact h
  · exact h.1

/-! ### Reads -/

/-- What the two reads of a poll can do (41 R170, R175). -/
theorem pollStep_cases (s : State) :
    (s.env.failsAt 0 = true ∧ pollStep s = qdLost { takeFails s with fault := true }) ∨
    (s.env.failsAt 0 = false ∧ s.env.failsAt 1 = true ∧
      pollStep s = qdLost
        { s with
          fault := true
          env := { s.env with fails := s.env.fails.drop 2, input := s.env.input.drop 1 } }) ∨
    (s.env.failsAt 0 = false ∧ s.env.failsAt 1 = false ∧
      pollStep s = pollSamples (s.env.inputAt 0) (s.env.inputAt 1)
        { s with
          env := { s.env with fails := s.env.fails.drop 2, input := s.env.input.drop 2 } }) := by
  cases h0 : s.env.failsAt 0
  · right
    simp only [pollStep, readLevel_of_ok h0]
    cases h1 : s.env.failsAt 1
    · right
      rw [readLevel_of_ok (by simpa [Env.failsAt] using h1)]
      simp [Env.inputAt]
    · left
      rw [readLevel_of_lost (by simpa [Env.failsAt] using h1)]
      simp [takeFails]
  · left
    simp [pollStep, readLevel_of_lost h0]

/-- What `QD_INIT` can do from its registration on (41 R165, R168). -/
theorem qdRegister_cases (s : State) (h : ∀ l, qdLine s.qd l ≠ .unconfigured) :
    (s.env.rejectedAt 0 = true ∧
      qdRegister s = endWith .notificationSetupFailed
        { s with
          qd :=
            { s.qd with
              a := .unconfigured
              b := .unconfigured
              sw := .unconfigured
              count := none }
          owner := ((s.owner.set s.cfg.pinA .free).set s.cfg.pinB .free).set s.cfg.pinSw .free
          env := { s.env with rejected := s.env.rejected.drop 1 } }) ∨
    (s.env.rejectedAt 0 = false ∧ ∃ u,
      u = interleave
        { s with
          qd := { s.qd with registered := true }
          env := { s.env with rejected := s.env.rejected.drop 1 } } ∧
      ((s.env.failsAt 0 = true ∧ qdRegister s = qdLost { takeFails u with fault := true }) ∨
        (s.env.failsAt 0 = false ∧ qdRegister s = endWith .ok
          { u with
            qd := { u.qd with lastA := some (s.env.inputAt 0), phase := .live }
            env := { u.env with fails := u.env.fails.drop 1, input := u.env.input.drop 1 } }))) := by
  cases hr : s.env.rejectedAt 0
  · refine .inr ⟨rfl, _, rfl, ?_⟩
    have e : onFallingEdge s = (true,
        { s with
          qd := { s.qd with registered := true }
          env := { s.env with rejected := s.env.rejected.drop 1 } }) := by simp [onFallingEdge, hr]
    simp only [qdRegister, e]
    have f := (interleave_frame
      { s with
        qd := { s.qd with registered := true }
        env := { s.env with rejected := s.env.rejected.drop 1 } }).1.env
    generalize interleave _ = u at f ⊢
    have hf : u.env.failsAt 0 = s.env.failsAt 0 := by rw [f]; rfl
    have hi : u.env.inputAt 0 = s.env.inputAt 0 := by rw [f]; rfl
    cases h0 : s.env.failsAt 0
    · exact .inr ⟨rfl, by rw [readLevel_of_ok (hf.trans h0), hi]⟩
    · exact .inl ⟨rfl, by rw [readLevel_of_lost (hf.trans h0)]⟩
  · refine .inl ⟨rfl, ?_⟩
    have e : onFallingEdge s = (false,
        { s with env := { s.env with rejected := s.env.rejected.drop 1 } }) := by
      simp [onFallingEdge, hr]
    simp only [qdRegister, e]
    rw [releaseAll_qd (by exact h)]

end Sys2Proof.Machine
end

