-- ==== Sys2Proof/Laws/Step.lean ====
section
/-! SUPPORT. What each command and each step can do, said once: the commands by their cases, the elements
each component's commands leave alone, and the step by whose turn it takes. -/

namespace Sys2Proof.Machine

open Sys2Proof.Config

/-! ### The elements a component's commands leave alone -/

/-- What the commands of the driver leave alone (00_scope R2); their trace only grows. -/
structure SrSide (s t : State) : Prop where
  cfg : t.cfg = s.cfg
  trace : ∃ es, t.sr.trace = s.sr.trace ++ es
  qd : t.qd = s.qd
  result : t.result = s.result
  host : t.host = s.host
  env : t.env = { s.env with
    denied := t.env.denied, fails := t.env.fails, level := t.env.level, chipBit := t.env.chipBit }

/-- What the commands of the decoder leave alone. -/
structure QdSide (s t : State) : Prop where
  cfg : t.cfg = s.cfg
  sr : t.sr = s.sr
  chip : t.chip = s.chip
  lost : t.writeLost = s.writeLost
  host : t.host = s.host
  env : t.env = { s.env with
    sw := t.env.sw, denied := t.env.denied, rejected := t.env.rejected, fails := t.env.fails,
    input := t.env.input, inside := t.env.inside }

theorem SrSide.trans {s t u : State} (h : SrSide s t) (k : SrSide t u) : SrSide s u where
  cfg := k.cfg.trans h.cfg
  trace := by
    obtain ⟨es, he⟩ := h.trace
    obtain ⟨fs, hf⟩ := k.trace
    exact ⟨es ++ fs, by rw [hf, he, List.append_assoc]⟩
  qd := k.qd.trans h.qd
  result := k.result.trans h.result
  host := k.host.trans h.host
  env := by rw [k.env, h.env]

theorem QdSide.trans {s t u : State} (h : QdSide s t) (k : QdSide t u) : QdSide s u where
  cfg := k.cfg.trans h.cfg
  sr := k.sr.trans h.sr
  chip := k.chip.trans h.chip
  lost := k.lost.trans h.lost
  host := k.host.trans h.host
  env := by rw [k.env, h.env]

theorem SrFrame.side {n : Nat} {s t : State} (h : SrFrame n s t) : SrSide s t where
  cfg := h.cfg
  trace := h.trace
  qd := h.qd
  result := h.result
  host := h.host
  env := by rw [h.env]

theorem AsyncFrame.side {s t : State} (h : AsyncFrame s t) : QdSide s t where
  cfg := h.cfg
  sr := h.sr
  chip := h.chip
  lost := h.lost
  host := h.host
  env := by rw [h.env]

theorem CountFrame.side {s t : State} (h : CountFrame s t) : QdSide s t where
  cfg := h.cfg
  sr := h.sr
  chip := h.chip
  lost := h.lost
  host := h.host
  env := by rw [h.env]

theorem endWith_srSide (st : Status) (s : State) : SrSide s (endWith st s) :=
  ⟨rfl, ⟨[], by simp⟩, rfl, rfl, rfl, rfl⟩

theorem endWith_qdSide (st : Status) (s : State) : QdSide s (endWith st s) :=
  ⟨rfl, rfl, rfl, rfl, rfl, rfl⟩

theorem releaseSrLine_side (l : SrLine) (s : State) : SrSide s (releaseSrLine l s) := by
  unfold releaseSrLine freePin
  split <;> exact ⟨rfl, ⟨[.released l], by simp⟩, rfl, rfl, rfl, rfl⟩

theorem teardownRelease_side (s : State) : SrSide s (teardownRelease s) := by
  have h : SrSide s (releaseAll releaseSrLine [.data, .shclk, .latch] s) :=
    ((releaseSrLine_side .data s).trans (releaseSrLine_side .shclk _)).trans
      (releaseSrLine_side .latch _)
  refine h.trans ?_
  exact ⟨rfl, ⟨[], by simp [teardownRelease]⟩, rfl, rfl, rfl, rfl⟩

theorem endSr_side (r : Bool × State) : SrSide r.2 (endSr r) := by
  unfold endSr srLost
  split <;> exact ⟨rfl, ⟨[], by simp⟩, rfl, rfl, rfl, rfl⟩

theorem srDriveLow_side (s : State) : SrSide s (srDriveLow s) := by
  obtain ⟨n, _, h⟩ := runActions_frame lowActions s
  refine h.side.trans ?_
  unfold srDriveLow srLost
  simp only
  split <;> exact ⟨rfl, ⟨[], by simp⟩, rfl, rfl, rfl, rfl⟩

theorem srLineAcquired_side (l : SrLine) (s : State) : SrSide s (srLineAcquired l s) :=
  ⟨rfl, ⟨[], by simp [srLineAcquired]⟩, rfl, rfl, rfl, rfl⟩

theorem srConstruct_side (s : State) : SrSide s (srConstruct s) := by
  have a1 : SrSide s (srAcquired1 s) :=
    (srLineAcquired_side .data s).trans ⟨rfl, ⟨[], by simp [srAcquired1]⟩, rfl, rfl, rfl, rfl⟩
  have a2 := a1.trans (srLineAcquired_side .shclk _)
  have a3 := a2.trans (srLineAcquired_side .latch _)
  have refused : ∀ u, SrSide u (acquireRefused u) :=
    fun u => ⟨rfl, ⟨[], by simp [acquireRefused]⟩, rfl, rfl, rfl, rfl⟩
  have raised : ∀ p u, SrSide u (raiseUnavailable p u) :=
    fun p u => ⟨rfl, ⟨[], by simp⟩, rfl, rfl, rfl, rfl⟩
  rcases srConstruct_cases s with ⟨_, h⟩ | ⟨_, _, ⟨_, h⟩ | ⟨_, _, ⟨_, h⟩ | ⟨_, _, h⟩⟩⟩ <;> rw [h]
  · exact (refused s).trans (raised _ _)
  · exact (a1.trans (refused _)).trans ((releaseSrLine_side .data _).trans (raised _ _))
  · exact (a2.trans (refused _)).trans
      ((releaseSrLine_side .data _).trans ((releaseSrLine_side .shclk _).trans (raised _ _)))
  · exact a3.trans (srDriveLow_side _)

theorem releaseQdLine_side (l : QdLine) (s : State) : QdSide s (releaseQdLine l s) := by
  unfold releaseQdLine freePin
  split <;> exact ⟨rfl, rfl, rfl, rfl, rfl, rfl⟩

theorem releaseAll_qd_side (s : State) : QdSide s (releaseAll releaseQdLine qdLines s) :=
  ((releaseQdLine_side .a s).trans (releaseQdLine_side .b _)).trans (releaseQdLine_side .sw _)

theorem readLevel_side (l : QdLine) (s : State) : QdSide s (readLevel l s).2 := by
  unfold readLevel
  split <;> exact ⟨rfl, rfl, rfl, rfl, rfl, rfl⟩

theorem qdRegister_side (s : State) : QdSide s (qdRegister s) := by
  have h1 : QdSide s (onFallingEdge s).2 := by
    unfold onFallingEdge
    simp only
    split <;> exact ⟨rfl, rfl, rfl, rfl, rfl, rfl⟩
  unfold qdRegister
  split
  · rename_i s1 e
    rw [e] at h1
    exact h1.trans ((releaseAll_qd_side s1).trans ⟨rfl, rfl, rfl, rfl, rfl, rfl⟩)
  · rename_i s1 e
    rw [e] at h1
    have h2 := h1.trans (interleave_frame s1).1.side
    have h3 := h2.trans (readLevel_side .a (interleave s1))
    split
    · rename_i s2 e2
      rw [e2] at h3
      exact h3.trans ⟨rfl, rfl, rfl, rfl, rfl, rfl⟩
    · rename_i v s2 e2
      rw [e2] at h3
      exact h3.trans ⟨rfl, rfl, rfl, rfl, rfl, rfl⟩

theorem qdConstruct_side (s : State) : QdSide s (qdConstruct s) := by
  have acq : ∀ l u, QdSide u (qdLineAcquired l u) := fun _ _ => ⟨rfl, rfl, rfl, rfl, rfl, rfl⟩
  have a1 := acq .a s
  have a2 := a1.trans (acq .b _)
  have a3 := a2.trans (acq .sw _)
  have refused : ∀ u, QdSide u (acquireRefused u) := fun _ => ⟨rfl, rfl, rfl, rfl, rfl, rfl⟩
  have raised : ∀ p u, QdSide u (raiseUnavailable p u) := fun _ _ => ⟨rfl, rfl, rfl, rfl, rfl, rfl⟩
  rcases qdConstruct_cases s with ⟨_, h⟩ | ⟨_, _, ⟨_, h⟩ | ⟨_, _, ⟨_, h⟩ | ⟨_, _, h⟩⟩⟩ <;> rw [h]
  · exact (refused s).trans (raised _ _)
  · exact (a1.trans (refused _)).trans ((releaseQdLine_side .a _).trans (raised _ _))
  · exact (a2.trans (refused _)).trans
      ((releaseQdLine_side .a _).trans ((releaseQdLine_side .b _).trans (raised _ _)))
  · refine (a3.trans ?_).trans (qdRegister_side _)
    exact (countStore_access_frame 0 _).1.side.trans ⟨rfl, rfl, rfl, rfl, rfl, rfl⟩

theorem pollSamples_side (a b : Bool) (s : State) : QdSide s (pollSamples a b s) := by
  unfold pollSamples
  simp only
  split
  · exact ⟨rfl, rfl, rfl, rfl, rfl, rfl⟩
  · exact (countAdd_access_frame (pollDelta a b) s).1.side.trans ⟨rfl, rfl, rfl, rfl, rfl, rfl⟩

theorem pollStep_side (s : State) : QdSide s (pollStep s) := by
  rcases pollStep_cases s with ⟨_, h⟩ | ⟨_, _, h⟩ | ⟨_, _, h⟩ <;> rw [h]
  · exact ⟨rfl, rfl, rfl, rfl, rfl, rfl⟩
  · exact ⟨rfl, rfl, rfl, rfl, rfl, rfl⟩
  · refine QdSide.trans ?_ (pollSamples_side _ _ _)
    exact ⟨rfl, rfl, rfl, rfl, rfl, rfl⟩

theorem qdReleaseAll_side (s : State) : QdSide s (qdReleaseAll s) := by
  refine QdSide.trans ?_ (QdSide.trans (releaseAll_qd_side
    { s with qd := { s.qd with registered := false, pending := 0 } }) ?_)
  · exact ⟨rfl, rfl, rfl, rfl, rfl, rfl⟩
  · exact ⟨rfl, rfl, rfl, rfl, rfl, rfl⟩

/-! ### The commands by their cases -/

theorem execSrInit_next {s t : State} (h : execSrInit s = .next t) :
    (s.sr.phase ≠ .unconstructed ∧ t = endWith .lifecycleError s) ∨
      (s.sr.phase = .unconstructed ∧ t = srConstruct s) := by
  unfold execSrInit at h
  split_ifs at h with hp <;> cases h
  · exact .inl ⟨hp, rfl⟩
  · exact .inr ⟨by simpa using hp, rfl⟩

theorem execSrSerialize_next {b : Byte} {s t : State} (h : execSrSerialize b s = .next t) :
    (s.sr.phase ≠ .ready ∧ t = endWith .lifecycleError s) ∨
      (s.sr.phase = .ready ∧ srLinesDriven s.sr = true ∧
        t = endSr (runActions (serializeActions s.cfg.bitOrder b) s)) := by
  unfold execSrSerialize at h
  split_ifs at h with hp hd <;> cases h
  · exact .inl ⟨hp, rfl⟩
  · exact .inr ⟨by simpa using hp, by simpa using hd, rfl⟩

theorem execSrLatch_next {s t : State} (h : execSrLatch s = .next t) :
    (s.sr.phase ≠ .ready ∧ t = endWith .lifecycleError s) ∨
      (s.sr.phase = .ready ∧ srLinesDriven s.sr = true ∧ t = endSr (runActions (pulse .latch) s)) := by
  unfold execSrLatch at h
  split_ifs at h with hp hd <;> cases h
  · exact .inl ⟨hp, rfl⟩
  · exact .inr ⟨by simpa using hp, by simpa using hd, rfl⟩

theorem execSrTeardown_next {s t : State} (h : execSrTeardown s = .next t) :
    (s.sr.phase = .unconstructed ∧ t = endWith .lifecycleError s) ∨
      (s.sr.phase = .tornDown ∧ t = endWith .ok s) ∨
      (srHolds s ∧ srLinesDriven s.sr = true ∧ t = teardownRelease (teardownDriven s)) := by
  unfold execSrTeardown at h
  split at h
  · cases h; exact .inl ⟨by assumption, rfl⟩
  · cases h; exact .inr (.inl ⟨by assumption, rfl⟩)
  · rename_i h1 h2
    split_ifs at h with hd
    refine .inr (.inr ⟨?_, by simpa using hd, (Host.Outcome.next.inj h).symm⟩)
    cases hp : s.sr.phase
    · exact absurd hp h1
    · exact .inl hp
    · exact .inr hp
    · exact absurd hp h2

theorem execQdInit_next {s t : State} (h : execQdInit s = .next t) :
    (s.qd.phase ≠ .unconstructed ∧ t = endWith .lifecycleError s) ∨
      (s.qd.phase = .unconstructed ∧ t = qdConstruct s) := by
  unfold execQdInit at h
  split_ifs at h with hp <;> cases h
  · exact .inl ⟨hp, rfl⟩
  · exact .inr ⟨by simpa using hp, rfl⟩

theorem execQdPoll_next {s t : State} (h : execQdPoll s = .next t) :
    (s.qd.phase ≠ .live ∧ t = endWith .lifecycleError s) ∨
      (s.qd.phase = .live ∧ qdLinesHeld s.qd = true ∧ s.qd.lastA ≠ none ∧ s.qd.count ≠ none ∧
        t = pollStep s) := by
  unfold execQdPoll at h
  split_ifs at h with hp hl ha hc <;> cases h
  · exact .inl ⟨hp, rfl⟩
  · exact .inr ⟨by simpa using hp, by simpa using hl, ha, hc, rfl⟩

theorem execQdReadCount_next {s t : State} (h : execQdReadCount s = .next t) :
    (s.qd.phase = .unconstructed ∧ t = endWith .lifecycleError s) ∨
      (s.qd.phase ≠ .unconstructed ∧ s.qd.count ≠ none ∧ t = endWith .ok (countAccess countLoad s)) := by
  unfold execQdReadCount at h
  split_ifs at h with hp hc <;> cases h
  · exact .inl ⟨hp, rfl⟩
  · exact .inr ⟨hp, hc, rfl⟩

theorem execQdReset_next {s t : State} (h : execQdReset s = .next t) :
    (s.qd.phase = .unconstructed ∧ t = endWith .lifecycleError s) ∨
      (s.qd.phase ≠ .unconstructed ∧ t = endWith .ok (countAccess (countStore 0) s)) := by
  unfold execQdReset at h
  split_ifs at h with hp <;> cases h
  · exact .inl ⟨hp, rfl⟩
  · exact .inr ⟨hp, rfl⟩

theorem execQdRelease_next {s t : State} (h : execQdRelease s = .next t) :
    (s.qd.phase = .unconstructed ∧ t = endWith .lifecycleError s) ∨
      (s.qd.phase = .released ∧ t = endWith .ok s) ∨ (qdHolds s ∧ t = qdReleaseAll s) := by
  unfold execQdRelease at h
  split at h
  · cases h; exact .inl ⟨by assumption, rfl⟩
  · cases h; exact .inr (.inl ⟨by assumption, rfl⟩)
  · rename_i h1 h2
    cases h
    refine .inr (.inr ⟨?_, rfl⟩)
    cases hp : s.qd.phase
    · exact absurd hp h1
    · exact .inl hp
    · exact .inr hp
    · exact absurd hp h2

/-! ### The step by its cases -/

/-- A step that answers a next state: a legal launch with one host, and the turn of the host, which
issues its next word, or of another agent. -/
theorem step_next {s t : State} (h : step s = .next t) :
    launchLegal s = true ∧ s.host.second = false ∧ ∃ w rest, s.host.words = w :: rest ∧
      ((s.env.turnAt 0 = .host ∧
          ((∃ why, decode w = .illegal why ∧ t = endWith .illegalCommand (issued rest s)) ∨
            ∃ i, decode w = .command i ∧ exec i (issued rest s) = .next t)) ∨
        ∃ a, s.env.turnAt 0 = .agent a ∧ t = asyncStep a (turnTaken s)) := by
  unfold step at h
  split_ifs at h with hl h2
  refine ⟨by simpa using hl, by simpa using h2, ?_⟩
  split at h
  · cases h
  · rename_i w rest hw
    refine ⟨w, rest, hw, ?_⟩
    unfold takeTurn issue at h
    split at h
    · rename_i ht
      refine .inl ⟨ht, ?_⟩
      split at h
      · rename_i i hi
        exact .inr ⟨i, hi, h⟩
      · rename_i why hi
        cases h
        exact .inl ⟨why, hi, rfl⟩
    · rename_i a ha
      cases h
      exact .inr ⟨a, ha, rfl⟩

end Sys2Proof.Machine
end

