-- ==== Sys2Proof/Laws/Observation.lean ====
section
/-! SUPPORT. What the trace says of the driver and the chip, event by event. -/

namespace Sys2Proof.Machine

open Sys2Proof.Config

/-! ### Known bits -/

/-- A record that knows nothing is right of any register of its width. -/
theorem knownBits_unknown {depth : Nat} {bits : List Bool} (h : bits.length = 8 * depth) :
    knownBits (unknownBits depth) bits := by
  unfold unknownBits
  rw [← h]
  clear h
  induction bits with
  | nil => exact .nil
  | cons b bs ih => exact .cons (fun _ h => nomatch h) ih

/-! ### One event -/

@[simp] theorem tracedLevel_setTracedLevel (l m : SrLine) (x : Option Bool) (t : Traced) :
    tracedLevel (setTracedLevel l x t) m = if m = l then x else tracedLevel t m := by
  cases l <;> cases m <;> rfl

@[simp] theorem setTracedLevel_shift (l : SrLine) (x : Option Bool) (t : Traced) :
    (setTracedLevel l x t).shift = t.shift := by cases l <;> rfl

@[simp] theorem setTracedLevel_out (l : SrLine) (x : Option Bool) (t : Traced) :
    (setTracedLevel l x t).out = t.out := by cases l <;> rfl

@[simp] theorem setTracedLevel_atRelease (l : SrLine) (x : Option Bool) (t : Traced) :
    (setTracedLevel l x t).atRelease = t.atRelease := by cases l <;> rfl

@[simp] theorem tracedLevel_tracedEdge (depth : Nat) (l m : SrLine) (t : Traced) :
    tracedLevel (tracedEdge depth l t) m = tracedLevel t m := by cases l <;> cases m <;> rfl

@[simp] theorem tracedLevel_tracedBlur (depth : Nat) (l m : SrLine) (t : Traced) :
    tracedLevel (tracedBlur depth l t) m = tracedLevel t m := by cases l <;> cases m <;> rfl

/-- An event gives its line its level and leaves the others. -/
theorem tracedLevel_event (depth : Nat) (l m : SrLine) (v : Bool) (t : Traced) :
    tracedLevel (tracedEvent depth t (.level l v)) m = if m = l then some v else tracedLevel t m := by
  simp only [tracedEvent, tracedLevel_setTracedLevel]
  split
  · rfl
  · split
    · rfl
    · split <;> simp

theorem traced_append (depth : Nat) (es fs : List Event) :
    traced depth (es ++ fs) = fs.foldl (tracedEvent depth) (traced depth es) := by
  simp [traced, List.foldl_append]

/-- What a trace says is right of a driver and a chip: each level and each bit it gives. -/
structure TraceSound (t : Traced) (sr : Sr) (c : Chip) : Prop where
  level : ∀ l x, tracedLevel t l = some x → (srLine sr l).level = some x
  shift : knownBits t.shift c.shift
  out : knownBits t.out c.out

/-- The registers of the chip are full. -/
abbrev chipFull (depth : Nat) (c : Chip) : Prop := c.shift.length = 8 * depth ∧ c.out.length = 8 * depth

/-- A write keeps what the trace says right. -/
theorem TraceSound.event {depth : Nat} {t : Traced} {sr : Sr} {c : Chip} (h : TraceSound t sr c)
    (hd : sr.data.level.isSome = true) (w : chipFull depth c) (l : SrLine) (v : Bool) :
    TraceSound (tracedEvent depth t (.level l v)) (setSrLevel l v sr)
      (chipEvent .rising depth sr.data.level l (srLine sr l).level v c) := by
  have w' := chipEvent_width (e := .rising) (d := sr.data.level) (l := l) (old := (srLine sr l).level)
    (v := v) w.1 w.2
  have bits : knownBits (tracedEvent depth t (.level l v)).shift
        (chipEvent .rising depth sr.data.level l (srLine sr l).level v c).shift ∧
      knownBits (tracedEvent depth t (.level l v)).out
        (chipEvent .rising depth sr.data.level l (srLine sr l).level v c).out := by
    simp only [tracedEvent, setTracedLevel_shift, setTracedLevel_out]
    cases v
    · simpa [chipEvent, isEdge] using ⟨h.shift, h.out⟩
    · simp only [Bool.true_eq_false, if_false]
      cases e : tracedLevel t l with
      | none =>
        cases l
        · simpa [tracedBlur, chipEvent] using ⟨h.shift, h.out⟩
        · exact ⟨knownBits_unknown w'.1, by rw [chipEvent_out (by decide)]; exact h.out⟩
        · refine ⟨?_, knownBits_unknown w'.2⟩
          cases k : isEdge .rising (srLine sr .latch).level true <;>
            simpa [chipEvent, k, tracedBlur] using h.shift
      | some x =>
        have e' := h.level l x e
        cases x
        · obtain ⟨d, hd⟩ := Option.isSome_iff_exists.1 hd
          simp only [chipEvent, isEdge, e', hd, decide_true, Bool.true_and, if_true]
          cases l
          · exact ⟨h.shift, h.out⟩
          · refine ⟨List.forall₂_take _ (.cons (fun x hx => ?_) h.shift), h.out⟩
            have := h.level .data x hx
            simp only [srLine, hd] at this
            exact (Option.some.inj this).symm
          · exact ⟨h.shift, h.shift⟩
        · simpa [chipEvent, isEdge, e'] using ⟨h.shift, h.out⟩
  refine ⟨fun m x hx => ?_, bits.1, bits.2⟩
  rw [tracedLevel_event] at hx
  rw [srLine_setSrLevel_level]
  split_ifs at hx ⊢
  · exact hx
  · exact h.level m x hx

/-! ### Writes and releases of a state -/

theorem tracedOf_writeLevel (l : SrLine) (v : Bool) (s : State) :
    tracedOf (writeLevel l v (takeFails s)) =
      tracedEvent s.cfg.chainDepth (tracedOf s) (.level l v) := by
  simp [tracedOf, traced_append]

/-- Writes none of which fails keep what the trace says right. -/
theorem TraceSound.writeAll {as : List Action} {s : State} (h : TraceSound (tracedOf s) s.sr s.chip)
    (hd : ∀ l, (srLine s.sr l).level.isSome = true) (w : chipFull s.cfg.chainDepth s.chip) :
    TraceSound (tracedOf (writeAll as s)) (writeAll as s).sr (writeAll as s).chip := by
  induction as generalizing s with
  | nil => exact h
  | cons a as ih =>
    cases a with
    | delay => exact ih h hd w
    | set l v =>
      have f := writeLevel_frame l v s
      refine ih ?_ (f.driven hd) (by have := f.width w; rwa [f.cfg])
      rw [tracedOf_writeLevel]
      have k := h.event (hd .data) w l v
      refine ⟨fun m x hx => ?_, k.shift, k.out⟩
      rw [writeLevel_sr, srLine_trace]
      exact k.level m x hx

/-- After writes none of which fails, the trace gives a level to each line written and to each line it
gave one before. -/
theorem tracedLevel_writeAll {as : List Action} {s : State} {l : SrLine}
    (h : (∃ v, .set l v ∈ as) ∨ (tracedLevel (tracedOf s) l).isSome = true) :
    (tracedLevel (tracedOf (writeAll as s)) l).isSome = true := by
  induction as generalizing s with
  | nil => simpa [writeAll] using h
  | cons a as ih =>
    cases a with
    | delay => exact ih (by simpa using h)
    | set m v =>
      refine ih ?_
      rw [tracedOf_writeLevel, tracedLevel_event]
      split
      · exact .inr rfl
      · rename_i hm
        simpa [hm] using h

/-- A release leaves nothing known of the chip, and no level of the line. -/
theorem tracedEvent_released (depth : Nat) (l : SrLine) (t : Traced) :
    (tracedEvent depth t (.released l)).shift = unknownBits depth ∧
      (tracedEvent depth t (.released l)).out = unknownBits depth ∧
      ∀ m, tracedLevel (tracedEvent depth t (.released l)) m =
        if m = l then none else tracedLevel t m := by
  refine ⟨by simp [tracedEvent], by simp [tracedEvent], fun m => ?_⟩
  simp only [tracedEvent, tracedLevel_setTracedLevel]
  cases m <;> rfl

/-- A record that knows nothing: no level and no bit. -/
abbrev tracedNothing (depth : Nat) (t : Traced) : Prop :=
  t.shift = unknownBits depth ∧ t.out = unknownBits depth ∧ ∀ l, tracedLevel t l = none

/-- Releases leave a record that knows nothing as it was. -/
theorem tracedNothing_releases {depth : Nat} (ls : List SrLine) {t : Traced}
    (h : tracedNothing depth t) :
    tracedNothing depth ((ls.map Event.released).foldl (tracedEvent depth) t) := by
  induction ls generalizing t with
  | nil => exact h
  | cons l ls ih =>
    obtain ⟨h1, h2, h3⟩ := tracedEvent_released depth l t
    refine ih ⟨h1, h2, fun m => ?_⟩
    rw [h3]
    split
    · rfl
    · exact h.2.2 m

/-- After the three releases of a teardown nothing is known, whatever was known before; the outputs are
kept where the three lines were driven. -/
theorem traced_teardown (depth : Nat) (es : List Event) :
    tracedNothing depth
        (traced depth (es ++ [.released .data, .released .shclk, .released .latch])) ∧
      ((∀ l, (tracedLevel (traced depth es) l).isSome = true) →
        (traced depth (es ++ [.released .data, .released .shclk, .released .latch])).atRelease =
          some (traced depth es).out) := by
  rw [traced_append]
  refine ⟨⟨by simp [tracedEvent], by simp [tracedEvent], fun l => ?_⟩, fun h => ?_⟩
  · cases l <;> simp [tracedEvent, setTracedLevel, tracedLevel]
  · have h1 := h .data
    have h2 := h .shclk
    have h3 := h .latch
    simp only [tracedLevel] at h1 h2 h3
    simp [tracedEvent, tracedAtRelease, setTracedLevel, h1, h2, h3]

/-! ### What a serialize and a latch make known -/

/-- One data-and-pulse pair from a known low shift clock: one known bit is shifted in. -/
theorem traced_bitPair (depth : Nat) (v : Bool) (t : Traced) (h : t.shclk = some false) :
    (actionEvents (bitPair v)).foldl (tracedEvent depth) t =
      { t with data := some v, shift := (some v :: t.shift).take (8 * depth) } := by
  obtain ⟨d, c, a, _, _, _⟩ := t
  simp only at h
  subst h
  rcases d with _ | _ | _ <;> cases v <;>
    simp [actionEvents, bitPair, pulse, tracedEvent, setTracedLevel, tracedLevel, tracedEdge, tracedBlur]

/-- Pairs from a known low shift clock: their bits are known, the first one deepest. -/
theorem traced_bitPairs (depth : Nat) (vs : List Bool) (t : Traced) (h : t.shclk = some false)
    (w : t.shift.length = 8 * depth) :
    ((actionEvents (vs.flatMap bitPair)).foldl (tracedEvent depth) t) =
      { t with
        data := vs.getLast?.orElse (fun _ => t.data)
        shift := (vs.reverse.map some ++ t.shift).take (8 * depth) } := by
  induction vs generalizing t with
  | nil => simp [actionEvents, ← w]
  | cons v vs ih =>
    rw [List.flatMap_cons, actionEvents_append, List.foldl_append, traced_bitPair depth v t h,
      ih { t with data := some v, shift := (some v :: t.shift).take (8 * depth) } h (by simp [w])]
    simp only [Traced.mk.injEq, true_and, and_true]
    constructor
    · cases vs with
      | nil => rfl
      | cons u us => rw [List.getLast?_cons_cons]; cases e : (u :: us).getLast? <;> simp_all
    · rw [take_append_take]
      simp

/-- A latch pulse from a known low latch clock: the outputs are the stages. -/
theorem traced_latch (depth : Nat) (t : Traced) (h : t.latch = some false) :
    (actionEvents (pulse .latch)).foldl (tracedEvent depth) t = { t with out := t.shift } := by
  simp [actionEvents, pulse, tracedEvent, setTracedLevel, tracedLevel, tracedEdge, h]

/-! ### The agreement -/

/-- The agreement reads the configuration, the driver, the chip, and the record of a failed write. -/
theorem TraceAgrees.congr {s t : State} (h : TraceAgrees s) (hcfg : t.cfg = s.cfg) (hsr : t.sr = s.sr)
    (hchip : t.chip = s.chip) (hl : t.writeLost = s.writeLost) (hf : s.fault = true → t.fault = true) :
    TraceAgrees t := by
  cases s
  cases t
  simp only at hcfg hsr hchip hl hf
  subst hcfg hsr hchip hl
  exact ⟨h.level, h.shift, h.out, h.idle, h.lost_phase, h.failed_lost, fun k => hf (h.lost_fault k)⟩

/-- What the trace says is right while no write has failed. -/
theorem TraceAgrees.sound {s : State} (h : TraceAgrees s) (hl : s.writeLost = false) :
    TraceSound (tracedOf s) s.sr s.chip :=
  ⟨fun l _ hx => (h.level hl l).symm.trans hx, h.shift hl, h.out hl⟩

/-- Where what the trace says is right and it gives every line a level, it gives the line's own. -/
theorem TraceSound.level_eq {t : Traced} {sr : Sr} {c : Chip} (h : TraceSound t sr c)
    (hs : ∀ l, (tracedLevel t l).isSome = true) (l : SrLine) : tracedLevel t l = (srLine sr l).level := by
  obtain ⟨_, hx⟩ := Option.isSome_iff_exists.1 (hs l)
  rw [hx, h.level l _ hx]

/-- No write has failed while the driver is `UNCONSTRUCTED` or `READY`. -/
theorem TraceAgrees.not_lost {s : State} (h : TraceAgrees s)
    (hp : s.sr.phase = .unconstructed ∨ s.sr.phase = .ready) : s.writeLost = false := by
  cases hl : s.writeLost
  · rfl
  · rcases h.lost_phase hl with k | k <;> rw [k] at hp <;> simp at hp

/-- The agreement in `READY`: what the trace says is right, and it gives every line a level. -/
theorem TraceAgrees.of_sound {t : State} (h : TraceSound (tracedOf t) t.sr t.chip)
    (hs : ∀ l, (tracedLevel (tracedOf t) l).isSome = true) (hp : t.sr.phase = .ready)
    (hl : t.writeLost = false) : TraceAgrees t where
  level _ := h.level_eq hs
  shift _ := h.shift
  out _ := h.out
  idle k := absurd (.inl hp) k
  lost_phase k := by rw [hl] at k; cases k
  failed_lost k := by rw [hp] at k; cases k
  lost_fault k := by rw [hl] at k; cases k

/-- The agreement after a failed write that ended its command. -/
theorem TraceAgrees.of_lost {t : State} (hl : t.writeLost = true) (hp : t.sr.phase = .failed)
    (hf : t.fault = true) : TraceAgrees t where
  level k := by rw [hl] at k; cases k
  shift k := by rw [hl] at k; cases k
  out k := by rw [hl] at k; cases k
  idle k := absurd (.inr hp) k
  lost_phase _ := .inl hp
  failed_lost _ := hl
  lost_fault _ := hf

/-- The agreement of a driver whose lines are idle and of whose chip the trace says nothing. -/
theorem TraceAgrees.of_nothing {t : State} (h : tracedNothing t.cfg.chainDepth (tracedOf t))
    (hi : ∀ l, (srLine t.sr l).level = none) (w : chipFull t.cfg.chainDepth t.chip)
    (hp : t.sr.phase ≠ .failed) (hd : t.writeLost = true → t.sr.phase = .tornDown ∧ t.fault = true) :
    TraceAgrees t where
  level _ l := (h.2.2 l).trans (hi l).symm
  shift _ := by rw [h.1]; exact knownBits_unknown w.1
  out _ := by rw [h.2.1]; exact knownBits_unknown w.2
  idle _ := ⟨h.1, h.2.1⟩
  lost_phase k := .inr (hd k).1
  failed_lost k := absurd k hp
  lost_fault k := (hd k).2

end Sys2Proof.Machine
end

