-- ==== Sys2Proof/Laws/Invariant.lean ====
section
/-! SUPPORT. The invariant, part by part: what a command of one component must show to keep it. -/

namespace Sys2Proof.Machine

open Sys2Proof.Config

/-- The holders of the pins after one pin changes hands. -/
theorem owner_set_iff {os : List Owner} {p : Nat} {x : Owner} (hp : os[p]? = some x) (y z : Owner)
    (q : Nat) :
    (os.set p y)[q]? = some z ↔ (q = p ∧ z = y) ∨ (q ≠ p ∧ os[q]? = some z) := by
  rw [List.getElem?_set]
  obtain ⟨hl, _⟩ := List.getElem?_eq_some_iff.1 hp
  split_ifs with h
  · subst h
    simp [eq_comm]
  · simp [Ne.symm h]

/-- Zero is a W-bit value. -/
theorem zero_inRange (w : Nat) : inRangeW w 0 := by
  unfold inRangeW
  have : (0 : Int) < 2 ^ (w - 1) := by positivity
  constructor <;> omega

/-- The invariant reads neither the host, the draws nor the schedule, and `status` only as the mark of a
lost line. -/
theorem Inv.congr {s t : State} (h : Inv s) (hcfg : t.cfg = s.cfg) (hsr : t.sr = s.sr)
    (hchip : t.chip = s.chip) (hqd : t.qd = s.qd) (ho : t.owner = s.owner) (hr : t.result = s.result)
    (hl : t.writeLost = s.writeLost) (hf : s.fault = true → t.fault = true)
    (hst : t.status = some .platformLineFailure → t.fault = true) : Inv t := by
  cases s
  cases t
  simp only at hcfg hsr hchip hqd ho hr hl hf hst
  subst hcfg hsr hchip hqd ho hr hl
  exact ⟨h.shift_width, h.out_width, h.sr_idle, h.sr_driven, h.sr_owner, h.sr_pins, h.sr_only,
    h.sr_rest, h.sr_trace.congr rfl rfl rfl rfl hf, h.qd_held, h.qd_idle, h.qd_owner, h.qd_pins,
    h.qd_only, h.registered_held,
    h.pending_registered, h.count_value, h.count_range, h.last_value, h.last_unconstructed,
    h.result_range,
    fun k => k.elim (fun k => hf (h.failed_fault (.inl k)))
      (fun k => k.elim (fun k => hf (h.failed_fault (.inr (.inl k)))) hst)⟩

/-- The driver's part of the invariant. -/
structure SrPart (t : State) : Prop where
  shift_width : t.chip.shift.length = 8 * t.cfg.chainDepth
  out_width : t.chip.out.length = 8 * t.cfg.chainDepth
  sr_idle : ¬ srHolds t → ∀ l, srLine t.sr l = Line.idle
  sr_driven : srHolds t → srLinesDriven t.sr = true
  sr_owner : srHolds t → ∀ l, t.owner[srPin t.cfg l]? = some .sr
  sr_pins : srHolds t → [t.cfg.pinData, t.cfg.pinShclk, t.cfg.pinLatch].Nodup
  sr_only : ∀ p : Nat, t.owner[p]? = some .sr → srHolds t ∧ ∃ l, p = srPin t.cfg l
  sr_rest : t.sr.phase = .ready → t.sr.shclk.level = some false ∧ t.sr.latch.level = some false
  sr_trace : TraceAgrees t
  fault : t.sr.phase = .failed ∨ t.status = some .platformLineFailure → t.fault = true

/-- A command of the driver keeps the invariant where it leaves the decoder's pins and keeps its part. -/
theorem Inv.of_sr {s t : State} (h : Inv s) (d : SrSide s t)
    (hq : ∀ p : Nat, t.owner[p]? = some .qd ↔ s.owner[p]? = some .qd)
    (hf : s.fault = true → t.fault = true) (k : SrPart t) : Inv t := by
  have e1 := d.qd
  have e2 := d.result
  have e3 := d.cfg
  refine ⟨k.shift_width, k.out_width, k.sr_idle, k.sr_driven, k.sr_owner, k.sr_pins, k.sr_only,
    k.sr_rest, k.sr_trace, ?_, ?_, ?_, ?_, ?_, ?_, ?_, ?_, ?_, ?_, ?_, ?_, ?_⟩
  all_goals simp only [qdHolds, e1, e2, e3]
  · exact h.qd_held
  · exact h.qd_idle
  · intro hh l
    exact (hq _).2 (h.qd_owner hh l)
  · exact h.qd_pins
  · intro p hp
    exact h.qd_only p ((hq p).1 hp)
  · exact h.registered_held
  · exact h.pending_registered
  · exact h.count_value
  · exact h.count_range
  · exact h.last_value
  · exact h.last_unconstructed
  · exact h.result_range
  · rintro (h1 | h1 | h1)
    · exact k.fault (.inl h1)
    · exact hf (h.failed_fault (.inr (.inl h1)))
    · exact k.fault (.inr h1)

/-- The decoder's part of the invariant. -/
structure QdPart (t : State) : Prop where
  qd_held : qdHolds t → ∀ l, qdLine t.qd l = qdMode t.cfg l
  qd_idle : ¬ qdHolds t → ∀ l, qdLine t.qd l = .unconfigured
  qd_owner : qdHolds t → ∀ l, t.owner[qdPin t.cfg l]? = some .qd
  qd_pins : qdHolds t → [t.cfg.pinA, t.cfg.pinB, t.cfg.pinSw].Nodup
  qd_only : ∀ p : Nat, t.owner[p]? = some .qd → qdHolds t ∧ ∃ l, p = qdPin t.cfg l
  registered_held : t.qd.registered = true ↔ qdHolds t
  pending_registered : t.qd.registered = false → t.qd.pending = 0
  count_value : t.qd.count.isSome = true ↔ t.qd.phase ≠ .unconstructed
  count_range : ∀ c, t.qd.count = some c → inRangeW t.cfg.countWidth c
  last_value : t.qd.phase = .live → t.qd.lastA.isSome = true
  last_unconstructed : t.qd.phase = .unconstructed → t.qd.lastA = none
  result_range : ∀ r, t.result = some r → inRangeW t.cfg.countWidth r
  fault : t.qd.phase = .failed ∨ t.status = some .platformLineFailure → t.fault = true

/-- A command of the decoder keeps the invariant where it leaves the driver's pins and keeps its part. -/
theorem Inv.of_qd {s t : State} (h : Inv s) (d : QdSide s t)
    (hq : ∀ p : Nat, t.owner[p]? = some .sr ↔ s.owner[p]? = some .sr)
    (hf : s.fault = true → t.fault = true) (k : QdPart t) : Inv t := by
  have e1 := d.sr
  have e2 := d.chip
  have e3 := d.cfg
  have e4 := h.sr_trace.congr e3 e1 e2 d.lost hf
  refine ⟨?_, ?_, ?_, ?_, ?_, ?_, ?_, ?_, e4, k.qd_held, k.qd_idle, k.qd_owner, k.qd_pins, k.qd_only,
    k.registered_held, k.pending_registered, k.count_value, k.count_range, k.last_value,
    k.last_unconstructed, k.result_range, ?_⟩
  all_goals simp only [srHolds, e1, e2, e3]
  · exact h.shift_width
  · exact h.out_width
  · exact h.sr_idle
  · exact h.sr_driven
  · intro hh l
    exact (hq _).2 (h.sr_owner hh l)
  · exact h.sr_pins
  · intro p hp
    exact h.sr_only p ((hq p).1 hp)
  · exact h.sr_rest
  · rintro (h1 | h1 | h1)
    · exact hf (h.failed_fault (.inl h1))
    · exact k.fault (.inl h1)
    · exact k.fault (.inr h1)

end Sys2Proof.Machine
end

