-- ==== Sys2Proof/Laws/PerInstr.lean ====
section
/-! SUPPORT. Statements made command by command. -/

namespace Sys2Proof.Laws

/-- The word of a command selects the command's own row of the opcode map (30_encoding R93). -/
def RowSelected.Statement (i : Instr) : Prop := (opcodeRow i).selects (encode i)

theorem RowSelected.srInit : RowSelected.Statement .srInit := by
  unfold RowSelected.Statement OpcodeRow.selects; decide

theorem RowSelected.srSerialize (b : Byte) : RowSelected.Statement (.srSerialize b) :=
  (opcodeRow_selects _ _).2 ⟨rfl, .inl ⟨b, rfl⟩⟩

theorem RowSelected.srLatch : RowSelected.Statement .srLatch := by
  unfold RowSelected.Statement OpcodeRow.selects; decide

theorem RowSelected.srTeardown : RowSelected.Statement .srTeardown := by
  unfold RowSelected.Statement OpcodeRow.selects; decide

theorem RowSelected.qdInit : RowSelected.Statement .qdInit := by
  unfold RowSelected.Statement OpcodeRow.selects; decide

theorem RowSelected.qdPoll : RowSelected.Statement .qdPoll := by
  unfold RowSelected.Statement OpcodeRow.selects; decide

theorem RowSelected.qdReadCount : RowSelected.Statement .qdReadCount := by
  unfold RowSelected.Statement OpcodeRow.selects; decide

theorem RowSelected.qdReset : RowSelected.Statement .qdReset := by
  unfold RowSelected.Statement OpcodeRow.selects; decide

theorem RowSelected.qdRelease : RowSelected.Statement .qdRelease := by
  unfold RowSelected.Statement OpcodeRow.selects; decide

end Sys2Proof.Laws
end

