-- ==== Sys2Proof/Tests/Slice0.lean ====
section
/-! SUPPORT. Tests: ill-formed terms, decoding of words written out from 30_encoding R93, one-step vectors
of 95_test_vectors, and for each statement with hypotheses a state that meets them (`witness_…`). -/

namespace Sys2Proof.Tests

open Sys2Proof Sys2Proof.Machine Sys2Proof.Config

/-! ### States of the tests, by the conventions of 95_test_vectors -/

/-- An environment with no refusal, no failure and no other agent's step. -/
def calm (reads : List Bool) : Env where
  sw := true
  denied := ⟨List.replicate 6 false, 0⟩
  rejected := ⟨[false], 0⟩
  fails := ⟨List.replicate 80 false, 0⟩
  input := ⟨reads, 0⟩
  level := ⟨List.replicate 8 false, 0⟩
  chipBit := ⟨[], 0⟩
  turns := ⟨[.host, .host], 0⟩
  inside := ⟨List.replicate 8 [], 0⟩

/-- Power-on, with the words the host will issue. -/
def fresh (words : List Word) (reads : List Bool) : State :=
  State.powerOn resetSettings resetOwner words (calm reads)

/-- A driver in `READY` with chip stages and outputs given; the decoder is not constructed. -/
def ready (order : BitOrder) (depth : Nat) (shift out : List Bool) : State :=
  { fresh [] [] with
    cfg := { resetSettings with bitOrder := order, chainDepth := depth }
    sr := ⟨.ready, ⟨.output, some false⟩, ⟨.output, some false⟩, ⟨.output, some false⟩, []⟩
    chip := ⟨shift, out⟩
    owner := [.sr, .sr, .sr, .free, .free, .free] }

/-- One chip showing 0x06, most significant bit first. -/
def ready06 : State := ready .msbFirst 1 (byteBits 0x06#8) (byteBits 0x06#8)

/-- A decoder in `LIVE` with previous sample, count and the levels still to be read. -/
def live (a : Bool) (c : Int) (reads : List Bool) : State :=
  { fresh [] reads with
    qd := ⟨.live, .input, .input, .inputPullUp, some c, some a, true, 0⟩
    owner := [.free, .free, .free, .qd, .qd, .qd] }

/-- The line accesses before and after number `n` succeed and that one fails. -/
def failAt (n : Nat) (s : State) : State :=
  { s with env := { s.env with fails := ⟨List.replicate n false ++ true :: List.replicate 40 false, 0⟩ } }

/-- What other agents do at the next two interior points. -/
def meanwhile (before after : List AsyncStep) (s : State) : State :=
  { s with
    qd := { s.qd with pending := 1 }
    env := { s.env with inside := ⟨[before, after], 0⟩ } }

/-- The state after a command. -/
def after (i : Instr) (s : State) : State := (nextState? (exec i s)).getD s

/-- Both components constructed, all six pins held, the chip showing 0x06 by the trace, and one word to
issue. -/
def both (w : Word) : State :=
  { live false 5 [true, false] with
    sr := { ready06.sr with
      trace := actionEvents (lowActions ++ serializeActions .msbFirst 0x06#8 ++ pulse .latch) }
    chip := ready06.chip
    owner := [.sr, .sr, .sr, .qd, .qd, .qd]
    host := ⟨[w], false⟩ }

/-! ### Ill-formed terms are refused (30_encoding R98, 10_state R42, R44) -/

theorem test_write_chain_needs_a_byte : (Pseudo.writeChain []).wellFormed = false := by decide

theorem test_settings_legal : resetSettings.legal 6 = true := by decide

theorem test_chain_depth_zero_illegal : { resetSettings with chainDepth := 0 }.legal 6 = false := by decide

theorem test_pin_outside_illegal :
    { resetSettings with pinData := 6 }.legal 6 = false ∧ { resetSettings with pinShclk := 6 }.legal 6 = false ∧
      { resetSettings with pinLatch := 6 }.legal 6 = false ∧ { resetSettings with pinA := 6 }.legal 6 = false ∧
      { resetSettings with pinB := 6 }.legal 6 = false ∧ { resetSettings with pinSw := 6 }.legal 6 = false := by
  decide

theorem test_count_width_one_illegal : { resetSettings with countWidth := 1 }.legal 6 = false := by decide

theorem test_short_pulse_illegal : { resetSettings with tChipMin := 1001 }.legal 6 = false := by decide

theorem test_poll_period_zero_illegal : { resetSettings with pollPeriod := 0 }.legal 6 = false := by decide

theorem test_owner0_of_block_illegal : legalOwner0 [.free, .sr] = false ∧ legalOwner0 [.qd] = false := by
  decide

/-! ### Decoding: words written out bit by bit from 30_encoding R93 -/

theorem test_decode_srInit : decode 0b0001000000000000#16 = .command .srInit := by decide

theorem test_decode_srSerialize :
    decode 0b0001000100000110#16 = .command (.srSerialize 0x06#8) ∧
      decode 0b0001000110000000#16 = .command (.srSerialize 0x80#8) := by decide

theorem test_decode_srLatch : decode 0b0001001000000000#16 = .command .srLatch := by decide

theorem test_decode_srTeardown : decode 0b0001001100000000#16 = .command .srTeardown := by decide

theorem test_decode_qdInit : decode 0b0010000000000000#16 = .command .qdInit := by decide

theorem test_decode_qdPoll : decode 0b0010000100000000#16 = .command .qdPoll := by decide

theorem test_decode_qdReadCount : decode 0b0010001000000000#16 = .command .qdReadCount := by decide

theorem test_decode_qdReset : decode 0b0010001100000000#16 = .command .qdReset := by decide

theorem test_decode_qdRelease : decode 0b0010010000000000#16 = .command .qdRelease := by decide

/-- The illegal words of 95_test_vectors, Part 2. -/
theorem test_decode_illegal :
    decode 0x0000#16 = .illegal .unassignedOp ∧ decode 0x0F00#16 = .illegal .unassignedOp ∧
      decode 0x1F00#16 = .illegal .unassignedOp ∧ decode 0xFFFF#16 = .illegal .unassignedOp ∧
      decode 0x1201#16 = .illegal .nonzeroOperand := by decide

theorem test_table_word : decodeTableWord 16 0x11A5 = some (.srSerialize 0xA5#8) := by decide

/-- A word placed at reset is the one the next step runs. -/
theorem test_fetch_at_reset :
    (nextState? (step (State.reset.withFetchWord 16 0x2100))).map (·.status) =
      some (some .lifecycleError) := by decide

/-! ### Assembler (30_encoding R97 to R99) -/

theorem test_parse_write_chain :
    (match parseLine "sr.write_chain 0x06, 0b11, 255 ; c".toList with
      | .ok a => expandLine 1 a
      | .error _ => []) = [.srSerialize 0x06#8, .srSerialize 0x03#8, .srSerialize 0xFF#8, .srLatch] := by
  decide +kernel

theorem test_parse_refuses_256 :
    (match parseLine "sr.serialize 256".toList with
      | .ok _ => none
      | .error e => some e) = some .literalOutOfRange := by decide +kernel

/-- Lines with no command: only a comment (95_test_vectors); empty, or blanks only (the model's choice, log
entry 17). -/
theorem test_parse_blank_lines :
    ["; c".toList, [], "  ".toList].map (fun l =>
      match parseLine l with
      | .ok a => some (expandLine 1 a)
      | .error _ => none) = [some [], some [], some []] := by decide +kernel

/-- The listing example of R99. -/
theorem test_listing : listingLine 0 (.srSerialize 0x06#8) = "0: 1106 sr.serialize 0x06".toList := by
  decide +kernel

/-! ### Registers (10_state R42) and the observation (92 D33) -/

/-- CFG0 to CFG11 of a launch that differs in every field, and nothing beyond. -/
theorem test_cfg_registers :
    (List.range 13).map (cfgRegister { fresh [] [] with
        cfg := ⟨.lsbFirst, 3, 10, 11, 12, 13, 14, 15, .inputPullUp, 16, 17, 18, 0⟩ }) =
      [some 0, some 3, some 10, some 11, some 12, some 13, some 14, some 15, some 1, some 16, some 17,
        some 18, none] := by decide

/-- STS0 to STS3 after a lost line, and nothing beyond. -/
theorem test_sts_registers :
    (List.range 5).map (stsRegister (after (.srSerialize 0xA5#8) (failAt 4 ready06))) =
      [some 2, some 0, some 3, some 1, none] := by decide

/-- After `SR_INIT` no output is defined (40 R118); after a serialize and a latch all eight are (R150). -/
theorem test_observe_outputs :
    (observe (after .srInit (fresh [] []))).out = List.replicate 8 none ∧
      (observe (after .srLatch (after (.srSerialize 0x81#8) (after .srInit (fresh [] []))))).out =
        (byteBits 0x81#8).map some := by decide +kernel

/-- With two chips and one byte sent, the second chip's outputs are not defined (70 R241). -/
theorem test_observe_second_chip :
    (observe (after .srLatch (after (.srSerialize 0x81#8) (after .srInit
      { fresh [] [] with cfg := { resetSettings with chainDepth := 2 } })))).out =
        (byteBits 0x81#8).map some ++ List.replicate 8 none := by decide +kernel

/-- A teardown: every output is 0 just before the first release (40 R146) and none is defined after it
(R119); where a write of it fails nothing is claimed (R143). -/
theorem test_observe_teardown :
    (observe (after .srTeardown (both 0x1300#16))).out = List.replicate 8 none ∧
      (observe (after .srTeardown (both 0x1300#16))).outAtRelease =
        some (List.replicate 8 (some false)) ∧
      (observe (after .srTeardown (failAt 24 (both 0x1300#16)))).outAtRelease = none := by decide +kernel

/-! ### SR family: vectors SR-1 to SR-10 -/

/-- SR-1. -/
theorem test_srInit :
    (after .srInit (fresh [] [])).status = some .ok ∧
      (after .srInit (fresh [] [])).sr.trace =
        [.level .data false, .level .shclk false, .level .latch false] ∧
      (after .srInit (fresh [] [])).owner = [.sr, .sr, .sr, .free, .free, .free] := by decide

/-- SR-2: the latch's pin is the data line's. -/
theorem test_srInit_shared_pin :
    let t := after .srInit { fresh [] [] with cfg := { resetSettings with pinLatch := 0 } }
    t.status = some .resourceUnavailable ∧ t.sr.trace = [.released .data, .released .shclk] ∧
      t.owner = resetOwner ∧ t.sr.phase = .unconstructed := by decide

/-- SR-3, row 0x01 under `LSB_FIRST`: the stages hold 0x80 and the data line ends at 0. -/
theorem test_srSerialize_lsb :
    let t := after (.srSerialize 0x01#8) (ready .lsbFirst 1 (byteBits 0xFF#8) (byteBits 0xFF#8))
    t.chip.shift = byteBits 0x80#8 ∧ t.chip.out = byteBits 0xFF#8 ∧ t.sr.data.level = some false ∧
      t.sr.trace.length = 24 := by decide

/-- SR-9: the fifth write of `SR_SERIALIZE 0xA5` fails. -/
theorem test_srSerialize_lost :
    let t := after (.srSerialize 0xA5#8) (failAt 4 ready06)
    t.status = some .platformLineFailure ∧ t.sr.phase = .failed ∧ t.fault = true ∧
      t.sr.trace = [.level .data true, .level .shclk true, .level .shclk false, .level .data false] := by
  decide

/-- SR-8: one latch shows both chips of a chain whose stages are 0x0681. -/
theorem test_srLatch :
    let t := after .srLatch (ready .msbFirst 2 (byteBits 0x81#8 ++ byteBits 0x06#8) (List.replicate 16 false))
    chipBits t.chip.out 0 = byteBits 0x81#8 ∧ chipBits t.chip.out 1 = byteBits 0x06#8 ∧
      t.sr.trace = [.level .latch true, .level .latch false] := by decide

/-- SR-6. -/
theorem test_srLatch_after_failure :
    (after .srLatch { ready06 with sr := { ready06.sr with phase := .failed } }).status =
      some .lifecycleError := by decide

/-- SR-7. -/
theorem test_srTeardown :
    (after .srTeardown ready06).status = some .ok ∧ (after .srTeardown ready06).sr.phase = .tornDown ∧
      (after .srTeardown ready06).sr.trace.length = 32 ∧ (after .srTeardown ready06).owner = resetOwner ∧
      (teardownDriven ready06).chip.out = List.replicate 8 false := by decide +kernel

/-- SR-10: the first write of the latch pulse fails and the teardown goes on. -/
theorem test_srTeardown_lost :
    let t := after .srTeardown (failAt 24 ready06)
    t.status = some .ok ∧ t.fault = true ∧ t.sr.trace.length = 31 ∧ t.sr.phase = .tornDown := by
  decide +kernel

/-! ### QD family: vectors QD-1 to QD-9, W1 and W4 -/

/-- QD-1. -/
theorem test_qdInit :
    (after .qdInit (fresh [] [true])).status = some .ok ∧
      (after .qdInit (fresh [] [true])).qd =
        ⟨.live, .input, .input, .inputPullUp, some 0, some true, true, 0⟩ := by decide

/-- QD-2: `PIN_B` is owned outside the block. -/
theorem test_qdInit_taken :
    let t := after .qdInit { fresh [] [] with owner := [.free, .free, .free, .free, .other, .free] }
    t.status = some .resourceUnavailable ∧ t.info = some 4 ∧ t.qd.count = none ∧
      t.owner = [.free, .free, .free, .free, .other, .free] := by decide

/-- W1, its second poll: A falls with B equal to it. -/
theorem test_qdPoll_falls :
    let t := after .qdPoll (live true 6 [false, false])
    t.qd.count = some 5 ∧ t.qd.lastA = some false ∧ t.status = some .ok := by decide

/-- QD-4: a clockwise step at the top of the range. -/
theorem test_qdPoll_wraps :
    (after .qdPoll (live false 2147483647 [true, false])).qd.count = some (-2147483648) := by decide

/-- QD-7. -/
theorem test_qdReadCount : (after .qdReadCount (live true 7 [])).result = some 7 := by decide

theorem test_qdReadCount_unconstructed :
    (after .qdReadCount (fresh [] [])).status = some .lifecycleError ∧
      (after .qdReadCount (fresh [] [])).result = none := by decide

theorem test_qdReset :
    let t := after .qdReset (meanwhile [] [] (live true 7 []))
    t.qd.count = some 0 ∧ t.qd.lastA = some true ∧ t.qd.pending = 1 := by decide

theorem test_qdRelease :
    let t := after .qdRelease (meanwhile [] [] (live true 7 []))
    t.qd = ⟨.released, .unconfigured, .unconfigured, .unconfigured, some 7, some true, false, 0⟩ ∧
      t.owner = resetOwner := by decide

/-- W4: a press and its delivery. -/
theorem test_reset_edge :
    let t := asyncStep .resetEdge (asyncStep (.swEdge false false) (live true 2147483647 []))
    t.qd.count = some 0 ∧ t.qd.pending = 0 ∧ t.qd.lastA = some true := by decide

/-- QD-8: the second falling edge is counted, or coalesced with the pending one. -/
theorem test_switch_bounce :
    (asyncStep (.swEdge false false) (asyncStep (.swEdge true false)
        (asyncStep (.swEdge false false) (live true 0 [])))).qd.pending = 2 ∧
      (asyncStep (.swEdge false true) (asyncStep (.swEdge true false)
        (asyncStep (.swEdge false false) (live true 0 [])))).qd.pending = 1 := by decide

/-! ### Witnesses: encoding and steps -/

theorem witness_DecodeOfEncode :
    (Instr.srSerialize 0x80#8).wellFormed = true ∧ Instr.qdRelease.wellFormed = true := by decide

/-- A word that decodes, one that is illegal, and one that selects a row of each format. -/
theorem witness_DecoderTotalAndRowsDisjoint :
    decode 0x1180#16 = .command (.srSerialize 0x80#8) ∧ decode 0x2480#16 = .illegal .nonzeroOperand ∧
      (opcodeRow (.srSerialize 0x00#8)).selects 0x1180#16 ∧ (opcodeRow .qdPoll).selects 0x2100#16 := by
  refine ⟨by decide, by decide, ?_, ?_⟩ <;> (unfold OpcodeRow.selects; decide)

theorem witness_IllegalWordChangesOnlyStatus : ∀ r ∈ opcodeRows, ¬ r.selects 0x1201#16 := by
  unfold OpcodeRow.selects; decide

/-- A word that decodes, and one that is illegal. -/
theorem witness_StepIssuesHostsWord :
    (launchLegal (both 0x1201#16) = true ∧ (both 0x1201#16).host.second = false ∧
      (both 0x1201#16).host.words = [0x1201#16] ∧ (both 0x1201#16).env.turnAt 0 = .host ∧
      decode 0x1201#16 = .illegal .nonzeroOperand) ∧
    launchLegal (both 0x1106#16) = true ∧ (both 0x1106#16).host.second = false ∧
      (both 0x1106#16).host.words = [0x1106#16] ∧ (both 0x1106#16).env.turnAt 0 = .host ∧
      decode 0x1106#16 = .command (.srSerialize 0x06#8) := by decide

theorem witness_PlacedWordRunsNext :
    launchLegal State.reset = true ∧ State.reset.host.second = false ∧
      decodeTableWord 16 0x2000 = some .qdInit := by decide

/-- A state whose next turn is another agent's. -/
def agentsTurn : State :=
  { both 0x2100#16 with env := { (both 0x2100#16).env with turns := ⟨[.agent (.swEdge false false)], 0⟩ } }

theorem witness_AgentTurnIsItsStep :
    launchLegal agentsTurn = true ∧ agentsTurn.host.second = false ∧ agentsTurn.host.words ≠ [] ∧
      agentsTurn.env.turnAt 0 = .agent (.swEdge false false) := by decide

/-- One launch for each of the three ends. -/
theorem witness_StepStopsAsNamed :
    launchLegal { ready06 with cfg := { resetSettings with chainDepth := 0 } } = false ∧
      (launchLegal ready06 = true ∧ { ready06.host with second := true }.second = true) ∧
      ready06.host.second = false ∧ ready06.host.words = [] := by decide

/-! ### Witnesses: shift-register driver -/

theorem witness_SrInitCompletes :
    (fresh [] []).sr.phase = .unconstructed ∧
      [(fresh [] []).cfg.pinData, (fresh [] []).cfg.pinShclk, (fresh [] []).cfg.pinLatch].Nodup ∧
      (∀ l : SrLine, (fresh [] []).owner[srPin (fresh [] []).cfg l]? = some .free) ∧
      (∀ k, k < 3 → (fresh [] []).env.deniedAt k = false) ∧ noLineFailure 3 (fresh [] []) :=
  ⟨rfl, by decide, fun l => by cases l <;> rfl, by decide, by decide⟩

/-- A launch in which one pin is held outside the block. -/
def taken (p : PinId) : State := { fresh [] [] with owner := resetOwner.set p .other }

theorem witness_SrInitNoPartialConstruction :
    (taken 2).sr.phase = .unconstructed ∧ (∀ l, srLine (taken 2).sr l = Line.idle) ∧
      ∃ t, exec .srInit (taken 2) = .next t ∧ t.status = some .resourceUnavailable :=
  ⟨rfl, fun l => by cases l <;> rfl, after .srInit (taken 2), rfl, by decide⟩

/-- A launch in which the pin of the n-th `Acquire` is denied. -/
def denied (n : Nat) : State :=
  { fresh [] [] with
    env := { calm [] with denied := ⟨List.replicate n false ++ [true, false, false], 0⟩ } }

/-- A launch in which the pins of both third lines are those of the second ones. -/
def sharedPins : State := { fresh [] [] with cfg := { resetSettings with pinLatch := 1, pinSw := 4 } }

/-- Each line of the driver by a taken pin and by a denial, and the latch by a pin that is the shift
clock's. -/
theorem witness_SrInitFailsAtFirstRefusedPin (l : SrLine) :
    (∀ m, srLine (fresh [] []).sr m = Line.idle) ∧
    ((taken (srPin resetSettings l)).sr.phase = .unconstructed ∧
      (∀ m ∈ srBefore l, (taken (srPin resetSettings l)).owner[srPin resetSettings m]? = some .free) ∧
      ((srBefore l).map (srPin resetSettings)).Nodup ∧
      (∀ k, k < (srBefore l).length → (taken (srPin resetSettings l)).env.deniedAt k = false) ∧
      (taken (srPin resetSettings l)).owner[srPin resetSettings l]? ≠ some .free) ∧
    ((∀ m ∈ srBefore l, (denied (srBefore l).length).owner[srPin resetSettings m]? = some .free) ∧
      (∀ k, k < (srBefore l).length → (denied (srBefore l).length).env.deniedAt k = false) ∧
      (denied (srBefore l).length).env.deniedAt (srBefore l).length = true) ∧
    ((∀ m ∈ srBefore .latch, sharedPins.owner[srPin sharedPins.cfg m]? = some .free) ∧
      ((srBefore .latch).map (srPin sharedPins.cfg)).Nodup ∧
      ∃ m ∈ srBefore .latch, srPin sharedPins.cfg m = srPin sharedPins.cfg .latch) := by
  refine ⟨fun m => by cases m <;> rfl, ?_⟩
  cases l <;> decide

/-- The same for each line of the decoder. -/
theorem witness_QdInitFailsAtFirstRefusedPin (l : QdLine) :
    (∀ m, qdLine (fresh [] []).qd m = .unconfigured) ∧
    ((taken (qdPin resetSettings l)).qd.phase = .unconstructed ∧
      (∀ m ∈ qdBefore l, (taken (qdPin resetSettings l)).owner[qdPin resetSettings m]? = some .free) ∧
      ((qdBefore l).map (qdPin resetSettings)).Nodup ∧
      (∀ k, k < (qdBefore l).length → (taken (qdPin resetSettings l)).env.deniedAt k = false) ∧
      (taken (qdPin resetSettings l)).owner[qdPin resetSettings l]? ≠ some .free) ∧
    ((∀ m ∈ qdBefore l, (denied (qdBefore l).length).owner[qdPin resetSettings m]? = some .free) ∧
      (∀ k, k < (qdBefore l).length → (denied (qdBefore l).length).env.deniedAt k = false) ∧
      (denied (qdBefore l).length).env.deniedAt (qdBefore l).length = true) ∧
    ((∀ m ∈ qdBefore .sw, sharedPins.owner[qdPin sharedPins.cfg m]? = some .free) ∧
      ((qdBefore .sw).map (qdPin sharedPins.cfg)).Nodup ∧
      ∃ m ∈ qdBefore .sw, qdPin sharedPins.cfg m = qdPin sharedPins.cfg .sw) := by
  refine ⟨fun m => by cases m <;> rfl, ?_⟩
  cases l <;> decide

theorem witness_SrSerializeCompletes :
    srAtRest ready06 ∧ 1 ≤ ready06.cfg.chainDepth ∧ noLineFailure 24 ready06 := by decide

theorem witness_SrSerializeEffects :
    (∃ t, exec (.srSerialize 0x81#8) ready06 = .next t ∧ t.status = some .ok) ∧
      ready06.sr.shclk.level = some false ∧ ready06.sr.latch.level = some false ∧
      1 ≤ ready06.cfg.chainDepth ∧ ready06.cfg.chainDepth = 1 ∧ ready06.cfg.bitOrder = .msbFirst ∧
      (ready .lsbFirst 1 [] []).cfg.bitOrder = .lsbFirst :=
  ⟨⟨after (.srSerialize 0x81#8) ready06, rfl, by decide⟩, by decide⟩

/-- The first and the last write of each of the three commands. -/
theorem witness_SrCommandsStopAtFailedWrite :
    ((failAt 0 (fresh [] [])).sr.phase = .unconstructed ∧
      noLineFailure 0 (failAt 0 (fresh [] [])) ∧ (failAt 0 (fresh [] [])).env.failsAt 0 = true ∧
      noLineFailure 2 (failAt 2 (fresh [] [])) ∧ (failAt 2 (fresh [] [])).env.failsAt 2 = true ∧
      [resetSettings.pinData, resetSettings.pinShclk, resetSettings.pinLatch].Nodup ∧
      (∀ k, k < 3 → (failAt 2 (fresh [] [])).env.deniedAt k = false)) ∧
    (srAtRest (failAt 0 ready06) ∧ noLineFailure 0 (failAt 0 ready06) ∧
      (failAt 0 ready06).env.failsAt 0 = true) ∧
    (srAtRest (failAt 23 ready06) ∧ noLineFailure 23 (failAt 23 ready06) ∧
      (failAt 23 ready06).env.failsAt 23 = true) ∧
    (srAtRest (failAt 1 ready06) ∧ noLineFailure 1 (failAt 1 ready06) ∧
      (failAt 1 ready06).env.failsAt 1 = true) := by decide

/-- The pins of `SR_INIT` are free in that launch. -/
theorem witness_SrCommandsStopAtFailedWrite_pins (l : SrLine) :
    (failAt 2 (fresh [] [])).owner[srPin resetSettings l]? = some .free := by cases l <;> rfl

theorem witness_SrLatchCompletes : srAtRest ready06 ∧ noLineFailure 2 ready06 := by decide

theorem witness_SrLatchCopiesStages :
    (∃ t, exec .srLatch ready06 = .next t ∧ t.status = some .ok) ∧
      ready06.sr.latch.level = some false :=
  ⟨⟨after .srLatch ready06, rfl, by decide⟩, rfl⟩

/-- From `READY` with no failed write, and from `FAILED` with one. -/
theorem witness_SrTeardownCompletes :
    (srHolds ready06 ∧ srLinesDriven ready06.sr = true ∧
      (∀ l, ready06.owner[srPin ready06.cfg l]? = some .sr) ∧
      ∀ k, 26 ≤ k → k < 29 → ready06.env.failsAt k = false) ∧
    srHolds { failAt 28 ready06 with sr := { ready06.sr with phase := .failed } } ∧
      (failAt 28 ready06).env.failsAt 28 = true := by
  refine ⟨⟨by decide, by decide, fun l => by cases l <;> rfl, ?_⟩, by decide, by decide⟩
  intro k h1 h2
  obtain rfl | rfl | rfl : k = 26 ∨ k = 27 ∨ k = 28 := by omega
  all_goals rfl

theorem witness_SrTeardownOutputsBeforeRelease :
    srAtRest ready06 ∧ 1 ≤ ready06.cfg.chainDepth ∧
      ready06.chip.shift.length = 8 * ready06.cfg.chainDepth ∧ noLineFailure 29 ready06 := by decide

theorem witness_SrTeardownRepeated :
    (after .srTeardown ready06).sr.phase = .tornDown ∧ (fresh [] []).sr.phase = .unconstructed := by
  decide

/-- Two chips, for the laws of a chain: both orders, fewer bytes than chips and more. -/
def ready2 : State := ready .lsbFirst 2 (byteBits 0x81#8 ++ byteBits 0x06#8) (List.replicate 16 true)

theorem witness_ChainLaws :
    srAtRest ready2 ∧ 1 ≤ ready2.cfg.chainDepth ∧ ready2.chip.shift.length = 8 * ready2.cfg.chainDepth ∧
      noLineFailure (24 * 1 + 2) ready2 ∧ noLineFailure (24 * 3 + 2) ready2 ∧
      noLineFailure (24 * ready2.cfg.chainDepth + 2) ready2 := by decide

/-- Both orders reach a state in the reversal law. -/
theorem witness_ReversedOrderReversesImage :
    srAtRest ready06 ∧ 1 ≤ ready06.cfg.chainDepth ∧ noLineFailure 26 ready06 ∧
      (∃ t, execAll [.srSerialize 0x06#8, .srLatch]
        { ready06 with cfg := { ready06.cfg with bitOrder := .msbFirst } } = .next t) ∧
      ∃ u, execAll [.srSerialize 0x06#8, .srLatch]
        { ready06 with cfg := { ready06.cfg with bitOrder := .lsbFirst } } = .next u :=
  ⟨by decide, by decide, by decide, ⟨_, rfl⟩, ⟨_, rfl⟩⟩

/-- Each clause of the pulse counts. -/
theorem witness_PulseCounts :
    noLineFailure 29 ready06 ∧ srAtRest ready06 ∧
      (∃ t, exec (.srSerialize 0xA5#8) ready06 = .next t ∧ t.status = some .ok) ∧
      (∃ t, exec .srLatch ready06 = .next t ∧ t.status = some .ok) ∧
      (∃ t, exec .srTeardown ready06 = .next t ∧ t.status = some .ok) ∧
      noLineFailure 29 (fresh [] []) ∧ ∃ t, exec .srInit (fresh [] []) = .next t ∧ t.status = some .ok :=
  ⟨by decide, by decide, ⟨after (.srSerialize 0xA5#8) ready06, rfl, by decide⟩,
    ⟨after .srLatch ready06, rfl, by decide⟩, ⟨after .srTeardown ready06, rfl, by decide⟩, by decide,
    ⟨after .srInit (fresh [] []), rfl, by decide⟩⟩

theorem witness_ClockEdgeUnobservable :
    ready06.sr.shclk.level = some false ∧ ready06.sr.latch.level = some false ∧
      teardownActions = teardownActions := by decide

/-- A serialize that loses a line, and a poll: neither is an `SR_INIT`, an `SR_LATCH` or a teardown. -/
theorem witness_OutputsChangeOnlyAtLatch :
    (∃ t, exec (.srSerialize 0xA5#8) (failAt 4 ready06) = .next t ∧
      t.status = some .platformLineFailure) ∧
    ∃ t, exec .qdPoll (live false 5 [true, false]) = .next t :=
  ⟨⟨after (.srSerialize 0xA5#8) (failAt 4 ready06), rfl, by decide⟩, ⟨_, rfl⟩⟩

/-! ### Witnesses: quadrature decoder -/

theorem witness_QdInitCompletes :
    (fresh [] [true]).qd.phase = .unconstructed ∧
      [(fresh [] [true]).cfg.pinA, (fresh [] [true]).cfg.pinB, (fresh [] [true]).cfg.pinSw].Nodup ∧
      (∀ l : QdLine, (fresh [] [true]).owner[qdPin (fresh [] [true]).cfg l]? = some .free) ∧
      (∀ k, k < 3 → (fresh [] [true]).env.deniedAt k = false) ∧
      (fresh [] [true]).env.rejectedAt 0 = false ∧ noLineFailure 1 (fresh [] [true]) ∧
      quietInside 3 (fresh [] [true]) :=
  ⟨rfl, by decide, fun l => by cases l <;> rfl, by decide, by decide, by decide, by decide⟩

theorem witness_QdInitNoPartialConstruction :
    (taken 5).qd.phase = .unconstructed ∧ (∀ l, qdLine (taken 5).qd l = .unconfigured) ∧
      ∃ t, exec .qdInit (taken 5) = .next t ∧ t.status = some .resourceUnavailable :=
  ⟨rfl, fun l => by cases l <;> rfl, after .qdInit (taken 5), rfl, by decide⟩

/-- A launch whose registration is rejected. -/
def rejecting : State :=
  { fresh [] [] with env := { calm [] with rejected := ⟨[true], 0⟩ } }

theorem witness_QdInitRejectedReleasesAll :
    rejecting.qd.phase = .unconstructed ∧ rejecting.qd.registered = false ∧
      [rejecting.cfg.pinA, rejecting.cfg.pinB, rejecting.cfg.pinSw].Nodup ∧
      (∀ l : QdLine, rejecting.owner[qdPin rejecting.cfg l]? = some .free) ∧
      (∀ k, k < 3 → rejecting.env.deniedAt k = false) ∧ rejecting.env.rejectedAt 0 = true :=
  ⟨rfl, rfl, by decide, fun l => by cases l <;> rfl, by decide, by decide⟩

theorem witness_QdInitFirstReadFails :
    (failAt 0 (fresh [] [])).qd.phase = .unconstructed ∧
      (∀ l : QdLine, (failAt 0 (fresh [] [])).owner[qdPin resetSettings l]? = some .free) ∧
      (∀ k, k < 3 → (failAt 0 (fresh [] [])).env.deniedAt k = false) ∧
      (failAt 0 (fresh [] [])).env.rejectedAt 0 = false ∧ (failAt 0 (fresh [] [])).env.failsAt 0 = true :=
  ⟨rfl, fun l => by cases l <;> rfl, by decide, by decide, by decide⟩

/-- With a transition of A and without one. -/
theorem witness_QdPollCompletes :
    (qdLiveAt false 5 (live false 5 [true, false]) ∧ noLineFailure 2 (live false 5 [true, false]) ∧
      quietInside 2 (live false 5 [true, false]) ∧ 2 ≤ (live false 5 [true, false]).cfg.countWidth ∧
      inRangeW 32 5 ∧ (live false 5 [true, false]).env.inputAt 0 ≠ false) ∧
    (live false 5 [false, true]).env.inputAt 0 = false := by decide

/-- Both ends of the 32-bit range. -/
theorem witness_QdPollWraps :
    (qdLiveAt false 2147483647 (live false 2147483647 [true, false]) ∧
      (live false 2147483647 [true, false]).cfg.countWidth = 32 ∧
      (live false 2147483647 [true, false]).env.inputAt 0 ≠ false ∧
      (live false 2147483647 [true, false]).env.inputAt 1 ≠
        (live false 2147483647 [true, false]).env.inputAt 0) ∧
    (qdLiveAt false (-2147483648) (live false (-2147483648) [true, true]) ∧
      noLineFailure 2 (live false (-2147483648) [true, true]) ∧
      quietInside 2 (live false (-2147483648) [true, true]) ∧
      (live false (-2147483648) [true, true]).env.inputAt 0 ≠ false ∧
      (live false (-2147483648) [true, true]).env.inputAt 1 =
        (live false (-2147483648) [true, true]).env.inputAt 0) := by decide

/-- The read of A fails, or the read of B. -/
theorem witness_QdPollFailedRead :
    (qdLiveAt true 7 (failAt 0 (live true 7 [])) ∧ (failAt 0 (live true 7 [])).env.failsAt 0 = true) ∧
    (qdLiveAt true 7 (failAt 1 (live true 7 [])) ∧ (failAt 1 (live true 7 [])).env.failsAt 0 = false ∧
      (failAt 1 (live true 7 [])).env.failsAt 1 = true) := by decide

/-- QD-6: a delivery before the add, and one after it. -/
theorem witness_ResetRacesPoll :
    (qdLiveAt false 5 (meanwhile [.resetEdge] [] (live false 5 [true, false])) ∧
      noLineFailure 2 (meanwhile [.resetEdge] [] (live false 5 [true, false])) ∧
      (meanwhile [.resetEdge] [] (live false 5 [true, false])).env.inputAt 0 ≠ false ∧
      (meanwhile [.resetEdge] [] (live false 5 [true, false])).qd.registered = true ∧
      0 < (meanwhile [.resetEdge] [] (live false 5 [true, false])).qd.pending ∧
      (meanwhile [.resetEdge] [] (live false 5 [true, false])).env.insideAt 0 = [.resetEdge] ∧
      (meanwhile [.resetEdge] [] (live false 5 [true, false])).env.insideAt 1 = []) ∧
    ((meanwhile [] [.resetEdge] (live false 5 [true, false])).env.insideAt 0 = [] ∧
      (meanwhile [] [.resetEdge] (live false 5 [true, false])).env.insideAt 1 = [.resetEdge]) := by decide

/-- W3: the clockwise and the mirrored samples. -/
theorem witness_QuadratureCycle :
    let s := live false 0 [true, false, true, true, false, true, false, false]
    let u := live false 0 [false, true, true, true, true, false, false, false]
    (qdLiveAt false 0 s ∧ 2 ≤ s.cfg.countWidth ∧ inRangeW s.cfg.countWidth 0 ∧ noLineFailure 8 s ∧
      quietInside 8 s ∧
      (List.range 8).map s.env.inputAt = [true, false, true, true, false, true, false, false]) ∧
    (qdLiveAt false 0 u ∧
      (List.range 8).map u.env.inputAt = [false, true, true, true, true, false, false, false]) := by
  decide

theorem witness_QdCountAccesses :
    (live true 7 []).qd.phase ≠ .unconstructed ∧ (live true 7 []).qd.count = some 7 ∧
      quietInside 2 (live true 7 []) := by decide

/-- A delivery before the load, and one after it. -/
theorem witness_ResetInsideReadCount :
    ((meanwhile [.resetEdge] [] (live true 7 [])).qd.registered = true ∧
      0 < (meanwhile [.resetEdge] [] (live true 7 [])).qd.pending ∧
      (meanwhile [.resetEdge] [] (live true 7 [])).env.insideAt 0 = [.resetEdge] ∧
      (meanwhile [.resetEdge] [] (live true 7 [])).env.insideAt 1 = []) ∧
    ((meanwhile [] [.resetEdge] (live true 7 [])).env.insideAt 0 = [] ∧
      (meanwhile [] [.resetEdge] (live true 7 [])).env.insideAt 1 = [.resetEdge]) := by decide

/-- A delivery enabled; one with nothing pending; one after the release; and a `QD_RESET`. -/
theorem witness_ResetZeroesCountOnly :
    (live true 7 []).qd.pending = 0 ∧ (after .qdRelease (live true 7 [])).qd.registered = false ∧
    (meanwhile [] [] (live true 7 [])).qd.registered = true ∧
      0 < (meanwhile [] [] (live true 7 [])).qd.pending ∧ (live true 7 []).qd.phase ≠ .unconstructed := by
  decide

theorem witness_QdReleaseCompletes :
    qdHolds (live true 7 []) ∧ qdLinesHeld (live true 7 []).qd = true := by decide

theorem witness_AfterReleaseCountRemains :
    (after .qdRelease (live true 7 [])).qd.phase = .released ∧
      (after .qdRelease (live true 7 [])).qd.count = some 7 ∧
      quietInside 2 (after .qdRelease (live true 7 [])) := by decide

/-- The notification agent's turn with one edge pending. -/
def agentsDelivery : State :=
  { both 0x2100#16 with
    qd := { (both 0x2100#16).qd with pending := 1 }
    env := { (both 0x2100#16).env with turns := ⟨[.agent .resetEdge], 0⟩ } }

/-- A poll, a reset, a press and a delivery, each by a step that answers a next state. -/
theorem witness_CountChangesOnlyAsNamed :
    (both 0x2100#16).qd.phase ≠ .unconstructed ∧ quietInside 2 (both 0x2100#16) ∧
      (∃ t, step (both 0x2100#16) = .next t ∧ t.qd.count = some 6) ∧
      (∃ t, step (both 0x2300#16) = .next t ∧ t.qd.count = some 0) ∧
      (∃ t, step agentsTurn = .next t ∧ t.qd.count = some 5) ∧
      ∃ t, step agentsDelivery = .next t ∧ t.qd.count = some 0 :=
  ⟨by decide, by decide, ⟨_, rfl, rfl⟩, ⟨_, rfl, rfl⟩, ⟨_, rfl, rfl⟩, ⟨_, rfl, rfl⟩⟩

/-! ### Witnesses: errors and the whole machine -/

/-- A command not allowed, and one allowed that ends. -/
theorem witness_CommandsEndAsTheirRowSays :
    ¬ allowedIn (fresh [] []) .qdPoll ∧ allowedIn ready06 .srLatch ∧
      ∃ t, exec .srLatch ready06 = .next t := by
  refine ⟨?_, rfl, ⟨_, rfl⟩⟩
  show ¬ ((fresh [] []).qd.phase = .live)
  decide

/-- For each clause, a state that lacks exactly what the clause names. -/
theorem witness_ReadWithoutValueFaults :
    ({ ready06 with sr := { ready06.sr with latch := Line.idle } }.sr.phase = .ready ∧
      srLinesDriven { ready06.sr with latch := Line.idle } = false) ∧
    ((live true 7 []).qd.phase = .live ∧
      qdLinesHeld { (live true 7 []).qd with b := .unconfigured } = false ∧
      qdLinesHeld (live true 7 []).qd = true ∧ (live true 7 []).qd.lastA ≠ none) ∧
    ({ (live true 7 []).qd with lastA := none }.lastA = none ∧
      { (live true 7 []).qd with count := none }.count = none) := by decide

theorem witness_ComponentsIndependent :
    (∃ t, exec (.srSerialize 0x06#8) (both 0x1106#16) = .next t) ∧
      ∃ t, exec .qdPoll (both 0x2100#16) = .next t :=
  ⟨⟨_, rfl⟩, ⟨_, rfl⟩⟩

/-- A step of the host and a step of another agent. -/
theorem witness_step_answers :
    (∃ t, step (both 0x1106#16) = .next t) ∧ ∃ t, step agentsTurn = .next t := ⟨⟨_, rfl⟩, ⟨_, rfl⟩⟩

/-- A step that loses a line, and one from a state that lost one before. -/
theorem witness_FaultSetOnlyByLostLine :
    (∃ t, step (failAt 0 (both 0x1106#16)) = .next t ∧ t.fault = true) ∧
      ∃ t, step { both 0x1106#16 with fault := true } = .next t :=
  ⟨⟨_, rfl, rfl⟩, ⟨_, rfl⟩⟩

/-- The invariant holds of a state with both components constructed. -/
theorem witness_inv_both (w : Word) : Inv (both w) where
  shift_width := by rfl
  out_width := by rfl
  sr_idle h := absurd (.inl rfl) h
  sr_driven _ := by rfl
  sr_owner _ l := by cases l <;> rfl
  sr_pins _ := by show [0, 1, 2].Nodup; decide
  sr_only p hp :=
    match p, hp with
    | 0, _ => ⟨.inl rfl, .data, rfl⟩
    | 1, _ => ⟨.inl rfl, .shclk, rfl⟩
    | 2, _ => ⟨.inl rfl, .latch, rfl⟩
    | 3, h => nomatch h
    | 4, h => nomatch h
    | 5, h => nomatch h
    | _ + 6, h => nomatch h
  sr_rest _ := ⟨rfl, rfl⟩
  sr_trace :=
    { level := fun _ l => by cases l <;> rfl
      shift := fun _ => by
        have h : (tracedOf (both w)).shift = (byteBits 0x06#8).map some := by rfl
        rw [h]
        exact List.forall₂_map_left_iff.2 (List.forall₂_same.2 (fun _ _ _ h => (Option.some.inj h).symm))
      out := fun _ => by
        have h : (tracedOf (both w)).out = (byteBits 0x06#8).map some := by rfl
        rw [h]
        exact List.forall₂_map_left_iff.2 (List.forall₂_same.2 (fun _ _ _ h => (Option.some.inj h).symm))
      idle := fun h => absurd (.inl rfl) h
      lost_phase := fun h => nomatch h
      failed_lost := fun h => nomatch h
      lost_fault := fun h => nomatch h }
  qd_held _ l := by cases l <;> rfl
  qd_idle h := absurd (.inl rfl) h
  qd_owner _ l := by cases l <;> rfl
  qd_pins _ := by show [3, 4, 5].Nodup; decide
  qd_only p hp :=
    match p, hp with
    | 3, _ => ⟨.inl rfl, .a, rfl⟩
    | 4, _ => ⟨.inl rfl, .b, rfl⟩
    | 5, _ => ⟨.inl rfl, .sw, rfl⟩
    | 0, h => nomatch h
    | 1, h => nomatch h
    | 2, h => nomatch h
    | _ + 6, h => nomatch h
  registered_held := ⟨fun _ => .inl rfl, fun _ => rfl⟩
  pending_registered _ := rfl
  count_value := ⟨fun _ h => (nomatch h), fun _ => rfl⟩
  count_range c hc := by cases hc; show inRangeW 32 5; decide
  last_value _ := rfl
  last_unconstructed h := by cases h
  result_range r hr := by cases hr
  failed_fault h := by rcases h with h | h | h <;> cases h

/-- One byte sent to one chip, from a state of the invariant. -/
theorem witness_OutputsDefinedAfterDepthSerializes :
    Inv (both 0x1300#16) ∧ srAtRest (both 0x1300#16) ∧ (both 0x1300#16).cfg.chainDepth = 1 ∧
      (both 0x1300#16).chip.shift.length = 8 ∧ noLineFailure (24 * 1 + 2) (both 0x1300#16) :=
  ⟨witness_inv_both _, by decide, rfl, rfl, by decide⟩

/-- The premises of the whole-machine statements, with and without a teardown owed. -/
theorem witness_whole_machine :
    launchLegal (both 0x1300#16) = true ∧ (both 0x1300#16).host.second = false ∧
      (both 0x1300#16).host.words ≠ [] ∧ (both 0x1300#16).fault = false ∧
      noLineFailure 29 (both 0x1300#16) ∧ (both 0x1300#16).env.turnAt 0 = .host ∧
      owesTeardown (both 0x1300#16) = true ∧ owesTeardown (fresh [] []) = false ∧
      legalOwner0 resetOwner = true := by decide

end Sys2Proof.Tests
end

section
/-! PROOFS. The statements of 00_scope: acquisition (R17) and the independence of the two components (R2). -/

namespace Sys2Proof.Machine

open Sys2Proof.Config

/-! ### Acquisition -/

/-- When `Acquire` is refused for a line of the driver (00_scope R17). -/
theorem acquireSrLine_refused_iff (l : SrLine) (s : State) :
    (acquireSrLine l s).1 = false ↔
      s.owner[srPin s.cfg l]? ≠ some .free ∨ s.env.deniedAt 0 = true := by
  rcases acquireSrLine_cases l s with ⟨hfree, hdenied⟩ | htaken
  · simp [acquireSrLine_of_free hfree hdenied, hfree, hdenied]
  · simp only [acquireSrLine_of_taken htaken, htaken]

/-- When `Acquire` is refused for a line of the decoder (00_scope R17). -/
theorem acquireQdLine_refused_iff (l : QdLine) (s : State) :
    (acquireQdLine l s).1 = false ↔
      s.owner[qdPin s.cfg l]? ≠ some .free ∨ s.env.deniedAt 0 = true := by
  rcases acquireQdLine_cases l s with ⟨hfree, hdenied⟩ | htaken
  · simp [acquireQdLine_of_free hfree hdenied, hfree, hdenied]
  · simp only [acquireQdLine_of_taken htaken, htaken]

/-- An acquisition of the driver that succeeds gives `srLineAcquired`. -/
theorem acquireSrLine_acquired {l : SrLine} {s : State} (h : (acquireSrLine l s).1 = true) :
    (acquireSrLine l s).2 = srLineAcquired l s := by
  rcases acquireSrLine_cases l s with ⟨hfree, hdenied⟩ | htaken
  · rw [acquireSrLine_of_free hfree hdenied]; rfl
  · exact absurd h (by simp [acquireSrLine_of_taken htaken])

/-- An acquisition of the decoder that succeeds gives `qdLineAcquired`. -/
theorem acquireQdLine_acquired {l : QdLine} {s : State} (h : (acquireQdLine l s).1 = true) :
    (acquireQdLine l s).2 = qdLineAcquired l s := by
  rcases acquireQdLine_cases l s with ⟨hfree, hdenied⟩ | htaken
  · rw [acquireQdLine_of_free hfree hdenied]; rfl
  · exact absurd h (by simp [acquireQdLine_of_taken htaken])

/-- Settles O10: a pin that is `FREE` and not denied is taken, and every other pin is refused. -/
theorem acquireRefusedExactly : Obligations.AcquireRefusedExactly := by
  unfold Obligations.AcquireRefusedExactly
  intro s
  refine ⟨fun l => ⟨acquireSrLine_refused_iff l s, fun h => ?_⟩,
    fun l => ⟨acquireQdLine_refused_iff l s, fun h => ?_⟩⟩
  · rw [acquireSrLine_acquired h]
    exact ⟨rfl, by simp [srLineAcquired]⟩
  · rw [acquireQdLine_acquired h]
    exact ⟨rfl, by simp [qdLineAcquired]⟩

/-! ### The two components -/

/-- What every command of the driver leaves alone (00_scope R2). -/
theorem exec_srSide {i : Instr} {s t : State} (hi : isSrCommand i = true)
    (h : exec i s = .next t) : SrSide s t := by
  cases i with
  | srInit =>
    rcases execSrInit_next h with ⟨_, rfl⟩ | ⟨_, rfl⟩
    · exact endWith_srSide _ s
    · exact srConstruct_side s
  | srSerialize b =>
    rcases execSrSerialize_next h with ⟨_, rfl⟩ | ⟨_, _, rfl⟩
    · exact endWith_srSide _ s
    · obtain ⟨_, _, hframe⟩ := runActions_frame (serializeActions s.cfg.bitOrder b) s
      exact hframe.side.trans (endSr_side _)
  | srLatch =>
    rcases execSrLatch_next h with ⟨_, rfl⟩ | ⟨_, _, rfl⟩
    · exact endWith_srSide _ s
    · obtain ⟨_, _, hframe⟩ := runActions_frame (pulse .latch) s
      exact hframe.side.trans (endSr_side _)
  | srTeardown =>
    rcases execSrTeardown_next h with ⟨_, rfl⟩ | ⟨_, rfl⟩ | ⟨_, _, rfl⟩
    · exact endWith_srSide _ s
    · exact endWith_srSide _ s
    · exact (runBestEffort_frame teardownActions s).side.trans (teardownRelease_side _)
  | qdInit | qdPoll | qdReadCount | qdReset | qdRelease => cases hi

/-- What every command of the decoder leaves alone (00_scope R2). -/
theorem exec_qdSide {i : Instr} {s t : State} (hi : isSrCommand i = false)
    (h : exec i s = .next t) : QdSide s t := by
  cases i with
  | qdInit =>
    rcases execQdInit_next h with ⟨_, rfl⟩ | ⟨_, rfl⟩
    · exact endWith_qdSide _ s
    · exact qdConstruct_side s
  | qdPoll =>
    rcases execQdPoll_next h with ⟨_, rfl⟩ | ⟨_, _, _, _, rfl⟩
    · exact endWith_qdSide _ s
    · exact pollStep_side s
  | qdReadCount =>
    rcases execQdReadCount_next h with ⟨_, rfl⟩ | ⟨_, _, rfl⟩
    · exact endWith_qdSide _ s
    · exact (countLoad_access_frame s).side.trans (endWith_qdSide _ _)
  | qdReset =>
    rcases execQdReset_next h with ⟨_, rfl⟩ | ⟨_, rfl⟩
    · exact endWith_qdSide _ s
    · exact (countStore_access_frame 0 s).1.side.trans (endWith_qdSide _ _)
  | qdRelease =>
    rcases execQdRelease_next h with ⟨_, rfl⟩ | ⟨_, rfl⟩ | ⟨_, rfl⟩
    · exact endWith_qdSide _ s
    · exact endWith_qdSide _ s
    · exact qdReleaseAll_side s
  | srInit | srSerialize b | srLatch | srTeardown => cases hi

/-- Settles O52, by the frames `SrSide` and `QdSide` of the two families. -/
theorem componentsIndependent : Obligations.ComponentsIndependent := by
  unfold Obligations.ComponentsIndependent
  intro i s t h
  constructor
  · intro hi
    have side := exec_srSide hi h
    have henv := side.env
    exact ⟨side.qd, side.result, by rw [henv], by rw [henv], by rw [henv]⟩
  · intro hi
    have side := exec_qdSide hi h
    have henv := side.env
    exact ⟨side.sr, side.chip, by rw [henv], by rw [henv]⟩

end Sys2Proof.Machine
end

section
/-! PROOFS. The turn a step takes, elements without a value (10_state R47), and the invariant at power-on
(10_state R45). -/

namespace Sys2Proof.Machine

open Sys2Proof.Config

/-! ### Taking a step -/

/-- A legal machine with one host and a word left takes a turn. -/
theorem step_of_legal {s : State} {w : Word} {rest : List Word} (hl : launchLegal s = true)
    (h2 : s.host.second = false) (hw : s.host.words = w :: rest) : step s = takeTurn w rest s := by
  simp [step, hl, h2, hw]

/-- The host's turn issues its next word. -/
theorem takeTurn_host {s : State} (w : Word) (rest : List Word) (ht : s.env.turnAt 0 = .host) :
    takeTurn w rest s = issue w (issued rest s) := by
  simp [takeTurn, ht]

/-- Another agent's turn is its step. -/
theorem takeTurn_agent {s : State} {a : AsyncStep} (w : Word) (rest : List Word)
    (ht : s.env.turnAt 0 = .agent a) : takeTurn w rest s = .next (asyncStep a (turnTaken s)) := by
  simp [takeTurn, ht]

theorem issue_of_command {w : Word} {i : Instr} (s : State) (h : decode w = .command i) :
    issue w s = exec i s := by
  simp [issue, h]

theorem issue_of_illegal {w : Word} {why : IllegalWord} (s : State) (h : decode w = .illegal why) :
    issue w s = .next (endWith .illegalCommand s) := by
  simp [issue, h]

/-- Every command's row is one of the opcode map (30_encoding R93). -/
theorem opcodeRow_mem (i : Instr) : opcodeRow i ∈ opcodeRows := by
  cases i <;> simp [opcodeRows, opcodeRow]

/-- A format-N word that decodes to a command decodes to its row's, with a zero operand. -/
theorem decodeFormatN_command {b : Byte} {i j : Instr} (h : decodeFormatN b i = .command j) :
    j = i ∧ b = 0x00#8 := by
  unfold decodeFormatN at h
  split_ifs at h with hb
  exact ⟨(Decoded.command.inj h).symm, hb⟩

/-- A word that decodes to a command has the command's `op`, and its operand is zero but for a byte
that is sent (30_encoding R91 to R94). -/
theorem decode_command_fields {w : Word} {i : Instr} (h : decode w = .command i) :
    opField w = opField (encode i) ∧ ((∃ b, i = .srSerialize b) ∨ imm8Field w = 0x00#8) := by
  have formatN : ∀ {j : Instr} {c : Byte}, encode j = c ++ 0x00#8 → opField w = c →
      decodeFormatN (imm8Field w) j = .command i →
      opField w = opField (encode i) ∧ ((∃ b, i = .srSerialize b) ∨ imm8Field w = 0x00#8) := by
    intro j c hc hop hj
    obtain ⟨rfl, himm⟩ := decodeFormatN_command hj
    exact ⟨by rw [hc, opField_append, hop], .inr himm⟩
  simp only [decode] at h
  split_ifs at h with h0 h1 h2 h3 h4 h5 h6 h7 h8
  · exact formatN (j := .srInit) rfl h0 h
  · obtain rfl := Decoded.command.inj h
    exact ⟨by rw [encode, opField_append, h1], .inl ⟨_, rfl⟩⟩
  · exact formatN (j := .srLatch) rfl h2 h
  · exact formatN (j := .srTeardown) rfl h3 h
  · exact formatN (j := .qdInit) rfl h4 h
  · exact formatN (j := .qdPoll) rfl h5 h
  · exact formatN (j := .qdReadCount) rfl h6 h
  · exact formatN (j := .qdReset) rfl h7 h
  · exact formatN (j := .qdRelease) rfl h8 h

/-- A word that selects no row is illegal (30_encoding R94). -/
theorem decode_illegal_of_no_row {w : Word} (h : ∀ r ∈ opcodeRows, ¬ r.selects w) :
    ∃ why, decode w = .illegal why := by
  cases hd : decode w with
  | illegal why => exact ⟨why, rfl⟩
  | command i =>
    exact absurd ((opcodeRow_selects w i).2 (decode_command_fields hd)) (h _ (opcodeRow_mem i))

/-- Settles O6: the host's turn is `issue` of its next word. -/
theorem stepIssuesHostsWord : Obligations.StepIssuesHostsWord := by
  unfold Obligations.StepIssuesHostsWord
  intro s u w rest hl h2 hw ht hu
  have hstep : step s = issue w u := by
    rw [step_of_legal hl h2 hw, takeTurn_host w rest ht, hu]
    rfl
  refine ⟨hstep, fun i hi => hstep.trans (issue_of_command u hi), fun hrow => ?_⟩
  obtain ⟨why, hwhy⟩ := decode_illegal_of_no_row hrow
  exact ⟨_, hstep.trans (issue_of_illegal u hwhy), rfl⟩

/-- Settles O9: each stop of `step` by the test that names it. -/
theorem stepStopsAsNamed : Obligations.StepStopsAsNamed := by
  unfold Obligations.StepStopsAsNamed
  intro s
  refine ⟨fun hl => ?_, fun hl h2 => ?_, fun hl h2 hw => ?_⟩
  · simp [step, hl]
  · simp [step, hl, h2]
  · simp [step, hl, h2, hw]

/-! ### Elements without a value -/

/-- Settles O51: in each command the checks before the missing element pass and that element's fails. -/
theorem readWithoutValueFaults : Obligations.ReadWithoutValueFaults := by
  unfold Obligations.ReadWithoutValueFaults
  intro s
  refine ⟨fun hp hd => ⟨fun b => ?_, ?_⟩, fun hp hd => ?_, fun hp hl => ?_, fun hp hl ha => ?_,
    fun hp hl ha hc => ?_, fun hp hc => ?_⟩
  · simp [exec, execSrSerialize, hp, hd]
  · simp [exec, execSrLatch, hp, hd]
  · rcases hp with hp | hp <;> simp [exec, execSrTeardown, hp, hd]
  · simp [exec, execQdPoll, hp, hl]
  · simp [exec, execQdPoll, hp, hl, ha]
  · simp [exec, execQdPoll, hp, hl, ha, hc]
  · simp [exec, execQdReadCount, hp, hc]

/-- The decoder's lines in a state of the invariant have the modes they are read in. -/
theorem Inv.qd_linesHeld {s : State} (h : Inv s) (hh : qdHolds s) : qdLinesHeld s.qd = true :=
  (qdLinesHeld_iff s.qd).2 fun l => by
    rw [h.qd_held hh l]
    exact qdMode_ne_unconfigured s.cfg l

/-- From a state of the invariant every command answers a next state (10_state R47). -/
theorem exec_next_of_inv {s : State} (h : Inv s) (i : Instr) : ∃ t, exec i s = .next t := by
  cases i with
  | srInit =>
    by_cases hp : s.sr.phase = .unconstructed <;> simp [exec, execSrInit, hp]
  | srSerialize b =>
    by_cases hp : s.sr.phase = .ready
    · simp [exec, execSrSerialize, hp, h.sr_driven (.inl hp)]
    · simp [exec, execSrSerialize, hp]
  | srLatch =>
    by_cases hp : s.sr.phase = .ready
    · simp [exec, execSrLatch, hp, h.sr_driven (.inl hp)]
    · simp [exec, execSrLatch, hp]
  | srTeardown =>
    cases hp : s.sr.phase with
    | unconstructed | tornDown => simp [exec, execSrTeardown, hp]
    | ready => simp [exec, execSrTeardown, hp, h.sr_driven (.inl hp)]
    | failed => simp [exec, execSrTeardown, hp, h.sr_driven (.inr hp)]
  | qdInit =>
    by_cases hp : s.qd.phase = .unconstructed <;> simp [exec, execQdInit, hp]
  | qdPoll =>
    by_cases hp : s.qd.phase = .live
    · have hc : s.qd.count ≠ none := Option.isSome_iff_ne_none.1 (h.count_value.2 (by simp [hp]))
      have ha : s.qd.lastA ≠ none := Option.isSome_iff_ne_none.1 (h.last_value hp)
      simp [exec, execQdPoll, hp, h.qd_linesHeld (.inl hp), ha, hc]
    · simp [exec, execQdPoll, hp]
  | qdReadCount =>
    by_cases hp : s.qd.phase = .unconstructed
    · simp [exec, execQdReadCount, hp]
    · have hc : s.qd.count ≠ none := Option.isSome_iff_ne_none.1 (h.count_value.2 hp)
      simp [exec, execQdReadCount, hp, hc]
  | qdReset =>
    by_cases hp : s.qd.phase = .unconstructed <;> simp [exec, execQdReset, hp]
  | qdRelease =>
    cases hp : s.qd.phase <;> simp [exec, execQdRelease, hp]

/-! ### The invariant at power-on and across a turn -/

/-- Issuing a word keeps the invariant, which reads neither the host nor the schedule. -/
theorem Inv.host_turn {s : State} (h : Inv s) (rest : List Word) : Inv (issued rest s) :=
  h.congr rfl rfl rfl rfl rfl rfl rfl id fun hs => h.failed_fault (.inr (.inr hs))

/-- So does taking another agent's turn. -/
theorem Inv.agent_turn {s : State} (h : Inv s) : Inv (turnTaken s) :=
  h.congr rfl rfl rfl rfl rfl rfl rfl id fun hs => h.failed_fault (.inr (.inr hs))

/-- A command that ends with no more than a status keeps the invariant. -/
theorem Inv.ended {s : State} (h : Inv s) {st : Status} (hst : st ≠ .platformLineFailure) :
    Inv (endWith st s) :=
  h.congr rfl rfl rfl rfl rfl rfl rfl id fun hs => absurd (Option.some.inj hs) hst

/-- Settles O59: a word issued or an agent's step, both of which answer a next state. -/
theorem legalMachineTakesStep : Obligations.LegalMachineTakesStep := by
  unfold Obligations.LegalMachineTakesStep
  intro s h hl h2 hw
  obtain ⟨w, rest, hw⟩ := List.exists_cons_of_ne_nil hw
  rw [step_of_legal hl h2 hw]
  cases ht : s.env.turnAt 0 with
  | agent a => exact ⟨_, takeTurn_agent w rest ht⟩
  | host =>
    rw [takeTurn_host w rest ht]
    cases hd : decode w with
    | illegal why => exact ⟨_, issue_of_illegal _ hd⟩
    | command i =>
      rw [issue_of_command _ hd]
      exact exec_next_of_inv (h.host_turn rest) i

/-- No pin of a legal launch map is the block's own (10_state R44). -/
theorem legalOwner0_outside {owner0 : List Owner} (h : legalOwner0 owner0 = true) {p : Nat} {x : Owner}
    (hp : owner0[p]? = some x) : x = .free ∨ x = .other := by
  simpa using List.all_eq_true.1 h x (List.mem_of_getElem? hp)

/-- No component holds a line at power-on (10_state R45). -/
theorem powerOn_holds_nothing (cfg : Settings) (owner0 : List Owner) (words : List Word) (env : Env) :
    ¬ srHolds (State.powerOn cfg owner0 words env) ∧ ¬ qdHolds (State.powerOn cfg owner0 words env) := by
  constructor <;> rintro (h | h) <;> cases h

/-- The invariant at power-on (10_state R45). -/
theorem inv_powerOn (cfg : Settings) {owner0 : List Owner} (words : List Word) (env : Env)
    (h : legalOwner0 owner0 = true) : Inv (State.powerOn cfg owner0 words env) where
  shift_width := Env.chipBits_length ..
  out_width := Env.chipBits_length ..
  sr_idle _ l := by cases l <;> rfl
  sr_driven hh := absurd hh (powerOn_holds_nothing ..).1
  sr_owner hh := absurd hh (powerOn_holds_nothing ..).1
  sr_pins hh := absurd hh (powerOn_holds_nothing ..).1
  sr_only p hp := by simpa using legalOwner0_outside h hp
  sr_rest hp := by simp [State.powerOn] at hp
  sr_trace := by
    refine .of_nothing ⟨rfl, rfl, fun l => ?_⟩ (fun l => ?_)
      ⟨Env.chipBits_length .., Env.chipBits_length ..⟩ (by simp [State.powerOn]) (fun hl => ?_)
    · cases l <;> rfl
    · cases l <;> rfl
    · cases hl
  qd_held hh := absurd hh (powerOn_holds_nothing ..).2
  qd_idle _ l := by cases l <;> rfl
  qd_owner hh := absurd hh (powerOn_holds_nothing ..).2
  qd_pins hh := absurd hh (powerOn_holds_nothing ..).2
  qd_only p hp := by simpa using legalOwner0_outside h hp
  registered_held := by simp [State.powerOn]
  pending_registered _ := rfl
  count_value := by simp [State.powerOn]
  count_range c hc := by cases hc
  last_value hp := by cases hp
  last_unconstructed _ := rfl
  result_range r hr := by cases hr
  failed_fault hf := by simp [State.powerOn] at hf

/-- Settles O57; `State.reset` is one such launch. -/
theorem invAtPowerOn : Obligations.InvAtPowerOn := by
  unfold Obligations.InvAtPowerOn
  exact ⟨fun cfg _ words env h => inv_powerOn cfg words env h, inv_powerOn _ _ _ (by decide)⟩

end Sys2Proof.Machine
end

section
/-! PROOFS. What every step leaves alone: the configuration (10_state R43), the trace but for its end (R26),
and `fault` but for a line that is lost (R41). -/

namespace Sys2Proof.Machine

open Sys2Proof.Config

/-! ### The configuration and the trace -/

/-- No command writes the configuration, and none takes an event from the trace. -/
theorem exec_cfg_trace {i : Instr} {s t : State} (h : exec i s = .next t) :
    t.cfg = s.cfg ∧ ∃ es, t.sr.trace = s.sr.trace ++ es := by
  cases hi : isSrCommand i
  · have side := exec_qdSide hi h
    exact ⟨side.cfg, [], by rw [side.sr, List.append_nil]⟩
  · have side := exec_srSide hi h
    exact ⟨side.cfg, side.trace⟩

/-- Nor does a step. -/
theorem step_cfg_trace {s t : State} (h : step s = .next t) :
    t.cfg = s.cfg ∧ ∃ es, t.sr.trace = s.sr.trace ++ es := by
  obtain ⟨_, _, w, rest, _, hturn⟩ := step_next h
  rcases hturn with ⟨_, ⟨why, _, rfl⟩ | ⟨i, _, hexec⟩⟩ | ⟨a, _, rfl⟩
  · exact ⟨rfl, [], by simp⟩
  · exact exec_cfg_trace (s := issued rest s) hexec
  · have frame := asyncStep_frame a (turnTaken s)
    exact ⟨frame.cfg, [], by rw [frame.sr]; simp⟩

/-- Settles O53, by the frames of the two families and of the other agents. -/
theorem configurationFixed : Obligations.ConfigurationFixed := by
  unfold Obligations.ConfigurationFixed
  exact fun _ _ h => (step_cfg_trace h).1

/-- Settles O55, by the same frames. -/
theorem traceOnlyGrows : Obligations.TraceOnlyGrows := by
  unfold Obligations.TraceOnlyGrows
  exact fun _ _ h => (step_cfg_trace h).2

/-! ### The line accesses of a step -/

/-- From `s` to `t`, `n` line accesses are made, and `fault` is set exactly by one that fails (10_state
R41). -/
structure LineAccesses (n : Nat) (s t : State) : Prop where
  fails : t.env.fails = s.env.fails.drop n
  fault : t.fault = true ↔ s.fault = true ∨ ∃ k, k < n ∧ s.env.failsAt k = true

/-- No line access: no draw is taken and `fault` stays. -/
theorem LineAccesses.of_same {s t : State} (hd : t.env.fails = s.env.fails) (hf : t.fault = s.fault) :
    LineAccesses 0 s t where
  fails := by rw [hd, Tape.drop_zero]
  fault := by simp [hf]

theorem LineAccesses.trans {m n : Nat} {s t u : State} (h : LineAccesses m s t)
    (k : LineAccesses n t u) : LineAccesses (m + n) s u where
  fails := by rw [k.fails, h.fails, Tape.drop_drop]
  fault := by
    have draws : ∀ j, t.env.failsAt j = s.env.failsAt (m + j) := fun j => by
      simp only [Env.failsAt, h.fails, Tape.nth_drop]
    simp only [k.fault, h.fault, draws, or_assoc]
    refine or_congr_right ⟨?_, ?_⟩
    · rintro (⟨j, hj, hx⟩ | ⟨j, hj, hx⟩)
      · exact ⟨j, by omega, hx⟩
      · exact ⟨m + j, by omega, hx⟩
    · rintro ⟨j, hj, hx⟩
      by_cases hm : j < m
      · exact .inl ⟨j, hm, hx⟩
      · exact .inr ⟨j - m, by omega, by rwa [Nat.add_sub_cancel' (by omega)]⟩

/-- A stretch without line accesses before others. -/
theorem LineAccesses.after {n : Nat} {s t u : State} (h : LineAccesses 0 s t)
    (k : LineAccesses n t u) : LineAccesses n s u := by
  simpa using h.trans k

theorem AsyncFrame.noAccess {s t : State} (h : AsyncFrame s t) : LineAccesses 0 s t :=
  .of_same (by rw [h.env]) h.fault

theorem CountFrame.noAccess {s t : State} (h : CountFrame s t) : LineAccesses 0 s t :=
  .of_same (by rw [h.env]) h.fault

theorem releaseSrLine_noAccess (l : SrLine) (s : State) : LineAccesses 0 s (releaseSrLine l s) := by
  unfold releaseSrLine freePin
  split <;> exact .of_same rfl rfl

theorem releaseQdLine_noAccess (l : QdLine) (s : State) : LineAccesses 0 s (releaseQdLine l s) := by
  unfold releaseQdLine freePin
  split <;> exact .of_same rfl rfl

theorem releaseAll_qd_noAccess (s : State) : LineAccesses 0 s (releaseAll releaseQdLine qdLines s) :=
  ((releaseQdLine_noAccess .a s).after (releaseQdLine_noAccess .b _)).after
    (releaseQdLine_noAccess .sw _)

/-- A run of actions makes an access for each write it comes to. -/
theorem runActions_accesses (as : List Action) (s : State) :
    ∃ n, LineAccesses n s (runActions as s).2 := by
  obtain ⟨n, _, hframe, hfault⟩ := runActions_taken as s
  exact ⟨n, by rw [hframe.env], hfault⟩

/-- A run of best effort makes one for every write. -/
theorem runBestEffort_accesses (as : List Action) (s : State) :
    LineAccesses (writeCount as) s (runBestEffort as s) :=
  ⟨by rw [(runBestEffort_frame as s).env], runBestEffort_fault as s⟩

theorem endSr_noAccess (r : Bool × State) : LineAccesses 0 r.2 (endSr r) := by
  unfold endSr srLost
  split <;> exact .of_same rfl rfl

theorem teardownRelease_noAccess (s : State) : LineAccesses 0 s (teardownRelease s) :=
  (((releaseSrLine_noAccess .data s).after (releaseSrLine_noAccess .shclk _)).after
    (releaseSrLine_noAccess .latch _)).after (.of_same rfl rfl)

theorem srDriveLow_accesses (s : State) : ∃ n, LineAccesses n s (srDriveLow s) := by
  obtain ⟨n, h⟩ := runActions_accesses lowActions s
  refine ⟨n + 0, h.trans ?_⟩
  unfold srDriveLow srLost
  simp only
  split <;> exact .of_same rfl rfl

/-- `SR_INIT` accesses no line before it drives its three low (40 R125). -/
theorem srConstruct_accesses (s : State) : ∃ n, LineAccesses n s (srConstruct s) := by
  have a1 : LineAccesses 0 s (srAcquired1 s) := .of_same rfl rfl
  have a2 : LineAccesses 0 s (srAcquired2 s) := .of_same rfl rfl
  have a3 : LineAccesses 0 s (srAcquired3 s) := .of_same rfl rfl
  have refused : ∀ u, LineAccesses 0 u (acquireRefused u) := fun _ => .of_same rfl rfl
  have raised : ∀ p u, LineAccesses 0 u (raiseUnavailable p u) := fun _ _ => .of_same rfl rfl
  rcases srConstruct_cases s with ⟨_, h⟩ | ⟨_, _, ⟨_, h⟩ | ⟨_, _, ⟨_, h⟩ | ⟨_, _, h⟩⟩⟩ <;> rw [h]
  · exact ⟨0, (refused s).after (raised _ _)⟩
  · exact ⟨0, ((a1.after (refused _)).after (releaseSrLine_noAccess .data _)).after (raised _ _)⟩
  · exact ⟨0, (((a2.after (refused _)).after (releaseSrLine_noAccess .data _)).after
      (releaseSrLine_noAccess .shclk _)).after (raised _ _)⟩
  · obtain ⟨n, hlow⟩ := srDriveLow_accesses (srAcquired3 s)
    exact ⟨n, a3.after hlow⟩

/-- `ReadLevel` is one access. -/
theorem readLevel_accesses (l : QdLine) (s : State) : LineAccesses 1 s (readLevel l s).2 := by
  cases h : s.env.failsAt 0
  · rw [readLevel_of_ok h]
    exact ⟨rfl, by simp [h]⟩
  · rw [readLevel_of_lost h]
    exact ⟨rfl, by simp [h]⟩

theorem onFallingEdge_noAccess (s : State) : LineAccesses 0 s (onFallingEdge s).2 := by
  unfold onFallingEdge
  simp only
  split <;> exact .of_same rfl rfl

theorem qdRegister_accesses (s : State) : ∃ n, LineAccesses n s (qdRegister s) := by
  have h1 := onFallingEdge_noAccess s
  unfold qdRegister
  split
  · rename_i s1 e
    rw [e] at h1
    exact ⟨0, (h1.after (releaseAll_qd_noAccess s1)).after (.of_same rfl rfl)⟩
  · rename_i s1 e
    rw [e] at h1
    have h2 := (h1.after (interleave_frame s1).1.noAccess).after
      (readLevel_accesses .a (interleave s1))
    split
    · rename_i s2 e2
      rw [e2] at h2
      exact ⟨1 + 0, h2.trans (.of_same rfl rfl)⟩
    · rename_i v s2 e2
      rw [e2] at h2
      exact ⟨1 + 0, h2.trans (.of_same rfl rfl)⟩

theorem qdCleared_noAccess (s : State) : LineAccesses 0 s (qdCleared s) :=
  (countStore_access_frame 0 s).1.noAccess.after (.of_same rfl rfl)

/-- `QD_INIT` accesses no line before its first read of A (41 R165). -/
theorem qdConstruct_accesses (s : State) : ∃ n, LineAccesses n s (qdConstruct s) := by
  have a1 : LineAccesses 0 s (qdAcquired1 s) := .of_same rfl rfl
  have a2 : LineAccesses 0 s (qdAcquired2 s) := .of_same rfl rfl
  have a3 : LineAccesses 0 s (qdAcquired3 s) := .of_same rfl rfl
  have refused : ∀ u, LineAccesses 0 u (acquireRefused u) := fun _ => .of_same rfl rfl
  have raised : ∀ p u, LineAccesses 0 u (raiseUnavailable p u) := fun _ _ => .of_same rfl rfl
  rcases qdConstruct_cases s with ⟨_, h⟩ | ⟨_, _, ⟨_, h⟩ | ⟨_, _, ⟨_, h⟩ | ⟨_, _, h⟩⟩⟩ <;> rw [h]
  · exact ⟨0, (refused s).after (raised _ _)⟩
  · exact ⟨0, ((a1.after (refused _)).after (releaseQdLine_noAccess .a _)).after (raised _ _)⟩
  · exact ⟨0, (((a2.after (refused _)).after (releaseQdLine_noAccess .a _)).after
      (releaseQdLine_noAccess .b _)).after (raised _ _)⟩
  · obtain ⟨n, hreg⟩ := qdRegister_accesses (qdCleared (qdAcquired3 s))
    exact ⟨n, (a3.after (qdCleared_noAccess _)).after hreg⟩

theorem pollSamples_noAccess (a b : Bool) (s : State) : LineAccesses 0 s (pollSamples a b s) := by
  unfold pollSamples
  simp only
  split
  · exact .of_same rfl rfl
  · exact (countAdd_access_frame (pollDelta a b) s).1.noAccess.after (.of_same rfl rfl)

/-- A poll reads A, and B where A could be read (41 R170, R175). -/
theorem pollStep_accesses (s : State) : ∃ n, LineAccesses n s (pollStep s) := by
  have hA := readLevel_accesses .a s
  unfold pollStep
  split
  · rename_i s1 e
    rw [e] at hA
    exact ⟨1 + 0, hA.trans (.of_same rfl rfl)⟩
  · rename_i currA s1 e
    rw [e] at hA
    have hB := readLevel_accesses .b s1
    split
    · rename_i s2 e2
      rw [e2] at hB
      exact ⟨1 + (1 + 0), hA.trans (hB.trans (.of_same rfl rfl))⟩
    · rename_i currB s2 e2
      rw [e2] at hB
      exact ⟨1 + (1 + 0), hA.trans (hB.trans (pollSamples_noAccess currA currB s2))⟩

theorem qdReleaseAll_noAccess (s : State) : LineAccesses 0 s (qdReleaseAll s) := by
  have dropped : LineAccesses 0 s { s with qd := { s.qd with registered := false, pending := 0 } } :=
    .of_same rfl rfl
  exact (dropped.after (releaseAll_qd_noAccess _)).after (.of_same rfl rfl)

/-- The line accesses of a command, and `fault` after them. -/
theorem exec_accesses {i : Instr} {s t : State} (h : exec i s = .next t) :
    ∃ n, LineAccesses n s t := by
  have ended : ∀ st u, LineAccesses 0 u (endWith st u) := fun _ _ => .of_same rfl rfl
  cases i with
  | srInit =>
    rcases execSrInit_next h with ⟨_, rfl⟩ | ⟨_, rfl⟩
    · exact ⟨0, ended _ s⟩
    · exact srConstruct_accesses s
  | srSerialize b =>
    rcases execSrSerialize_next h with ⟨_, rfl⟩ | ⟨_, _, rfl⟩
    · exact ⟨0, ended _ s⟩
    · obtain ⟨n, hrun⟩ := runActions_accesses (serializeActions s.cfg.bitOrder b) s
      exact ⟨n + 0, hrun.trans (endSr_noAccess _)⟩
  | srLatch =>
    rcases execSrLatch_next h with ⟨_, rfl⟩ | ⟨_, _, rfl⟩
    · exact ⟨0, ended _ s⟩
    · obtain ⟨n, hrun⟩ := runActions_accesses (pulse .latch) s
      exact ⟨n + 0, hrun.trans (endSr_noAccess _)⟩
  | srTeardown =>
    rcases execSrTeardown_next h with ⟨_, rfl⟩ | ⟨_, rfl⟩ | ⟨_, _, rfl⟩
    · exact ⟨0, ended _ s⟩
    · exact ⟨0, ended _ s⟩
    · exact ⟨_, (runBestEffort_accesses teardownActions s).trans (teardownRelease_noAccess _)⟩
  | qdInit =>
    rcases execQdInit_next h with ⟨_, rfl⟩ | ⟨_, rfl⟩
    · exact ⟨0, ended _ s⟩
    · exact qdConstruct_accesses s
  | qdPoll =>
    rcases execQdPoll_next h with ⟨_, rfl⟩ | ⟨_, _, _, _, rfl⟩
    · exact ⟨0, ended _ s⟩
    · exact pollStep_accesses s
  | qdReadCount =>
    rcases execQdReadCount_next h with ⟨_, rfl⟩ | ⟨_, _, rfl⟩
    · exact ⟨0, ended _ s⟩
    · exact ⟨0, (countLoad_access_frame s).noAccess.after (ended _ _)⟩
  | qdReset =>
    rcases execQdReset_next h with ⟨_, rfl⟩ | ⟨_, rfl⟩
    · exact ⟨0, ended _ s⟩
    · exact ⟨0, (countStore_access_frame 0 s).1.noAccess.after (ended _ _)⟩
  | qdRelease =>
    rcases execQdRelease_next h with ⟨_, rfl⟩ | ⟨_, rfl⟩ | ⟨_, rfl⟩
    · exact ⟨0, ended _ s⟩
    · exact ⟨0, ended _ s⟩
    · exact ⟨0, qdReleaseAll_noAccess s⟩

/-- The line accesses of a step, and `fault` after them. -/
theorem step_accesses {s t : State} (h : step s = .next t) : ∃ n, LineAccesses n s t := by
  obtain ⟨_, _, w, rest, _, hturn⟩ := step_next h
  rcases hturn with ⟨_, ⟨why, _, rfl⟩ | ⟨i, _, hexec⟩⟩ | ⟨a, _, rfl⟩
  · exact ⟨0, .of_same rfl rfl⟩
  · obtain ⟨n, hacc⟩ := exec_accesses hexec
    have taken : LineAccesses 0 s (issued rest s) := .of_same rfl rfl
    exact ⟨n, taken.after hacc⟩
  · have taken : LineAccesses 0 s (turnTaken s) := .of_same rfl rfl
    exact ⟨0, taken.after (asyncStep_frame a (turnTaken s)).noAccess⟩

/-- Settles O54, by the accesses of each command. -/
theorem faultSetOnlyByLostLine : Obligations.FaultSetOnlyByLostLine := by
  unfold Obligations.FaultSetOnlyByLostLine
  intro s t h
  obtain ⟨n, hacc⟩ := step_accesses h
  exact ⟨n, hacc.fails, hacc.fault⟩

end Sys2Proof.Machine
end

section
/-! PROOFS. Which pins change hands (10_state R44): the construction of a component from idle lines, its
release, and the holders outside the block. -/

namespace Sys2Proof.Machine

open Sys2Proof.Config

/-! ### Pins that change hands together -/

/-- The map of owners after each pin of a list has changed hands to `x`. -/
def setPins (ps : List PinId) (x : Owner) (os : List Owner) : List Owner :=
  ps.foldl (fun o p => o.set p x) os

@[simp] theorem setPins_length (ps : List PinId) (x : Owner) (os : List Owner) :
    (setPins ps x os).length = os.length := by
  induction ps generalizing os with
  | nil => rfl
  | cons p ps ih => exact (ih (os.set p x)).trans List.length_set

theorem setPins_three (p q r : PinId) (x : Owner) (os : List Owner) :
    setPins [p, q, r] x os = ((os.set p x).set q x).set r x := rfl

/-- The holder of a pin after pins of the map have changed hands. -/
theorem getElem?_setPins {ps : List PinId} {x : Owner} {os : List Owner}
    (h : ∀ p ∈ ps, p < os.length) (k : Nat) :
    (setPins ps x os)[k]? = if k ∈ ps then some x else os[k]? := by
  induction ps generalizing os with
  | nil => simp [setPins]
  | cons p ps ih =>
    have hp : p < os.length := h p List.mem_cons_self
    have step := ih (os := os.set p x) fun q hq => by
      rw [List.length_set]
      exact h q (List.mem_cons_of_mem p hq)
    rw [show setPins (p :: ps) x os = setPins ps x (os.set p x) from rfl, step]
    by_cases hk : k = p
    · subst hk
      simp [hp]
    · simp [hk, Ne.symm hk]

theorem pins_inRange {ps : List PinId} {y : Owner} {os : List Owner}
    (h : ∀ p ∈ ps, os[p]? = some y) : ∀ p ∈ ps, p < os.length := fun p hp =>
  (List.getElem?_eq_some_iff.1 (h p hp)).1

/-- Pins of one holder that are taken and given back are as before. -/
theorem setPins_back {ps : List PinId} {y : Owner} {os : List Owner}
    (h : ∀ p ∈ ps, os[p]? = some y) (x : Owner) : setPins ps y (setPins ps x os) = os := by
  have range := pins_inRange h
  apply List.ext_getElem?
  intro k
  rw [getElem?_setPins (by simpa using range), getElem?_setPins range]
  split_ifs with hk
  · exact (h k hk).symm
  · rfl

/-- The pins of the new holder. -/
theorem setPins_new {ps : List PinId} {x y : Owner} {os : List Owner}
    (h : ∀ p ∈ ps, os[p]? = some y) (k : Nat) :
    (setPins ps x os)[k]? = some x ↔ k ∈ ps ∨ os[k]? = some x := by
  rw [getElem?_setPins (pins_inRange h)]
  split_ifs with hk <;> simp [hk]

/-- The pins of a holder that neither gives nor takes. -/
theorem setPins_other {ps : List PinId} {x y z : Owner} {os : List Owner}
    (h : ∀ p ∈ ps, os[p]? = some y) (hx : z ≠ x) (hy : z ≠ y) (k : Nat) :
    (setPins ps x os)[k]? = some z ↔ os[k]? = some z := by
  rw [getElem?_setPins (pins_inRange h)]
  split_ifs with hk
  · simp [h k hk, Ne.symm hx, Ne.symm hy]
  · rfl

/-- The pins that have left the old holder. -/
theorem setPins_old {ps : List PinId} {x y : Owner} {os : List Owner}
    (h : ∀ p ∈ ps, os[p]? = some y) (hx : y ≠ x) (k : Nat) :
    (setPins ps x os)[k]? = some y ↔ k ∉ ps ∧ os[k]? = some y := by
  rw [getElem?_setPins (pins_inRange h)]
  split_ifs with hk <;> simp [hk, Ne.symm hx]

/-- Two pins that were free one after the other, the first one taken between, are two free pins. -/
theorem free_of_taken_two {os : List Owner} {p q : PinId} {x : Owner} (hx : x ≠ .free)
    (hp : os[p]? = some .free) (hq : (os.set p x)[q]? = some .free) :
    q ≠ p ∧ os[q]? = some .free := by
  rcases (owner_set_iff hp x .free q).1 hq with ⟨_, hfree⟩ | hfree
  · exact absurd hfree.symm hx
  · exact hfree

/-- The same for three. -/
theorem free_of_taken_three {os : List Owner} {p q r : PinId} {x : Owner} (hx : x ≠ .free)
    (hp : os[p]? = some .free) (hq : (os.set p x)[q]? = some .free)
    (hr : ((os.set p x).set q x)[r]? = some .free) :
    [p, q, r].Nodup ∧ ∀ k ∈ [p, q, r], os[k]? = some .free := by
  obtain ⟨hqp, hq'⟩ := free_of_taken_two hx hp hq
  obtain ⟨hrq, hr'⟩ := free_of_taken_two hx hq hr
  obtain ⟨hrp, hr''⟩ := free_of_taken_two hx hp hr'
  simp [hp, hq', hr'', Ne.symm hqp, Ne.symm hrq, Ne.symm hrp]

/-- The pins of the driver's lines. -/
def srPins (c : Settings) : List PinId := [c.pinData, c.pinShclk, c.pinLatch]

/-- The pins of the decoder's lines. -/
def qdPins (c : Settings) : List PinId := [c.pinA, c.pinB, c.pinSw]

theorem mem_srPins {c : Settings} {p : PinId} : p ∈ srPins c ↔ ∃ l, p = srPin c l := by
  constructor
  · intro h
    simp only [srPins, List.mem_cons, List.not_mem_nil, or_false] at h
    rcases h with h | h | h
    · exact ⟨.data, h⟩
    · exact ⟨.shclk, h⟩
    · exact ⟨.latch, h⟩
  · rintro ⟨l, rfl⟩
    cases l <;> simp [srPins, srPin]

theorem mem_qdPins {c : Settings} {p : PinId} : p ∈ qdPins c ↔ ∃ l, p = qdPin c l := by
  constructor
  · intro h
    simp only [qdPins, List.mem_cons, List.not_mem_nil, or_false] at h
    rcases h with h | h | h
    · exact ⟨.a, h⟩
    · exact ⟨.b, h⟩
    · exact ⟨.sw, h⟩
  · rintro ⟨l, rfl⟩
    cases l <;> simp [qdPins, qdPin]

/-- Pins of one holder change hands together, from or to `FREE` (00_scope R16, R17). -/
def PinsMoved (who : Owner) (os os' : List Owner) : Prop :=
  ∃ (ps : List PinId) (x y : Owner), (x = .free ∨ x = who) ∧ (y = .free ∨ y = who) ∧
    (∀ p ∈ ps, os[p]? = some y) ∧ os' = setPins ps x os

theorem PinsMoved.refl (who : Owner) (os : List Owner) : PinsMoved who os os :=
  ⟨[], .free, .free, .inl rfl, .inl rfl, by simp, rfl⟩

theorem PinsMoved.taken {ps : List PinId} {os : List Owner} (who : Owner)
    (h : ∀ p ∈ ps, os[p]? = some .free) : PinsMoved who os (setPins ps who os) :=
  ⟨ps, who, .free, .inr rfl, .inl rfl, h, rfl⟩

theorem PinsMoved.freed {ps : List PinId} {os : List Owner} {who : Owner}
    (h : ∀ p ∈ ps, os[p]? = some who) : PinsMoved who os (setPins ps .free os) :=
  ⟨ps, .free, who, .inl rfl, .inr rfl, h, rfl⟩

theorem PinsMoved.length {who : Owner} {os os' : List Owner} (h : PinsMoved who os os') :
    os'.length = os.length := by
  obtain ⟨ps, x, _, _, _, _, rfl⟩ := h
  exact setPins_length ps x os

/-- The pins of any other holder stay. -/
theorem PinsMoved.holder {who z : Owner} {os os' : List Owner} (h : PinsMoved who os os')
    (hz : z ≠ .free) (hwho : z ≠ who) (k : Nat) : os'[k]? = some z ↔ os[k]? = some z := by
  obtain ⟨ps, x, y, hx, hy, hps, rfl⟩ := h
  refine setPins_other hps ?_ ?_ k
  · rcases hx with rfl | rfl <;> assumption
  · rcases hy with rfl | rfl <;> assumption

/-! ### Construction from idle lines -/

/-- A chip drawn afresh is full (10_state R29). -/
theorem freshChip_full (s : State) : chipFull s.cfg.chainDepth (freshChip s).chip :=
  ⟨Env.chipBits_length .., Env.chipBits_length ..⟩

/-- What an `SR_INIT` from idle lines that was refused a pin has done (40 R126). -/
structure SrRefused (s t : State) : Prop where
  sr : ∃ ls : List SrLine, t.sr = { s.sr with trace := s.sr.trace ++ ls.map Event.released }
  owner : t.owner = s.owner
  full : chipFull s.cfg.chainDepth s.chip → chipFull s.cfg.chainDepth t.chip
  fault : t.fault = s.fault
  lost : t.writeLost = s.writeLost
  status : t.status = some .resourceUnavailable

/-- What `SR_INIT` can do from idle lines (40 R125, R126): it is refused a pin and gives back what it took,
or it takes three distinct free pins and drives the lines low. -/
theorem srConstruct_of_idle {s : State} (hidle : ∀ l, srLine s.sr l = Line.idle) :
    SrRefused s (srConstruct s) ∨
      (srPins s.cfg).Nodup ∧ (∀ p ∈ srPins s.cfg, s.owner[p]? = some .free) ∧
        srConstruct s = srDriveLow (srAcquired3 s) := by
  have hdata : s.sr.data = Line.idle := hidle .data
  have hshclk : s.sr.shclk = Line.idle := hidle .shclk
  rcases srConstruct_cases s with ⟨_, h⟩ | ⟨h1, _, ⟨_, h⟩ | ⟨h2, _, ⟨_, h⟩ | ⟨h3, _, h⟩⟩⟩
  · rw [h]
    exact .inl ⟨⟨[], by simp [acquireRefused]⟩, rfl, id, rfl, rfl, rfl⟩
  · rw [h, releaseSrLine_of_held (by simp [acquireRefused, srAcquired1, srLineAcquired])]
    refine .inl ⟨⟨[.data], ?_⟩, ?_, fun _ => freshChip_full _, rfl, rfl, rfl⟩
    · exact Sr.ext rfl hdata.symm rfl rfl rfl
    · exact setPins_back (ps := [s.cfg.pinData]) (by simpa using h1) .sr
  · obtain ⟨_, hfree⟩ := free_of_taken_two (x := .sr) (by decide) h1 h2
    rw [h, releaseSrLine_of_held (l := .data)
        (by simp [acquireRefused, srAcquired2, srAcquired1, srLineAcquired, setSrLine, srLine]),
      releaseSrLine_of_held (l := .shclk)
        (by simp [acquireRefused, srAcquired2, srAcquired1, srLineAcquired, setSrLine, srLine])]
    refine .inl ⟨⟨[.data, .shclk], ?_⟩, ?_, fun _ => freshChip_full _, rfl, rfl, rfl⟩
    · exact Sr.ext rfl hdata.symm hshclk.symm rfl (List.append_assoc ..)
    · exact setPins_back (ps := [s.cfg.pinData, s.cfg.pinShclk]) (by simpa using ⟨h1, hfree⟩) .sr
  · obtain ⟨hnodup, hfree⟩ := free_of_taken_three (x := .sr) (by decide) h1 h2 h3
    exact .inr ⟨hnodup, hfree, h⟩

/-- What a `QD_INIT` that was refused a pin or its registration has left as it was (41 R167, R168). -/
structure QdRefused (s t : State) : Prop where
  qd : t.qd = s.qd
  owner : t.owner = s.owner
  result : t.result = s.result
  fault : t.fault = s.fault
  status : t.status = some .resourceUnavailable ∨ t.status = some .notificationSetupFailed

/-- What `QD_INIT` can do from idle lines (41 R165, R167): it is refused a pin and gives back what it took,
or it takes three distinct free pins and goes on to its registration. -/
theorem qdConstruct_of_idle {s : State} (hidle : ∀ l, qdLine s.qd l = .unconfigured) :
    QdRefused s (qdConstruct s) ∨
      (qdPins s.cfg).Nodup ∧ (∀ p ∈ qdPins s.cfg, s.owner[p]? = some .free) ∧
        qdConstruct s = qdRegister (qdCleared (qdAcquired3 s)) := by
  have ha : s.qd.a = .unconfigured := hidle .a
  have hb : s.qd.b = .unconfigured := hidle .b
  have held : ∀ l, qdMode s.cfg l ≠ .unconfigured := qdMode_ne_unconfigured s.cfg
  rcases qdConstruct_cases s with ⟨_, h⟩ | ⟨h1, _, ⟨_, h⟩ | ⟨h2, _, ⟨_, h⟩ | ⟨h3, _, h⟩⟩⟩
  · rw [h]
    exact .inl ⟨rfl, rfl, rfl, rfl, .inl rfl⟩
  · rw [h, releaseQdLine_of_held (by simpa [acquireRefused, qdAcquired1, qdLineAcquired] using held .a)]
    refine .inl ⟨?_, ?_, rfl, rfl, .inl rfl⟩
    · exact Qd.ext rfl ha.symm rfl rfl rfl rfl rfl rfl
    · exact setPins_back (ps := [s.cfg.pinA]) (by simpa using h1) .qd
  · obtain ⟨_, hfree⟩ := free_of_taken_two (x := .qd) (by decide) h1 h2
    rw [h, releaseQdLine_of_held (l := .a) (by
        simpa [acquireRefused, qdAcquired2, qdAcquired1, qdLineAcquired, setQdLine, qdLine]
          using held .a),
      releaseQdLine_of_held (l := .b) (by
        simpa [acquireRefused, qdAcquired2, qdAcquired1, qdLineAcquired, setQdLine, qdLine]
          using held .b)]
    refine .inl ⟨?_, ?_, rfl, rfl, .inl rfl⟩
    · exact Qd.ext rfl ha.symm hb.symm rfl rfl rfl rfl rfl
    · exact setPins_back (ps := [s.cfg.pinA, s.cfg.pinB]) (by simpa using ⟨h1, hfree⟩) .qd
  · obtain ⟨hnodup, hfree⟩ := free_of_taken_three (x := .qd) (by decide) h1 h2 h3
    exact .inr ⟨hnodup, hfree, h⟩

/-! ### The pins in a state of the invariant -/

theorem Inv.sr_pins_owned {s : State} (h : Inv s) (hh : srHolds s) :
    ∀ p ∈ srPins s.cfg, s.owner[p]? = some .sr := by
  intro p hp
  obtain ⟨l, rfl⟩ := mem_srPins.1 hp
  exact h.sr_owner hh l

theorem Inv.qd_pins_owned {s : State} (h : Inv s) (hh : qdHolds s) :
    ∀ p ∈ qdPins s.cfg, s.owner[p]? = some .qd := by
  intro p hp
  obtain ⟨l, rfl⟩ := mem_qdPins.1 hp
  exact h.qd_owner hh l

end Sys2Proof.Machine
end

section
/-! PROOFS. The driver keeps the invariant: its construction, its writes and its teardown. -/

namespace Sys2Proof.Machine

open Sys2Proof.Config

/-! ### A driver that holds its lines -/

/-- What a driver that holds its lines has in place, whatever its phase (10_state R24, R27, R28, R44). -/
structure SrLinesHeld (s : State) : Prop where
  driven : srLinesDriven s.sr = true
  full : chipFull s.cfg.chainDepth s.chip
  owner : ∀ p : Nat, s.owner[p]? = some .sr ↔ p ∈ srPins s.cfg
  pins : (srPins s.cfg).Nodup

theorem Inv.srLinesHeld {s : State} (h : Inv s) (hh : srHolds s) : SrLinesHeld s where
  driven := h.sr_driven hh
  full := ⟨h.shift_width, h.out_width⟩
  owner p := ⟨fun hp => mem_srPins.2 (h.sr_only p hp).2, h.sr_pins_owned hh p⟩
  pins := h.sr_pins hh

/-- Every line of such a driver has a level. -/
theorem SrLinesHeld.level {s : State} (h : SrLinesHeld s) (l : SrLine) :
    (srLine s.sr l).level.isSome = true := ((srLinesDriven_iff s.sr).1 h.driven l).2

theorem SrLinesHeld.mode {s : State} (h : SrLinesHeld s) (l : SrLine) :
    (srLine s.sr l).mode = .output := ((srLinesDriven_iff s.sr).1 h.driven l).1

/-- Line writes keep it so. -/
theorem SrLinesHeld.frame {n : Nat} {s t : State} (h : SrLinesHeld s) (f : SrFrame n s t) :
    SrLinesHeld t where
  driven := (srLinesDriven_iff t.sr).2 fun l => ⟨(f.mode l).trans (h.mode l), f.driven h.level l⟩
  full := by
    rw [f.cfg]
    exact f.width h.full
  owner := by
    rw [f.cfg, f.owner]
    exact h.owner
  pins := by
    rw [f.cfg]
    exact h.pins

/-- The driver's part of the invariant in `READY` and `FAILED`. -/
theorem SrLinesHeld.part {t : State} (h : SrLinesHeld t) (hh : srHolds t)
    (hrest : t.sr.phase = .ready → t.sr.shclk.level = some false ∧ t.sr.latch.level = some false)
    (htrace : TraceAgrees t)
    (hfault : t.sr.phase = .failed ∨ t.status = some .platformLineFailure → t.fault = true) :
    SrPart t where
  shift_width := h.full.1
  out_width := h.full.2
  sr_idle hn := absurd hh hn
  sr_driven _ := h.driven
  sr_owner _ l := (h.owner _).2 (mem_srPins.2 ⟨l, rfl⟩)
  sr_pins _ := h.pins
  sr_only p hp := ⟨hh, mem_srPins.1 ((h.owner p).1 hp)⟩
  sr_rest := hrest
  sr_trace := htrace
  fault := hfault

/-! ### A driver that holds no line -/

/-- A driver that holds no line and has lost no write has a trace that says nothing (40 R119). -/
theorem Inv.traced_nothing {s : State} (h : Inv s) (hn : ¬ srHolds s) (hl : s.writeLost = false) :
    tracedNothing s.cfg.chainDepth (tracedOf s) := by
  obtain ⟨hshift, hout⟩ := h.sr_trace.idle hn
  refine ⟨hshift, hout, fun l => ?_⟩
  rw [h.sr_trace.level hl l, h.sr_idle hn l]
  rfl

/-- The driver's part of the invariant where it holds no line and no pin. -/
theorem SrPart.of_idle {t : State} (hn : ¬ srHolds t) (hidle : ∀ l, srLine t.sr l = Line.idle)
    (hfull : chipFull t.cfg.chainDepth t.chip) (howner : ∀ p : Nat, t.owner[p]? ≠ some .sr)
    (htrace : tracedNothing t.cfg.chainDepth (tracedOf t))
    (hlost : t.writeLost = true → t.sr.phase = .tornDown ∧ t.fault = true)
    (hst : t.status ≠ some .platformLineFailure) : SrPart t where
  shift_width := hfull.1
  out_width := hfull.2
  sr_idle _ := hidle
  sr_driven hh := absurd hh hn
  sr_owner hh := absurd hh hn
  sr_pins hh := absurd hh hn
  sr_only p hp := absurd hp (howner p)
  sr_rest hp := absurd (.inl hp) hn
  sr_trace := .of_nothing htrace (fun l => by rw [hidle l]; rfl) hfull (fun hp => hn (.inr hp)) hlost
  fault hf := hf.elim (fun hp => absurd (.inr hp) hn) fun hs => absurd hs hst

/-! ### The end of a run of writes -/

/-- An SR command that ends `OK` in `READY`. -/
def srReady (s : State) : State := endWith .ok { s with sr := { s.sr with phase := .ready } }

/-- The end of `SR_INIT`, `SR_SERIALIZE` and `SR_LATCH` after their writes. -/
def srFinish (r : Bool × State) : State := if r.1 then srReady r.2 else srLost r.2

theorem srDriveLow_eq_finish (s : State) : srDriveLow s = srFinish (runActions lowActions s) := rfl

/-- From `READY`, the end of a command is in `READY` again or in `FAILED`. -/
theorem endSr_eq_finish {r : Bool × State} (hp : r.2.sr.phase = .ready) : endSr r = srFinish r := by
  have same : { r.2 with sr := { r.2.sr with phase := .ready } } = r.2 := by rw [← hp]
  simp only [endSr, srFinish, srReady, same]

@[simp] theorem srFinish_owner (r : Bool × State) : (srFinish r).owner = r.2.owner := by
  unfold srFinish
  split <;> rfl

/-- The phase is no part of what the trace says. -/
theorem TraceSound.with_phase {t : Traced} {sr : Sr} {c : Chip} (h : TraceSound t sr c) (p : SrPhase) :
    TraceSound t { sr with phase := p } c :=
  ⟨fun l x hx => by rw [srLine_phase]; exact h.level l x hx, h.shift, h.out⟩

/-- Writes of a driver that holds its lines, from a right trace, keep the driver's part of the invariant:
where all succeed the clocks end low and each line is one the trace gives a level, and where one fails the
failure is on record (40 R123; 60_exceptions R213). -/
theorem SrLinesHeld.finish_part {as : List Action} {s : State} (h : SrLinesHeld s)
    (hsound : TraceSound (tracedOf s) s.sr s.chip) (hlost : s.writeLost = false)
    (hwritten : ∀ l, (∃ v, .set l v ∈ as) ∨ (tracedLevel (tracedOf s) l).isSome = true)
    (hlow : (writeAll as s).sr.shclk.level = some false ∧ (writeAll as s).sr.latch.level = some false) :
    SrPart (srFinish (runActions as s)) := by
  obtain ⟨n, _, frame⟩ := runActions_frame as s
  obtain ⟨driven, full, owner, pins⟩ := h.frame frame
  cases hok : (runActions as s).1
  · have lost : (runActions as s).2.writeLost = true := by
      rw [runActions_lost, hok]
      simp
    have fault : (runActions as s).2.fault = true := (runActions_fault as s).2.2 hok
    rw [srFinish, hok]
    exact SrLinesHeld.part (t := srLost (runActions as s).2) ⟨driven, full, owner, pins⟩ (.inr rfl)
      (fun hp => nomatch hp) (.of_lost lost rfl fault) fun _ => fault
  · have done : (runActions as s).2 = writeAll as s := by
      rw [runActions_of_ok (runActions_ok_inv hok)]
    rw [srFinish, hok, done]
    rw [done] at driven full owner pins
    have sound : TraceSound (tracedOf (writeAll as s)) (writeAll as s).sr (writeAll as s).chip :=
      hsound.writeAll h.level h.full
    have agrees : TraceAgrees (srReady (writeAll as s)) :=
      .of_sound (sound.with_phase .ready) (fun l => tracedLevel_writeAll (hwritten l)) rfl
        ((writeAll_lost as s).trans hlost)
    exact SrLinesHeld.part (t := srReady (writeAll as s)) ⟨driven, full, owner, pins⟩ (.inl rfl)
      (fun _ => hlow) agrees (by rintro (hp | hs) <;> cases ‹_›)

/-- The writes of a command in `READY` keep the driver's part of the invariant where they leave the clocks
low. -/
theorem Inv.endSr_part {as : List Action} {s : State} (h : Inv s) (hp : s.sr.phase = .ready)
    (hlow : (writeAll as s).sr.shclk.level = some false ∧ (writeAll as s).sr.latch.level = some false) :
    SrPart (endSr (runActions as s)) := by
  obtain ⟨n, _, frame⟩ := runActions_frame as s
  have held := h.srLinesHeld (.inl hp)
  have hlost := h.sr_trace.not_lost (.inr hp)
  rw [endSr_eq_finish (frame.phase.trans hp)]
  refine held.finish_part (h.sr_trace.sound hlost) hlost (fun l => .inr ?_) hlow
  rw [h.sr_trace.level hlost l]
  exact held.level l

/-- The pulses of a serialize end with the clocks low. -/
theorem serialize_clocks {s : State} (b : Byte) (hs : s.sr.shclk.level = some false)
    (hl : s.sr.latch.level = some false) :
    (writeAll (serializeActions s.cfg.bitOrder b) s).sr.shclk.level = some false ∧
      (writeAll (serializeActions s.cfg.bitOrder b) s).sr.latch.level = some false := by
  rw [serializeActions_eq, bitPairs_write _ s hs]
  exact ⟨hs, hl⟩

/-- So does the pulse of a latch. -/
theorem latch_clocks {s : State} (hs : s.sr.shclk.level = some false) :
    (writeAll (pulse .latch) s).sr.shclk.level = some false ∧
      (writeAll (pulse .latch) s).sr.latch.level = some false := ⟨hs, rfl⟩

/-! ### Construction -/

/-- The three lines just acquired (40 R125). -/
theorem srAcquired3_held {s : State} (howner : ∀ p : Nat, s.owner[p]? ≠ some .sr)
    (hpins : (srPins s.cfg).Nodup) (hfree : ∀ p ∈ srPins s.cfg, s.owner[p]? = some .free) :
    SrLinesHeld (srAcquired3 s) where
  driven := rfl
  full := freshChip_full (srLineAcquired .data s)
  owner p := (setPins_new hfree p).trans (or_iff_left (howner p))
  pins := hpins

/-- `SR_INIT` keeps the driver's part of the invariant. -/
theorem Inv.srConstruct_part {s : State} (h : Inv s) (hp : s.sr.phase = .unconstructed) :
    SrPart (srConstruct s) := by
  have hn : ¬ srHolds s := by simp [srHolds, hp]
  have hlost := h.sr_trace.not_lost (.inl hp)
  have hidle := h.sr_idle hn
  have howner : ∀ p : Nat, s.owner[p]? ≠ some .sr := fun p hs => hn (h.sr_only p hs).1
  have hnothing := h.traced_nothing hn hlost
  rcases srConstruct_of_idle hidle with refused | ⟨hpins, hfree, heq⟩
  · obtain ⟨ls, hsr⟩ := refused.sr
    have hcfg := (srConstruct_side s).cfg
    have hphase : (srConstruct s).sr.phase = .unconstructed := by rw [hsr]; exact hp
    refine .of_idle ?_ (fun l => ?_) ?_ ?_ ?_ (fun hl => ?_) ?_
    · simp [srHolds, hphase]
    · rw [hsr, srLine_trace]
      exact hidle l
    · rw [hcfg]
      exact refused.full ⟨h.shift_width, h.out_width⟩
    · rw [refused.owner]
      exact howner
    · rw [tracedOf, hcfg, hsr, traced_append]
      exact tracedNothing_releases ls hnothing
    · rw [refused.lost, hlost] at hl
      cases hl
    · simp [refused.status]
  · have held := srAcquired3_held howner hpins hfree
    rw [heq, srDriveLow_eq_finish]
    have sound : TraceSound (tracedOf (srAcquired3 s)) (srAcquired3 s).sr (srAcquired3 s).chip := by
      obtain ⟨hshift, hout, hlevel⟩ := hnothing
      refine ⟨fun l x hx => ?_, ?_, ?_⟩
      · cases (hlevel l).symm.trans hx
      · exact hshift ▸ knownBits_unknown held.full.1
      · exact hout ▸ knownBits_unknown held.full.2
    refine held.finish_part sound hlost (fun l => .inl ⟨false, ?_⟩) ⟨rfl, rfl⟩
    cases l <;> simp [lowActions]

/-! ### Teardown -/

/-- `SR_TEARDOWN` keeps the driver's part of the invariant, whatever writes fail (40 R143, R145). -/
theorem Inv.teardown_part {s : State} (h : Inv s) (hh : srHolds s) :
    SrPart (teardownRelease (teardownDriven s)) := by
  have frame := runBestEffort_frame teardownActions s
  have held : SrLinesHeld (teardownDriven s) := (h.srLinesHeld hh).frame frame
  obtain ⟨u, hu, hsr, howner, hcfg, _, _, _, _, hfault, hlost, _, _, hwidth⟩ := releaseAll_sr held.mode
  have heq : teardownRelease (teardownDriven s) =
      endWith .ok { u with sr := { u.sr with phase := .tornDown } } := by rw [teardownRelease, hu]
  rw [heq]
  refine .of_idle (by simp [srHolds]) (fun l => ?_) ?_ (fun p => ?_) ?_ (fun hl => ⟨rfl, ?_⟩) (by simp)
  · rw [endWith_sr, srLine_phase, hsr]
    cases l <;> rfl
  · simpa [hcfg] using hwidth
  · have moved : u.owner = setPins (srPins (teardownDriven s).cfg) .free (teardownDriven s).owner := by
      rw [howner, srPins, setPins_three]
    rw [endWith_owner, moved, Ne, setPins_old (fun q hq => (held.owner q).2 hq) (by decide)]
    exact fun hp => hp.1 ((held.owner p).1 hp.2)
  · rw [tracedOf, endWith_cfg, endWith_sr, hcfg, hsr]
    exact (traced_teardown _ _).1
  · have lost : (runBestEffort teardownActions s).writeLost = true := hlost.symm.trans hl
    rw [endWith_fault]
    refine hfault.trans ((runBestEffort_fault teardownActions s).2 ?_)
    exact ((runBestEffort_lost teardownActions s).1 lost).imp_left h.sr_trace.lost_fault

end Sys2Proof.Machine
end

section
/-! PROOFS. The decoder keeps the invariant: count accesses and other agents' steps, polls, construction
and release. -/

namespace Sys2Proof.Machine

open Sys2Proof.Config

/-! ### Changes of the count, of `last_a` and of the pending edges -/

/-- A change of no more than the count, `last_a`, `result` and the pending edges, as the decoder's lifecycle
allows them (10_state R34, R35, R37, R40). -/
structure CountChange (s t : State) : Prop where
  side : QdSide s t
  qd : t.qd = { s.qd with count := t.qd.count, lastA := t.qd.lastA, pending := t.qd.pending }
  count : t.qd.count = s.qd.count ∨
    s.qd.phase ≠ .unconstructed ∧ ∃ c, t.qd.count = some c ∧ inRangeW s.cfg.countWidth c
  last : t.qd.lastA = s.qd.lastA ∨ s.qd.phase = .live ∧ t.qd.lastA.isSome = true
  pending : s.qd.registered = false → t.qd.pending = s.qd.pending
  owner : t.owner = s.owner
  result : t.result = s.result ∨ t.result = s.qd.count
  fault : t.fault = s.fault
  status : t.status = some .platformLineFailure → s.status = some .platformLineFailure

theorem CountChange.phase {s t : State} (k : CountChange s t) : t.qd.phase = s.qd.phase := by
  rw [k.qd]

/-- Such a change keeps the invariant. -/
theorem Inv.count_change {s t : State} (h : Inv s) (k : CountChange s t) : Inv t := by
  have hphase := k.phase
  have hcfg := k.side.cfg
  have hreg : t.qd.registered = s.qd.registered := by rw [k.qd]
  have hline : ∀ l, qdLine t.qd l = qdLine s.qd l := fun l => by
    rw [k.qd]
    cases l <;> rfl
  have hrange : ∀ c, t.qd.count = some c → inRangeW s.cfg.countWidth c := by
    intro c hc
    rcases k.count with same | ⟨_, d, hd, hrange⟩
    · exact h.count_range c (same.symm.trans hc)
    · exact Option.some.inj (hd.symm.trans hc) ▸ hrange
  refine h.of_qd k.side (fun p => by rw [k.owner]) (fun hf => k.fault.trans hf) ?_
  constructor
  all_goals simp only [qdHolds, hphase, hcfg, hreg, hline, k.owner, k.fault]
  · exact h.qd_held
  · exact h.qd_idle
  · exact h.qd_owner
  · exact h.qd_pins
  · exact h.qd_only
  · exact h.registered_held
  · exact fun hr => (k.pending hr).trans (h.pending_registered hr)
  · rcases k.count with same | ⟨hp, c, hc, _⟩
    · rw [same]
      exact h.count_value
    · simp [hc, hp]
  · exact hrange
  · intro hp
    rcases k.last with same | ⟨_, some⟩
    · rw [same]
      exact h.last_value hp
    · exact some
  · intro hp
    rcases k.last with same | ⟨live, _⟩
    · exact same.trans (h.last_unconstructed hp)
    · rw [hp] at live
      cases live
  · intro r hr
    rcases k.result with same | loaded
    · exact h.result_range r (same.symm.trans hr)
    · exact h.count_range r (loaded.symm.trans hr)
  · exact fun hf => h.failed_fault (.inr (hf.imp_right k.status))

/-- Other agents' steps keep the invariant. -/
theorem AsyncFrame.inv {s t : State} (f : AsyncFrame s t) (h : Inv s) : Inv t := by
  have hlast : t.qd.lastA = s.qd.lastA := by rw [f.qd]
  refine h.count_change ⟨f.side, ?_, ?_, .inl hlast, f.pending, f.owner, .inl f.result, f.fault,
    fun hs => f.status.symm.trans hs⟩
  · rw [hlast]
    exact f.qd
  · refine f.count.imp_right fun ⟨hzero, hreg⟩ => ⟨?_, 0, hzero, zero_inRange _⟩
    rcases h.registered_held.1 hreg with hp | hp <;> simp [hp]

/-- A count access keeps the invariant where its own action does. -/
theorem Inv.count_access {access : State → State} {s : State} (h : Inv s)
    (hacc : ∀ u, AsyncFrame s u → Inv u → Inv (access u)) : Inv (countAccess access s) := by
  have before := (interleave_frame s).1
  exact (interleave_frame _).1.inv (hacc _ before (before.inv h))

theorem Inv.count_store {s : State} (h : Inv s) (hp : s.qd.phase ≠ .unconstructed) :
    Inv (countStore 0 s) :=
  h.count_change ⟨⟨rfl, rfl, rfl, rfl, rfl, rfl⟩, rfl, .inr ⟨hp, 0, rfl, zero_inRange _⟩, .inl rfl,
    fun _ => rfl, rfl, .inl rfl, rfl, id⟩

theorem Inv.count_load {s : State} (h : Inv s) : Inv (countLoad s) :=
  h.count_change ⟨⟨rfl, rfl, rfl, rfl, rfl, rfl⟩, rfl, .inl rfl, .inl rfl, fun _ => rfl, rfl,
    .inr rfl, rfl, id⟩

/-- An add wraps into the range (41 R174). -/
theorem Inv.count_add {s : State} (h : Inv s) (hw : 1 ≤ s.cfg.countWidth) (d : Int) :
    Inv (countAdd d s) := by
  refine h.count_change ⟨⟨rfl, rfl, rfl, rfl, rfl, rfl⟩, rfl, ?_, .inl rfl, fun _ => rfl, rfl,
    .inl rfl, rfl, id⟩
  cases hc : s.qd.count with
  | none => exact .inl (by simp [hc])
  | some c =>
    exact .inr ⟨h.count_value.1 (by simp [hc]), _, by simp [hc], wrapW_inRange hw (c + d)⟩

/-! ### Polls -/

/-- What a poll does with its samples keeps the invariant (41 R170). -/
theorem Inv.poll_samples {s : State} (h : Inv s) (hw : 1 ≤ s.cfg.countWidth) (hp : s.qd.phase = .live)
    (a b : Bool) : Inv (pollSamples a b s) := by
  have sampled : ∀ u : State, Inv u → u.qd.phase = .live →
      Inv (endWith .ok { u with qd := { u.qd with lastA := some a } }) := fun u hu hlive =>
    hu.count_change ⟨⟨rfl, rfl, rfl, rfl, rfl, rfl⟩, rfl, .inl rfl, .inr ⟨hlive, rfl⟩, fun _ => rfl,
      rfl, .inl rfl, rfl, fun hs => nomatch hs⟩
  unfold pollSamples
  simp only
  split
  · exact sampled s h hp
  · refine sampled _ (h.count_access fun u f hu => hu.count_add (by rwa [f.cfg]) _) ?_
    rw [(countAdd_access_frame (pollDelta a b) s).1.qd]
    exact hp

/-- The decoder's phase is no part of its lines. -/
@[simp] theorem qdLine_phase (qd : Qd) (p : QdPhase) (l : QdLine) :
    qdLine { qd with phase := p } l = qdLine qd l := by cases l <;> rfl

/-- What a decoder that holds its lines has in place, whatever its phase (10_state R33 to R37, R44). -/
structure QdLinesHeld (t : State) : Prop where
  lines : ∀ l, qdLine t.qd l = qdMode t.cfg l
  owner : ∀ p : Nat, t.owner[p]? = some .qd ↔ p ∈ qdPins t.cfg
  pins : (qdPins t.cfg).Nodup
  registered : t.qd.registered = true
  count : ∃ c, t.qd.count = some c ∧ inRangeW t.cfg.countWidth c

/-- The decoder's part of the invariant in `LIVE` and `FAILED`. -/
theorem QdLinesHeld.part {t : State} (k : QdLinesHeld t) (hh : qdHolds t)
    (hlast : t.qd.phase = .live → t.qd.lastA.isSome = true)
    (hresult : ∀ r, t.result = some r → inRangeW t.cfg.countWidth r)
    (hfault : t.qd.phase = .failed ∨ t.status = some .platformLineFailure → t.fault = true) :
    QdPart t := by
  have hp : t.qd.phase ≠ .unconstructed := by rcases hh with hp | hp <;> simp [hp]
  obtain ⟨c, hc, hrange⟩ := k.count
  exact
    { qd_held := fun _ => k.lines
      qd_idle := fun hn => absurd hh hn
      qd_owner := fun _ l => (k.owner _).2 (mem_qdPins.2 ⟨l, rfl⟩)
      qd_pins := fun _ => k.pins
      qd_only := fun p hq => ⟨hh, mem_qdPins.1 ((k.owner p).1 hq)⟩
      registered_held := by simp [k.registered, hh]
      pending_registered := fun hr => by simp [k.registered] at hr
      count_value := by simp [hc, hp]
      count_range := fun d hd => Option.some.inj (hc.symm.trans hd) ▸ hrange
      last_value := hlast
      last_unconstructed := fun hn => absurd hn hp
      result_range := hresult
      fault := hfault }

theorem Inv.qdLinesHeld {s : State} (h : Inv s) (hh : qdHolds s) : QdLinesHeld s where
  lines := h.qd_held hh
  owner p := ⟨fun hp => mem_qdPins.2 (h.qd_only p hp).2, h.qd_pins_owned hh p⟩
  pins := h.qd_pins hh
  registered := h.registered_held.2 hh
  count := by
    have hp : s.qd.phase ≠ .unconstructed := by rcases hh with hp | hp <;> simp [hp]
    obtain ⟨c, hc⟩ := Option.isSome_iff_exists.1 (h.count_value.2 hp)
    exact ⟨c, hc, h.count_range c hc⟩

/-- A poll that loses a line keeps the invariant (41 R175; 60_exceptions R213). -/
theorem Inv.poll_lost {s : State} (h : Inv s) (hp : s.qd.phase = .live) (fails input : Tape Bool) :
    Inv (qdLost { s with fault := true, env := { s.env with fails := fails, input := input } }) := by
  obtain ⟨lines, owner, pins, registered, count⟩ := h.qdLinesHeld (.inl hp)
  refine h.of_qd ⟨rfl, rfl, rfl, rfl, rfl, rfl⟩ (fun _ => Iff.rfl) (fun _ => rfl) ?_
  exact QdLinesHeld.part ⟨fun l => (qdLine_phase s.qd .failed l).trans (lines l), owner, pins,
    registered, count⟩ (.inr rfl) (fun hl => nomatch hl) h.result_range fun _ => rfl

/-- The draws a poll takes are no part of the invariant. -/
theorem Inv.poll_drawn {s : State} (h : Inv s) (fails input : Tape Bool) :
    Inv { s with env := { s.env with fails := fails, input := input } } :=
  h.congr rfl rfl rfl rfl rfl rfl rfl id fun hs => h.failed_fault (.inr (.inr hs))

theorem Inv.poll_step {s : State} (h : Inv s) (hw : 1 ≤ s.cfg.countWidth) (hp : s.qd.phase = .live) :
    Inv (pollStep s) := by
  rcases pollStep_cases s with ⟨_, heq⟩ | ⟨_, _, heq⟩ | ⟨_, _, heq⟩ <;> rw [heq]
  · exact h.poll_lost hp _ s.env.input
  · exact h.poll_lost hp _ _
  · exact (h.poll_drawn (s.env.fails.drop 2) (s.env.input.drop 2)).poll_samples hw hp _ _

/-! ### Construction -/

/-- What a `QD_INIT` that took its three pins and registered has done (41 R165). -/
structure QdTaken (s t : State) : Prop where
  owner : t.owner = setPins (qdPins s.cfg) .qd s.owner
  lines : ∀ l, qdLine t.qd l = qdMode s.cfg l
  registered : t.qd.registered = true
  count : t.qd.count = some 0
  result : t.result = s.result
  ends : t.qd.phase = .failed ∧ t.fault = true ∨
    t.qd.phase = .live ∧ t.qd.lastA.isSome = true ∧ t.status = some .ok

/-- The decoder just before its registration: the count is 0 and nothing is pending, whatever other agents
did around the store (41 R165). -/
theorem qdCleared_spec (s : State) :
    (qdCleared s).qd = { s.qd with count := some 0, pending := 0 } ∧ (qdCleared s).cfg = s.cfg ∧
      (qdCleared s).owner = s.owner ∧ (qdCleared s).result = s.result ∧
      (qdCleared s).fault = s.fault := by
  obtain ⟨frame, hresult⟩ := countStore_access_frame 0 s
  have hcount := countStore_zero_count s
  refine ⟨?_, frame.cfg, frame.owner, hresult, frame.fault⟩
  show { (countAccess (countStore 0) s).qd with pending := 0 } = _
  rw [frame.qd, hcount]

theorem qdAcquired3_lines (s : State) (l : QdLine) : qdLine (qdAcquired3 s).qd l = qdMode s.cfg l := by
  cases l <;> rfl

/-- All `QD_INIT` can do from a state of the invariant. -/
theorem Inv.qdConstruct_ends {s : State} (h : Inv s) (hp : s.qd.phase = .unconstructed) :
    QdRefused s (qdConstruct s) ∨
      (qdPins s.cfg).Nodup ∧ (∀ p ∈ qdPins s.cfg, s.owner[p]? = some .free) ∧
        QdTaken s (qdConstruct s) := by
  have hn : ¬ qdHolds s := by simp [qdHolds, hp]
  have hidle := h.qd_idle hn
  rcases qdConstruct_of_idle hidle with refused | ⟨hpins, hfree, heq⟩
  · exact .inl refused
  obtain ⟨cqd, ccfg, cowner, cresult, cfault⟩ := qdCleared_spec (qdAcquired3 s)
  rw [heq]
  generalize qdCleared (qdAcquired3 s) = u at *
  have lines : ∀ l, qdLine u.qd l = qdMode s.cfg l := fun l => by
    rw [← qdAcquired3_lines s l, cqd]
    cases l <;> rfl
  rcases qdRegister_cases u (fun l => lines l ▸ qdMode_ne_unconfigured s.cfg l) with
    ⟨_, hreg⟩ | ⟨_, v, hv, hreg⟩
  · left
    have hcount : s.qd.count = none := by
      simpa [hp] using h.count_value
    have hpending : s.qd.pending = 0 := h.pending_registered (by simpa [hn] using h.registered_held)
    rw [hreg]
    refine ⟨?_, ?_, cresult, cfault, .inr rfl⟩
    · simp only [endWith_qd, cqd]
      exact Qd.ext rfl (hidle .a).symm (hidle .b).symm (hidle .sw).symm hcount.symm rfl rfl
        hpending.symm
    · have given : ((u.owner.set u.cfg.pinA .free).set u.cfg.pinB .free).set u.cfg.pinSw .free =
          setPins (qdPins s.cfg) .free (setPins (qdPins s.cfg) .qd s.owner) := by
        rw [cowner, ccfg]
        rfl
      exact given.trans (setPins_back hfree .qd)
  · right
    have frame := hv ▸ (interleave_frame
      { u with
        qd := { u.qd with registered := true }
        env := { u.env with rejected := u.env.rejected.drop 1 } }).1
    have vowner : v.owner = setPins (qdPins s.cfg) .qd s.owner := frame.owner.trans cowner
    have vlines : ∀ l, qdLine v.qd l = qdMode s.cfg l := fun l => by
      rw [← lines l, frame.qd]
      cases l <;> rfl
    have vcount : v.qd.count = some 0 := by
      rcases frame.count with same | ⟨zero, _⟩
      · rw [same]
        simp [cqd]
      · exact zero
    have vresult : v.result = s.result := frame.result.trans cresult
    refine ⟨hpins, hfree, ?_⟩
    rcases hreg with ⟨_, hend⟩ | ⟨_, hend⟩ <;> rw [hend]
    · exact ⟨vowner, fun l => by rw [← vlines l]; cases l <;> rfl, frame.registered, vcount, vresult,
        .inl ⟨rfl, rfl⟩⟩
    · exact ⟨vowner, fun l => by rw [← vlines l]; cases l <;> rfl, frame.registered, vcount, vresult,
        .inr ⟨rfl, rfl, rfl⟩⟩

/-- A refused `QD_INIT` keeps the invariant. -/
theorem QdRefused.inv {s t : State} (k : QdRefused s t) (side : QdSide s t) (h : Inv s) : Inv t := by
  refine h.congr side.cfg side.sr side.chip k.qd k.owner k.result side.lost (fun hf => k.fault.trans hf)
    fun hs => ?_
  rcases k.status with ht | ht <;> cases ht.symm.trans hs

/-- A `QD_INIT` that took its pins keeps the decoder's part of the invariant. -/
theorem QdTaken.part {s t : State} (k : QdTaken s t) (hcfg : t.cfg = s.cfg) (h : Inv s)
    (hn : ¬ qdHolds s) (hpins : (qdPins s.cfg).Nodup)
    (hfree : ∀ p ∈ qdPins s.cfg, s.owner[p]? = some .free) : QdPart t := by
  have held : QdLinesHeld t :=
    { lines := hcfg ▸ k.lines
      owner := fun p => by
        rw [k.owner, hcfg, setPins_new hfree]
        exact or_iff_left fun hq => hn (h.qd_only p hq).1
      pins := hcfg ▸ hpins
      registered := k.registered
      count := ⟨0, k.count, zero_inRange _⟩ }
  have hresult : ∀ r, t.result = some r → inRangeW t.cfg.countWidth r := by
    rw [k.result, hcfg]
    exact h.result_range
  rcases k.ends with ⟨hp, hf⟩ | ⟨hp, ha, hs⟩
  · exact held.part (.inr hp) (fun hl => nomatch hp.symm.trans hl) hresult fun _ => hf
  · refine held.part (.inl hp) (fun _ => ha) hresult ?_
    rintro (hf | hf)
    · exact nomatch hp.symm.trans hf
    · exact nomatch hs.symm.trans hf

/-! ### Release -/

/-- `QD_RELEASE` keeps the decoder's part of the invariant (41 R179). -/
theorem Inv.release_part {s : State} (h : Inv s) (hh : qdHolds s) : QdPart (qdReleaseAll s) := by
  have held := h.qdLinesHeld hh
  obtain ⟨c, hc, hrange⟩ := held.count
  rw [qdReleaseAll_of_held fun l => held.lines l ▸ qdMode_ne_unconfigured s.cfg l]
  exact
    { qd_held := fun hr => by simp [qdHolds] at hr
      qd_idle := fun _ l => by cases l <;> rfl
      qd_owner := fun hr => by simp [qdHolds] at hr
      qd_pins := fun hr => by simp [qdHolds] at hr
      qd_only := fun p hq => by
        have left := (setPins_old (h.qd_pins_owned hh) (x := .free) (by decide) p).1 hq
        exact absurd ((held.owner p).1 left.2) left.1
      registered_held := by simp [qdHolds]
      pending_registered := fun _ => rfl
      count_value := by simp [hc]
      count_range := h.count_range
      last_value := fun hp => nomatch hp
      last_unconstructed := fun hp => nomatch hp
      result_range := h.result_range
      fault := by simp }

end Sys2Proof.Machine
end

section
/-! PROOFS. Every step keeps the invariant of the machine, and the pins of the holders outside the block. -/

namespace Sys2Proof.Machine

open Sys2Proof.Config

/-! ### The pins a command moves -/

/-- The holder a command takes pins for. -/
def componentOf (i : Instr) : Owner := if isSrCommand i then .sr else .qd

theorem Inv.srConstruct_moved {s : State} (h : Inv s) (hp : s.sr.phase = .unconstructed) :
    PinsMoved .sr s.owner (srConstruct s).owner := by
  have hn : ¬ srHolds s := by simp [srHolds, hp]
  rcases srConstruct_of_idle (h.sr_idle hn) with refused | ⟨_, hfree, heq⟩
  · rw [refused.owner]
    exact .refl ..
  · obtain ⟨_, _, frame⟩ := runActions_frame lowActions (srAcquired3 s)
    rw [heq, srDriveLow_eq_finish, srFinish_owner, frame.owner]
    exact .taken .sr hfree

theorem endSr_run_moved (as : List Action) (s : State) :
    PinsMoved .sr s.owner (endSr (runActions as s)).owner := by
  obtain ⟨_, _, frame⟩ := runActions_frame as s
  have same : (endSr (runActions as s)).owner = s.owner := by
    rw [← frame.owner, endSr]
    split <;> rfl
  rw [same]
  exact .refl ..

theorem Inv.teardown_moved {s : State} (h : Inv s) (hh : srHolds s) :
    PinsMoved .sr s.owner (teardownRelease (teardownDriven s)).owner := by
  have frame : SrFrame _ s (teardownDriven s) := runBestEffort_frame teardownActions s
  obtain ⟨u, hu, _, howner, _⟩ := releaseAll_sr ((h.srLinesHeld hh).frame frame).mode
  have moved : (teardownRelease (teardownDriven s)).owner = setPins (srPins s.cfg) .free s.owner := by
    rw [teardownRelease, hu, endWith_owner, howner, frame.owner, frame.cfg, srPins, setPins_three]
  rw [moved]
  exact .freed (h.sr_pins_owned hh)

theorem Inv.qdConstruct_moved {s : State} (h : Inv s) (hp : s.qd.phase = .unconstructed) :
    PinsMoved .qd s.owner (qdConstruct s).owner := by
  rcases h.qdConstruct_ends hp with refused | ⟨_, hfree, taken⟩
  · rw [refused.owner]
    exact .refl ..
  · rw [taken.owner]
    exact .taken .qd hfree

theorem pollStep_owner (s : State) : (pollStep s).owner = s.owner := by
  rcases pollStep_cases s with ⟨_, heq⟩ | ⟨_, _, heq⟩ | ⟨_, _, heq⟩ <;> rw [heq]
  · rfl
  · rfl
  · unfold pollSamples
    simp only
    split
    · rfl
    · exact (countAdd_access_frame _ _).1.owner

theorem Inv.release_moved {s : State} (h : Inv s) (hh : qdHolds s) :
    PinsMoved .qd s.owner (qdReleaseAll s).owner := by
  rw [qdReleaseAll_of_held fun l => h.qd_held hh l ▸ qdMode_ne_unconfigured s.cfg l]
  exact .freed (h.qd_pins_owned hh)

/-- From a state of the invariant a command moves pins between its own component and `FREE`, and no
others. -/
theorem Inv.exec_moved {i : Instr} {s t : State} (h : Inv s) (hexec : exec i s = .next t) :
    PinsMoved (componentOf i) s.owner t.owner := by
  cases i with
  | srInit =>
    rcases execSrInit_next hexec with ⟨_, rfl⟩ | ⟨hp, rfl⟩
    · exact .refl ..
    · exact h.srConstruct_moved hp
  | srSerialize b =>
    rcases execSrSerialize_next hexec with ⟨_, rfl⟩ | ⟨_, _, rfl⟩
    · exact .refl ..
    · exact endSr_run_moved _ s
  | srLatch =>
    rcases execSrLatch_next hexec with ⟨_, rfl⟩ | ⟨_, _, rfl⟩
    · exact .refl ..
    · exact endSr_run_moved _ s
  | srTeardown =>
    rcases execSrTeardown_next hexec with ⟨_, rfl⟩ | ⟨_, rfl⟩ | ⟨hh, _, rfl⟩
    · exact .refl ..
    · exact .refl ..
    · exact h.teardown_moved hh
  | qdInit =>
    rcases execQdInit_next hexec with ⟨_, rfl⟩ | ⟨hp, rfl⟩
    · exact .refl ..
    · exact h.qdConstruct_moved hp
  | qdPoll =>
    rcases execQdPoll_next hexec with ⟨_, rfl⟩ | ⟨_, _, _, _, rfl⟩
    · exact .refl ..
    · rw [pollStep_owner]
      exact .refl ..
  | qdReadCount =>
    rcases execQdReadCount_next hexec with ⟨_, rfl⟩ | ⟨_, _, rfl⟩
    · exact .refl ..
    · rw [endWith_owner, (countLoad_access_frame s).owner]
      exact .refl ..
  | qdReset =>
    rcases execQdReset_next hexec with ⟨_, rfl⟩ | ⟨_, rfl⟩
    · exact .refl ..
    · rw [endWith_owner, (countStore_access_frame 0 s).1.owner]
      exact .refl ..
  | qdRelease =>
    rcases execQdRelease_next hexec with ⟨_, rfl⟩ | ⟨_, rfl⟩ | ⟨hh, rfl⟩
    · exact .refl ..
    · exact .refl ..
    · exact h.release_moved hh

/-- Settles O56: the pins a command moves are its component's own or `FREE`. -/
theorem outsideHoldersKeepTheirPins : Obligations.OutsideHoldersKeepTheirPins := by
  unfold Obligations.OutsideHoldersKeepTheirPins
  intro s t h hstep
  obtain ⟨_, _, w, rest, _, hturn⟩ := step_next hstep
  rcases hturn with ⟨_, ⟨why, _, rfl⟩ | ⟨i, _, hexec⟩⟩ | ⟨a, _, rfl⟩
  · exact ⟨rfl, fun _ => Iff.rfl⟩
  · have moved := (h.host_turn rest).exec_moved hexec
    have outside : Owner.other ≠ componentOf i := by
      unfold componentOf
      split <;> decide
    exact ⟨moved.length, moved.holder (by decide) outside⟩
  · rw [(asyncStep_frame a (turnTaken s)).owner]
    exact ⟨rfl, fun _ => Iff.rfl⟩

/-! ### The invariant -/

/-- A legal launch has a count of at least one bit (10_state R42). -/
theorem countWidth_of_legal {s : State} (h : launchLegal s = true) : 1 ≤ s.cfg.countWidth := by
  simp only [launchLegal, Settings.legal, Bool.and_eq_true, decide_eq_true_eq] at h
  obtain ⟨⟨⟨_, hwidth⟩, _⟩, _⟩ := h
  omega

/-- No command clears `fault`. -/
theorem exec_fault_kept {i : Instr} {s t : State} (hexec : exec i s = .next t)
    (hf : s.fault = true) : t.fault = true := by
  obtain ⟨_, hacc⟩ := exec_accesses hexec
  exact hacc.fault.2 (.inl hf)

/-- A command of the driver keeps the invariant where it keeps the driver's part. -/
theorem Inv.exec_sr {i : Instr} {s t : State} (h : Inv s) (hi : isSrCommand i = true)
    (hexec : exec i s = .next t) (part : SrPart t) : Inv t := by
  refine h.of_sr (exec_srSide hi hexec) ((h.exec_moved hexec).holder (by decide) ?_)
    (exec_fault_kept hexec) part
  simp [componentOf, hi]

/-- A command of the decoder keeps the invariant where it keeps the decoder's part. -/
theorem Inv.exec_qd {i : Instr} {s t : State} (h : Inv s) (hi : isSrCommand i = false)
    (hexec : exec i s = .next t) (part : QdPart t) : Inv t := by
  refine h.of_qd (exec_qdSide hi hexec) ((h.exec_moved hexec).holder (by decide) ?_)
    (exec_fault_kept hexec) part
  simp [componentOf, hi]

/-- Every command keeps the invariant. -/
theorem Inv.exec_kept {i : Instr} {s t : State} (h : Inv s) (hw : 1 ≤ s.cfg.countWidth)
    (hexec : exec i s = .next t) : Inv t := by
  cases i with
  | srInit =>
    rcases execSrInit_next hexec with ⟨_, rfl⟩ | ⟨hp, rfl⟩
    · exact h.ended (by decide)
    · exact h.exec_sr rfl hexec (h.srConstruct_part hp)
  | srSerialize b =>
    rcases execSrSerialize_next hexec with ⟨_, rfl⟩ | ⟨hp, _, rfl⟩
    · exact h.ended (by decide)
    · obtain ⟨hshclk, hlatch⟩ := h.sr_rest hp
      exact h.exec_sr rfl hexec (h.endSr_part hp (serialize_clocks b hshclk hlatch))
  | srLatch =>
    rcases execSrLatch_next hexec with ⟨_, rfl⟩ | ⟨hp, _, rfl⟩
    · exact h.ended (by decide)
    · exact h.exec_sr rfl hexec (h.endSr_part hp (latch_clocks (h.sr_rest hp).1))
  | srTeardown =>
    rcases execSrTeardown_next hexec with ⟨_, rfl⟩ | ⟨_, rfl⟩ | ⟨hh, _, rfl⟩
    · exact h.ended (by decide)
    · exact h.ended (by decide)
    · exact h.exec_sr rfl hexec (h.teardown_part hh)
  | qdInit =>
    rcases execQdInit_next hexec with ⟨_, rfl⟩ | ⟨hp, rfl⟩
    · exact h.ended (by decide)
    · have hn : ¬ qdHolds s := by simp [qdHolds, hp]
      rcases h.qdConstruct_ends hp with refused | ⟨hpins, hfree, taken⟩
      · exact refused.inv (qdConstruct_side s) h
      · exact h.exec_qd rfl hexec (taken.part (qdConstruct_side s).cfg h hn hpins hfree)
  | qdPoll =>
    rcases execQdPoll_next hexec with ⟨_, rfl⟩ | ⟨hp, _, _, _, rfl⟩
    · exact h.ended (by decide)
    · exact h.poll_step hw hp
  | qdReadCount =>
    rcases execQdReadCount_next hexec with ⟨_, rfl⟩ | ⟨_, _, rfl⟩
    · exact h.ended (by decide)
    · exact (h.count_access fun _ _ hu => hu.count_load).ended (by decide)
  | qdReset =>
    rcases execQdReset_next hexec with ⟨_, rfl⟩ | ⟨hp, rfl⟩
    · exact h.ended (by decide)
    · refine (h.count_access fun u f hu => hu.count_store ?_).ended (by decide)
      rw [f.qd]
      exact hp
  | qdRelease =>
    rcases execQdRelease_next hexec with ⟨_, rfl⟩ | ⟨_, rfl⟩ | ⟨hh, rfl⟩
    · exact h.ended (by decide)
    · exact h.ended (by decide)
    · exact h.exec_qd rfl hexec (h.release_part hh)

/-- Settles O58, command by command and for the other agents' steps. -/
theorem invKeptByStep : Obligations.InvKeptByStep := by
  unfold Obligations.InvKeptByStep
  intro s t h hstep
  obtain ⟨hlegal, _, w, rest, _, hturn⟩ := step_next hstep
  rcases hturn with ⟨_, ⟨why, _, rfl⟩ | ⟨i, _, hexec⟩⟩ | ⟨a, _, rfl⟩
  · exact (h.host_turn rest).ended (by decide)
  · exact (h.host_turn rest).exec_kept (countWidth_of_legal hlegal) hexec
  · exact (asyncStep_frame a (turnTaken s)).inv h.agent_turn

end Sys2Proof.Machine
end

section
/-! PROOFS. The statements of 20_memory: the chip as a function of the trace (R78), and a delivery that
races the count access of a poll (R75, R81). -/

namespace Sys2Proof.Machine

open Sys2Proof.Config

/-! ### The chip after a command -/

/-- An SR command that ends `OK` has done all its writes. -/
theorem endSr_of_ok {as : List Action} {s : State}
    (h : (endSr (runActions as s)).status = some .ok) :
    endSr (runActions as s) = endWith .ok (writeAll as s) := by
  cases hr : (runActions as s).1
  · simp [endSr, hr] at h
  · rw [runActions_of_ok (runActions_ok_inv hr)]
    rfl

/-- Writes that end `OK`: the events they append to the trace, replayed, give the chip (20_memory R78). -/
theorem endSr_chip_follows_trace {as : List Action} {s : State}
    (h : (endSr (runActions as s)).status = some .ok) :
    (endSr (runActions as s)).sr.trace = s.sr.trace ++ actionEvents as ∧
      (endSr (runActions as s)).chip =
        replayChip .rising s.cfg.chainDepth (actionEvents as) s.sr s.chip := by
  rw [endSr_of_ok h]
  exact ⟨writeAll_trace as s, writeAll_chip as s⟩

/-- Settles O30: the events are those of the command's actions. -/
theorem chipFollowsTrace : Obligations.ChipFollowsTrace := by
  unfold Obligations.ChipFollowsTrace
  rintro s t i (⟨b, rfl⟩ | rfl) hexec hok
  · rcases execSrSerialize_next hexec with ⟨_, rfl⟩ | ⟨_, _, rfl⟩
    · simp at hok
    · exact ⟨_, endSr_chip_follows_trace hok⟩
  · rcases execSrLatch_next hexec with ⟨_, rfl⟩ | ⟨_, _, rfl⟩
    · simp at hok
    · exact ⟨_, endSr_chip_follows_trace hok⟩

/-! ### A delivery at one of the two points of a count access -/

/-- The state once one interior point of a command has been passed, before any agent's step there. -/
def pointPassed (s : State) : State := { s with env := { s.env with inside := s.env.inside.drop 1 } }

@[simp] theorem pointPassed_cfg (s : State) : (pointPassed s).cfg = s.cfg := rfl
@[simp] theorem pointPassed_qd (s : State) : (pointPassed s).qd = s.qd := rfl
@[simp] theorem pointPassed_inside (s : State) :
    (pointPassed s).env.inside = s.env.inside.drop 1 := rfl

/-- A delivery is enabled exactly by the decoder's own elements (41 R186). -/
theorem resetEnabled_iff (s : State) :
    resetEnabled s = true ↔ s.qd.registered = true ∧ 0 < s.qd.pending := by simp [resetEnabled]

/-- An interior point at which an enabled delivery is the only step. -/
theorem interleave_of_delivery {s : State} (h : s.env.insideAt 0 = [.resetEdge])
    (he : resetEnabled s = true) : interleave s = resetEdge (pointPassed s) := by
  rw [interleave, h]
  exact asyncStep_resetEdge_of_enabled (s := pointPassed s) he

/-- A delivery just before a count access: the access finds the count already stored. -/
theorem countAccess_of_delivery_before {access : State → State} {s : State}
    (h0 : s.env.insideAt 0 = [.resetEdge]) (h1 : s.env.insideAt 1 = []) (he : resetEnabled s = true)
    (hi : ∀ u, (access u).env.inside = u.env.inside) :
    countAccess access s = pointPassed (access (resetEdge (pointPassed s))) := by
  rw [countAccess, interleave_of_delivery h0 he]
  exact interleave_of_quiet (by simpa [Env.insideAt, hi] using h1)

/-- A delivery just after a count access that leaves it enabled. -/
theorem countAccess_of_delivery_after {access : State → State} {s : State}
    (h0 : s.env.insideAt 0 = []) (h1 : s.env.insideAt 1 = [.resetEdge])
    (he : resetEnabled (access (pointPassed s)) = true)
    (hi : ∀ u, (access u).env.inside = u.env.inside) :
    countAccess access s = resetEdge (pointPassed (access (pointPassed s))) := by
  have hq : interleave s = pointPassed s := interleave_of_quiet h0
  rw [countAccess, hq]
  exact interleave_of_delivery (by simpa [Env.insideAt, hi] using h1) he

/-- A delivery just before an add: the add starts from 0. -/
theorem countAdd_after_delivery_qd {s : State} (d : Int) (h0 : s.env.insideAt 0 = [.resetEdge])
    (h1 : s.env.insideAt 1 = []) (he : resetEnabled s = true) :
    (countAccess (countAdd d) s).qd =
      { s.qd with count := some (wrapW s.cfg.countWidth d), pending := s.qd.pending - 1 } := by
  rw [countAccess_of_delivery_before (access := countAdd d) h0 h1 he (fun _ => rfl)]
  simp

/-- A delivery just after an add: the sum is lost. -/
theorem countAdd_before_delivery_qd {s : State} (d : Int) (h0 : s.env.insideAt 0 = [])
    (h1 : s.env.insideAt 1 = [.resetEdge]) (he : resetEnabled s = true) :
    (countAccess (countAdd d) s).qd =
      { s.qd with count := some 0, pending := s.qd.pending - 1 } := by
  rw [countAccess_of_delivery_after (access := countAdd d) h0 h1 he (fun _ => rfl)]
  simp

/-! ### A poll that finds A moved -/

/-- The state once both reads of a poll have been made. -/
def samplesRead (s : State) : State :=
  { s with env := { s.env with fails := s.env.fails.drop 2, input := s.env.input.drop 2 } }

/-- A poll of a live decoder whose two reads succeed goes on to its samples (41 R170). -/
theorem exec_qdPoll_of_live {s : State} {a : Bool} {c : Int} (h : qdLiveAt a c s)
    (hok : noLineFailure 2 s) :
    exec .qdPoll s = .next (pollSamples (s.env.inputAt 0) (s.env.inputAt 1) (samplesRead s)) := by
  obtain ⟨hphase, hlines, hlast, hcount⟩ := h
  have hpoll : exec .qdPoll s = .next (pollStep s) := by
    simp [exec, execQdPoll, hphase, hlines, hlast, hcount]
  have h0 : s.env.failsAt 0 = false := hok 0 (by decide)
  have h1 : s.env.failsAt 1 = false := hok 1 (by decide)
  rcases pollStep_cases s with ⟨hf, _⟩ | ⟨_, hf, _⟩ | ⟨_, _, hp⟩
  · simp [h0] at hf
  · simp [h1] at hf
  · rw [hpoll, hp]
    rfl

/-- Where A has moved, a poll adds to the count and keeps the new sample (41 R170, R171). -/
theorem pollSamples_qd_of_moved {s : State} {currA : Bool} (currB : Bool)
    (h : s.qd.lastA ≠ some currA) :
    (pollSamples currA currB s).qd =
      { (countAccess (countAdd (pollDelta currA currB)) s).qd with lastA := some currA } := by
  simp [pollSamples, h]

/-- Settles O41: the poll's one count access is its add, and the delivery falls at one of its two points. -/
theorem resetRacesPoll : Obligations.ResetRacesPoll := by
  unfold Obligations.ResetRacesPoll
  intro s a c hlive hok hmoved hreg hpend
  have hexec := exec_qdPoll_of_live hlive hok
  have henabled : resetEnabled (samplesRead s) = true := (resetEnabled_iff _).2 ⟨hreg, hpend⟩
  have hlast : (samplesRead s).qd.lastA ≠ some (s.env.inputAt 0) := by
    obtain ⟨_, _, hlast, _⟩ := hlive
    show s.qd.lastA ≠ _
    rw [hlast]
    simpa using hmoved.symm
  have hqd := pollSamples_qd_of_moved (s.env.inputAt 1) hlast
  constructor
  · intro h0 h1
    rw [countAdd_after_delivery_qd (s := samplesRead s) _ h0 h1 henabled] at hqd
    exact ⟨_, hexec, by rw [hqd]; rfl, by rw [hqd]; rfl⟩
  · intro h0 h1
    rw [countAdd_before_delivery_qd (s := samplesRead s) _ h0 h1 henabled] at hqd
    exact ⟨_, hexec, by rw [hqd]; rfl, by rw [hqd]⟩

end Sys2Proof.Machine
end

section
/-! PROOFS. The decoder and the encoder (30_encoding R91 to R95), the table of words and register numbers
(30_encoding R93, R94; 10_state R42), and the word that the host's next turn runs. -/

namespace Sys2Proof.Machine

open Sys2Proof.Config

/-! ### The decoder undoes the encoder -/

/-- The one row with an operand: its `op` decodes to the command with the word's low byte
(30_encoding R92). -/
theorem decode_of_op_srSerialize {w : Word} (h : opField w = 0x11#8) :
    decode w = .command (.srSerialize (imm8Field w)) := by
  simp [decode, h]

/-- Each command's word decodes to the command: a format-N word is one closed word. -/
theorem decode_encode (i : Instr) : decode (encode i) = .command i := by
  cases i with
  | srSerialize b =>
    have hop : opField (encode (.srSerialize b)) = 0x11#8 := opField_append _ _
    have himm : imm8Field (encode (.srSerialize b)) = b := imm8Field_append _ _
    rw [decode_of_op_srSerialize hop, himm]
  | srInit | srLatch | srTeardown | qdInit | qdPoll | qdReadCount | qdReset | qdRelease => decide

/-- Settles O1: well-formedness is not needed, every term of `Instr` is a legal command. -/
theorem decodeOfEncode : Obligations.DecodeOfEncode := fun i _ => decode_encode i

/-! ### The rows of the opcode map and the words that select them -/

/-- The low byte of a format-N command's word is zero (30_encoding R91, R94). -/
theorem imm8Field_encode {i : Instr} (h : ∀ b, i ≠ .srSerialize b) : imm8Field (encode i) = 0x00#8 := by
  cases i with
  | srSerialize b => exact absurd rfl (h b)
  | srInit | srLatch | srTeardown | qdInit | qdPoll | qdReadCount | qdReset | qdRelease =>
    exact imm8Field_append _ _

/-- A word that selects a command's row, and has the command's operand if it has one, is its word. -/
theorem eq_encode_of_selects {w : Word} {i : Instr} (hrow : (opcodeRow i).selects w)
    (hbyte : ∀ b, i = .srSerialize b → b = imm8Field w) : w = encode i := by
  obtain ⟨hop, himm⟩ := (opcodeRow_selects w i).1 hrow
  have hlow : imm8Field w = imm8Field (encode i) := by
    by_cases hi : ∃ b, i = .srSerialize b
    · obtain ⟨b, rfl⟩ := hi
      rw [encode, imm8Field_append, hbyte b rfl]
    · rw [himm.resolve_left hi, imm8Field_encode (not_exists.1 hi)]
  rw [word_eq_fields w, hop, hlow, ← word_eq_fields]

/-- The opcode map has no rows but the commands' own (30_encoding R93). -/
theorem exists_opcodeRow_of_mem {r : OpcodeRow} (h : r ∈ opcodeRows) : ∃ i, r = opcodeRow i := by
  simp only [opcodeRows, List.mem_cons, List.not_mem_nil, or_false] at h
  rcases h with h | h | h | h | h | h | h | h | h <;> exact ⟨_, h⟩

/-- A word that selects a row decodes to a command of that row (30_encoding R95). -/
theorem decode_of_selects {w : Word} {r : OpcodeRow} (hr : r ∈ opcodeRows) (hs : r.selects w) :
    ∃ i, r = opcodeRow i ∧ decode w = .command i := by
  obtain ⟨i, rfl⟩ := exists_opcodeRow_of_mem hr
  by_cases hi : ∃ b, i = .srSerialize b
  · obtain ⟨b, rfl⟩ := hi
    have hop : opField w = 0x11#8 := ((opcodeRow_selects w _).1 hs).1.trans (opField_append _ _)
    exact ⟨.srSerialize (imm8Field w), rfl, decode_of_op_srSerialize hop⟩
  · have hw : w = encode i := eq_encode_of_selects hs fun b hb => absurd ⟨b, hb⟩ hi
    exact ⟨i, rfl, hw ▸ decode_encode i⟩

/-- A word that decodes to a command selects the command's row (30_encoding R95). -/
theorem selects_of_decode {w : Word} {i : Instr} (h : decode w = .command i) :
    (opcodeRow i).selects w :=
  (opcodeRow_selects w i).2 (decode_command_fields h)

/-- A word that decodes to a command with a byte holds that byte (30_encoding R92). -/
theorem decode_srSerialize_byte {w : Word} {b : Byte} (h : decode w = .command (.srSerialize b)) :
    b = imm8Field w := by
  have hop : opField w = 0x11#8 := (decode_command_fields h).1.trans (opField_append _ _)
  simpa [decode_of_op_srSerialize hop, eq_comm] using h

/-- Settles O2: a row that a word selects names the command the word decodes to, so it is the only one. -/
theorem decoderTotalAndRowsDisjoint : Obligations.DecoderTotalAndRowsDisjoint := by
  unfold Obligations.DecoderTotalAndRowsDisjoint
  refine ⟨fun w i h => ⟨selects_of_decode h, ?_⟩, fun w => ⟨?_, decode_illegal_of_no_row⟩, ?_⟩
  · rintro b rfl
    exact decode_srSerialize_byte h
  · rintro ⟨why, hwhy⟩ r hr hs
    obtain ⟨i, -, hi⟩ := decode_of_selects hr hs
    simp [hwhy] at hi
  · intro w r₁ h₁ r₂ h₂ hs₁ hs₂
    obtain ⟨i, rfl, hi⟩ := decode_of_selects h₁ hs₁
    obtain ⟨j, rfl, hj⟩ := decode_of_selects h₂ hs₂
    obtain rfl : i = j := Decoded.command.inj (hi.symm.trans hj)
    rfl

/-! ### Words and registers written out -/

/-- The registers past `CFG11` have no number (10_state R42). -/
theorem cfgRegister_beyond (s : State) {k : Nat} (hk : 12 ≤ k) : cfgRegister s k = none := by
  obtain ⟨j, rfl⟩ := Nat.exists_eq_add_of_le' hk
  rfl

/-- The registers past `STS3` have no number (10_state R42). -/
theorem stsRegister_beyond (s : State) {k : Nat} (hk : 4 ≤ k) : stsRegister s k = none := by
  obtain ⟨j, rfl⟩ := Nat.exists_eq_add_of_le' hk
  rfl

/-- `STS0` is the code of `sr.state` (10_state R23). -/
theorem stsRegister_srPhase {s : State} {p : SrPhase} (h : s.sr.phase = p) :
    stsRegister s 0 = some (srPhaseCode p).toNat := by rw [← h]; rfl

/-- `STS1` is the code of `qd.state` (10_state R32). -/
theorem stsRegister_qdPhase {s : State} {p : QdPhase} (h : s.qd.phase = p) :
    stsRegister s 1 = some (qdPhaseCode p).toNat := by rw [← h]; rfl

/-- `STS2` is the code of `status`, where it has a value (60_exceptions R210). -/
theorem stsRegister_status {s : State} {x : Option Status} (h : s.status = x) :
    stsRegister s 2 = x.map (fun st => (statusCode st).toNat) := by rw [← h]; rfl

/-- `STS3` is `fault` (10_state R42). -/
theorem stsRegister_fault {s : State} {v : Bool} (h : s.fault = v) :
    stsRegister s 3 = some v.toNat := by rw [← h]; rfl

/-- `CFG0` is `BIT_ORDER`, 0 for `LSB_FIRST` (10_state R42). -/
theorem cfgRegister_bitOrder {s : State} {o : BitOrder} (h : s.cfg.bitOrder = o) :
    cfgRegister s 0 = some (if o = .lsbFirst then 0 else 1) := by
  cases o <;> simp [cfgRegister, h]

/-- `CFG8` is `AB_INPUT_MODE`, 0 for `input` (10_state R42). -/
theorem cfgRegister_abInputMode {s : State} {m : InputMode} (h : s.cfg.abInputMode = m) :
    cfgRegister s 8 = some (if m = .input then 0 else 1) := by
  cases m <;> simp [cfgRegister, h]

/-- Settles O3: the ten command words are encodings, and each register is read by its number. -/
theorem tableWordsAndRegisterNumbers : Obligations.TableWordsAndRegisterNumbers := by
  unfold Obligations.TableWordsAndRegisterNumbers
  refine ⟨?words, fun s => ?cfg, fun s => ?sts, fun _ _ _ _ => rfl, rfl, rfl, rfl⟩
  case words =>
    exact ⟨decode_encode .srInit, decode_encode (.srSerialize 0x06#8),
      decode_encode (.srSerialize 0xFF#8), decode_encode .srLatch, decode_encode .srTeardown,
      decode_encode .qdInit, decode_encode .qdPoll, decode_encode .qdReadCount,
      decode_encode .qdReset, decode_encode .qdRelease, by decide, by decide, by decide, by decide⟩
  case cfg =>
    exact ⟨cfgRegister_bitOrder, cfgRegister_bitOrder, rfl, rfl, rfl, rfl, rfl, rfl, rfl,
      cfgRegister_abInputMode, cfgRegister_abInputMode, rfl, rfl, rfl, fun _ => cfgRegister_beyond s⟩
  case sts =>
    exact ⟨stsRegister_srPhase, stsRegister_srPhase, stsRegister_srPhase, stsRegister_srPhase,
      stsRegister_qdPhase, stsRegister_qdPhase, stsRegister_qdPhase, stsRegister_qdPhase,
      stsRegister_status, stsRegister_status, stsRegister_status, stsRegister_status,
      stsRegister_status, stsRegister_status, stsRegister_status,
      stsRegister_fault, stsRegister_fault, fun _ => stsRegister_beyond s⟩

/-! ### The placed word -/

theorem decoded_of_command? {d : Decoded} {i : Instr} (h : d.command? = some i) :
    d = .command i := by
  cases d with
  | command j => exact congrArg _ (Option.some.inj h)
  | illegal why => nomatch h

/-- A word placed and then issued on its turn leaves the state as it was. -/
theorem issued_placeWord (w : Word) (s : State) : issued s.host.words (placeWord w s) = s := by
  simp [issued]

/-- Settles O7: the placed word is the host's next one, and its turn comes next. -/
theorem placedWordRunsNext : Obligations.PlacedWordRunsNext := by
  unfold Obligations.PlacedWordRunsNext
  intro s w i hlegal hone hdecode
  have hcommand := decoded_of_command? hdecode
  calc step (s.withFetchWord 16 w)
      = takeTurn _ s.host.words (s.withFetchWord 16 w) := step_of_legal hlegal hone rfl
    _ = issue _ (issued s.host.words (s.withFetchWord 16 w)) := takeTurn_host _ _ rfl
    _ = exec i (issued s.host.words (s.withFetchWord 16 w)) := issue_of_command _ hcommand
    _ = exec i s := by rw [State.withFetchWord, issued_placeWord]

end Sys2Proof.Machine
end

section
/-! PROOFS. The assembler (30_encoding R97): the text of a command is parsed back to the command. -/

namespace Sys2Proof.Machine

/-! ### The words of a line -/

/-- A character that neither ends a word nor begins a comment. -/
def wordChar (c : Char) : Bool := !isBlank c && c != ',' && c != ';'

theorem wordChar_iff (c : Char) : wordChar c = true ↔ (!isBlank c) = true ∧ c ≠ ',' ∧ c ≠ ';' := by
  simp [wordChar, and_assoc]

/-- A text that stands as one word of a line. -/
structure PlainWord (cs : List Char) : Prop where
  nonempty : cs ≠ []
  chars : cs.all wordChar = true

theorem PlainWord.char {cs : List Char} (h : PlainWord cs) :
    ∀ c ∈ cs, (!isBlank c) = true ∧ c ≠ ',' ∧ c ≠ ';' :=
  fun c hc => (wordChar_iff c).1 (List.all_eq_true.1 h.chars c hc)

theorem PlainWord.noBlank {cs : List Char} (h : PlainWord cs) : ∀ c ∈ cs, (!isBlank c) = true :=
  fun c hc => (h.char c hc).1

theorem PlainWord.noComma {cs : List Char} (h : PlainWord cs) : ∀ c ∈ cs, c ≠ ',' :=
  fun c hc => (h.char c hc).2.1

theorem PlainWord.noComment {cs : List Char} (h : PlainWord cs) : ∀ c ∈ cs, c ≠ ';' :=
  fun c hc => (h.char c hc).2.2

theorem PlainWord.reverse {cs : List Char} (h : PlainWord cs) : PlainWord cs.reverse where
  nonempty := by simpa using h.nonempty
  chars := by simpa using h.chars

/-- No blank is dropped before a word. -/
theorem PlainWord.dropWhile_append {cs : List Char} (h : PlainWord cs) (rest : List Char) :
    (cs ++ rest).dropWhile isBlank = cs ++ rest := by
  obtain ⟨c, cs, rfl⟩ := List.exists_cons_of_ne_nil h.nonempty
  have hblank := h.noBlank c (List.mem_cons_self ..)
  rw [Bool.not_eq_true'] at hblank
  simp [hblank]

/-- A word has no blanks at its ends. -/
theorem PlainWord.trimBlanks_eq {cs : List Char} (h : PlainWord cs) : trimBlanks cs = cs := by
  have hfront := h.dropWhile_append []
  have hback := h.reverse.dropWhile_append []
  rw [List.append_nil] at hfront hback
  rw [trimBlanks, hfront, hback, List.reverse_reverse]

/-- The blank before a word is trimmed. -/
theorem PlainWord.trimBlanks_cons {cs : List Char} (h : PlainWord cs) :
    trimBlanks (' ' :: cs) = cs := by
  have hfront : (' ' :: cs).dropWhile isBlank = cs.dropWhile isBlank := rfl
  rw [trimBlanks, hfront]
  exact h.trimBlanks_eq

/-- A text from one word to another has no blanks at its ends. -/
theorem PlainWord.trimBlanks_between {m x : List Char} (hm : PlainWord m) (hx : PlainWord x) :
    trimBlanks (m ++ ' ' :: x) = m ++ ' ' :: x := by
  have hback : (m ++ ' ' :: x).reverse.dropWhile isBlank = (m ++ ' ' :: x).reverse := by
    rw [List.reverse_append, List.reverse_cons, List.append_assoc]
    exact hx.reverse.dropWhile_append _
  rw [trimBlanks, hm.dropWhile_append, hback, List.reverse_reverse]

/-- A text without a comma is not cut. -/
theorem splitCommas_no_comma {cs : List Char} (h : ∀ c ∈ cs, c ≠ ',') : splitCommas cs = [cs] := by
  induction cs with
  | nil => rfl
  | cons c cs ih =>
    obtain ⟨hc, hcs⟩ := List.forall_mem_cons.1 h
    simp [splitCommas, hc, ih hcs]

/-- A line without a comment is read whole. -/
theorem takeWhile_no_comment {cs : List Char} (h : ∀ c ∈ cs, c ≠ ';') :
    cs.takeWhile (fun c => decide (c ≠ ';')) = cs :=
  List.takeWhile_eq_self_iff.2 fun c hc => decide_eq_true (h c hc)

/-- A line of one word is a mnemonic without operands. -/
theorem parseLine_word {m : List Char} (h : PlainWord m) : parseLine m = assembleLine m [] := by
  have hfirst : m.takeWhile (fun c => !isBlank c) = m := List.takeWhile_eq_self_iff.2 h.noBlank
  have hrest : trimBlanks (m.drop m.length) = [] := by rw [List.drop_length]; rfl
  simp only [parseLine, takeWhile_no_comment h.noComment, h.trimBlanks_eq, hfirst, hrest]
  simp [h.nonempty]

/-- A line of two words is a mnemonic and its one operand. -/
theorem parseLine_two_words {m x : List Char} (hm : PlainWord m) (hx : PlainWord x) :
    parseLine (m ++ ' ' :: x) = assembleLine m [x] := by
  have hline : ∀ c ∈ m ++ ' ' :: x, c ≠ ';' :=
    List.forall_mem_append.2 ⟨hm.noComment, List.forall_mem_cons.2 ⟨by decide, hx.noComment⟩⟩
  have hfirst : (m ++ ' ' :: x).takeWhile (fun c => !isBlank c) = m := by
    rw [List.takeWhile_append_of_pos hm.noBlank]
    simp [isBlank]
  simp only [parseLine, takeWhile_no_comment hline, hm.trimBlanks_between hx, hfirst,
    List.drop_left, hx.trimBlanks_cons, splitCommas_no_comma hx.noComma]
  simp [hx.nonempty, hx.trimBlanks_eq]

/-! ### Hexadecimal literals -/

theorem digitValue_hexDigit : ∀ d < 16, digitValue (hexDigit d) = some d := by decide

theorem wordChar_hexDigit : ∀ d < 16, wordChar (hexDigit d) = true := by decide

theorem wordChar_hexDigits (k n : Nat) : (hexDigits k n).all wordChar = true := by
  induction k with
  | zero => rfl
  | succ k ih =>
    rw [hexDigits, List.all_cons, wordChar_hexDigit _ (Nat.mod_lt _ (by decide)), ih, Bool.and_self]

/-- Reading the last `k` hexadecimal digits of a number, after digits already read as `acc`. -/
theorem numeralFrom_hexDigits (k acc n : Nat) :
    numeralFrom 16 acc (hexDigits k n) = some (16 ^ k * acc + n % 16 ^ k) := by
  induction k generalizing acc with
  | zero => simp [hexDigits, numeralFrom, Nat.mod_one]
  | succ k ih =>
    have hd : n / 16 ^ k % 16 < 16 := Nat.mod_lt _ (by decide)
    have hsum : n % 16 ^ (k + 1) = n % 16 ^ k + 16 ^ k * (n / 16 ^ k % 16) := Nat.mod_pow_succ
    simp only [hexDigits, numeralFrom, digitValue_hexDigit _ hd, if_pos hd, ih, hsum]
    congr 1
    ring

/-- A byte as the text of a command writes it. -/
def byteText (b : Byte) : List Char := '0' :: 'x' :: hexDigits 2 b.toNat

theorem plainWord_byteText (b : Byte) : PlainWord (byteText b) where
  nonempty := List.cons_ne_nil _ _
  chars := wordChar_hexDigits 2 b.toNat

theorem byteLiteral_byteText (b : Byte) : byteLiteral (byteText b) = .ok b := by
  have hb : b.toNat < 16 ^ 2 := b.isLt
  have hliteral : literal (byteText b) = some b.toNat :=
    (numeralFrom_hexDigits 2 0 b.toNat).trans (by rw [Nat.mod_eq_of_lt hb, Nat.mul_zero, Nat.zero_add])
  simp [byteLiteral, hliteral, Nat.le_of_lt_succ hb]

/-! ### The text of a command -/

theorem plainWord_mnemonic {r : List Char × Instr} (h : r ∈ plainMnemonics) : PlainWord r.1 := by
  have hne : ∀ q ∈ plainMnemonics, q.1 ≠ [] := by decide
  have hchars : ∀ q ∈ plainMnemonics, q.1.all wordChar = true := by decide
  exact ⟨hne r h, hchars r h⟩

/-- Each mnemonic is found in its own row: no two rows have the same one. -/
theorem find_mnemonic : ∀ r ∈ plainMnemonics,
    plainMnemonics.find? (fun q => decide (q.1 = r.1)) = some r := by decide

/-- The text of a command without an operand is its mnemonic (30_encoding R97). -/
theorem assemblyText_mem {i : Instr} (h : ∀ b, i ≠ .srSerialize b) :
    (assemblyText i, i) ∈ plainMnemonics := by
  cases i with
  | srSerialize b => exact absurd rfl (h b)
  | srInit | srLatch | srTeardown | qdInit | qdPoll | qdReadCount | qdReset | qdRelease => decide

theorem parseLine_mnemonic {r : List Char × Instr} (h : r ∈ plainMnemonics) :
    parseLine r.1 = .ok (.command r.2) := by
  rw [parseLine_word (plainWord_mnemonic h)]
  simp [assembleLine, find_mnemonic r h]

/-- The text of `SR_SERIALIZE` is two words, its mnemonic and its byte. -/
theorem assemblyText_srSerialize (b : Byte) :
    assemblyText (.srSerialize b) = "sr.serialize".toList ++ ' ' :: byteText b := rfl

theorem assembleLine_srSerialize (b : Byte) :
    assembleLine "sr.serialize".toList [byteText b] = .ok (.command (.srSerialize b)) := by
  have hother : ∀ r ∈ plainMnemonics, r.1 ≠ "sr.serialize".toList := by decide
  have hfind : plainMnemonics.find? (fun r => decide (r.1 = "sr.serialize".toList)) = none :=
    List.find?_eq_none.2 fun r hr => by simpa only [decide_eq_true_eq] using hother r hr
  rw [assembleLine, hfind]
  simp only [if_pos, oneByte, byteLiteral_byteText, Except.map]

/-- Settles O5: the text is a mnemonic of the table alone, or `sr.serialize` and a literal that reads
back as the byte. -/
theorem assemblyTextParses : Obligations.AssemblyTextParses := by
  unfold Obligations.AssemblyTextParses
  intro i
  by_cases hi : ∃ b, i = .srSerialize b
  · obtain ⟨b, rfl⟩ := hi
    have hmnemonic : PlainWord "sr.serialize".toList := ⟨by decide, by decide⟩
    rw [assemblyText_srSerialize, parseLine_two_words hmnemonic (plainWord_byteText b),
      assembleLine_srSerialize]
  · exact parseLine_mnemonic (assemblyText_mem (not_exists.1 hi))

end Sys2Proof.Machine
end

section
/-! PROOFS. Serializing a list of bytes and latching them (30_encoding R98; 40_shift_register_driver R130 to
R138), and the pseudo-command that clears the chain (70_reset_and_hazards R247). -/

namespace Sys2Proof.Machine

open Sys2Proof.Config

/-! ### One command from rest -/

/-- The state after an `SR_SERIALIZE` none of whose writes fails. -/
def serialized (b : Byte) (s : State) : State :=
  endWith .ok (writeAll (serializeActions s.cfg.bitOrder b) s)

/-- The state after an `SR_LATCH` none of whose writes fails. -/
def latched (s : State) : State := endWith .ok (writeAll (pulse .latch) s)

theorem exec_srSerialize_of_rest {s : State} (b : Byte) (h : srAtRest s) (hok : noLineFailure 24 s) :
    exec (.srSerialize b) s = .next (serialized b s) := by
  obtain ⟨hready, hdriven, -⟩ := h
  have hrun := runActions_of_ok ((writeCount_serializeActions s.cfg.bitOrder b).symm ▸ hok)
  simp [exec, execSrSerialize, hready, hdriven, hrun, endSr, serialized]

theorem exec_srLatch_of_rest {s : State} (h : srAtRest s) (hok : noLineFailure 2 s) :
    exec .srLatch s = .next (latched s) := by
  obtain ⟨hready, hdriven, -⟩ := h
  have hrun := runActions_of_ok (as := pulse .latch) (s := s) hok
  simp [exec, execSrLatch, hready, hdriven, hrun, endSr, latched]

/-- A latch from a low latch clock copies the stages to the outputs (40 R138). -/
theorem latched_out {s : State} (h : s.sr.latch.level = some false) :
    (latched s).chip.out = s.chip.shift := by
  simp [latched, pulse, writeAll, chipEvent, isEdge, srLine, setSrLevel, setSrLine, h]

/-! ### A list of bytes -/

/-- The stages that a list of bytes fills, from stage 0 of chip 0 on: the last byte sent stands first. -/
def chainImage (order : BitOrder) (bs : List Byte) : List Bool :=
  bs.reverse.flatMap (fun b => byteBits (ord order b))

theorem chainImage_cons (order : BitOrder) (b : Byte) (bs : List Byte) :
    chainImage order (b :: bs) = chainImage order bs ++ byteBits (ord order b) := by
  simp [chainImage]

/-- What serializing the bytes `bs` from rest in `s` has come to in `t`. -/
structure BytesSerialized (bs : List Byte) (s t : State) : Prop where
  rest : srAtRest t
  cfg : t.cfg = s.cfg
  shift : t.chip.shift =
    (chainImage s.cfg.bitOrder bs ++ s.chip.shift).take (8 * s.cfg.chainDepth)
  out : t.chip.out = s.chip.out
  fails : t.env.fails = s.env.fails.drop (24 * bs.length)

theorem BytesSerialized.nil {s : State} (h : srAtRest s)
    (hw : s.chip.shift.length ≤ 8 * s.cfg.chainDepth) : BytesSerialized [] s s where
  rest := h
  cfg := rfl
  shift := (List.take_of_length_le hw).symm
  out := rfl
  fails := (Tape.drop_zero _).symm

/-- One byte from rest (40 R130 to R132). -/
theorem BytesSerialized.one {s : State} (b : Byte) (h : srAtRest s) (hd : 1 ≤ s.cfg.chainDepth) :
    BytesSerialized [b] s (serialized b s) := by
  obtain ⟨hdata, hshclk, hlatch⟩ := srAtRest_lines h
  obtain ⟨hready, -, hlow, -⟩ := h
  have hwrite := serialize_write s b hlow hd
  refine ⟨?rest, ?cfg, ?shift, ?out, ?fails⟩ <;>
    simp only [serialized, endWith_sr, endWith_cfg, endWith_chip, endWith_env, srAtRest, hwrite]
  case rest => exact ⟨hready, by simp [srLinesDriven, hdata, hshclk, hlatch], hlow, by rw [hlatch]⟩
  case shift => simp [chainImage, take_byteBits_append hd]
  case fails => rfl

/-- Bytes after a byte: what the first one shifted in goes deeper. -/
theorem BytesSerialized.cons {b : Byte} {bs : List Byte} {s t u : State}
    (h : BytesSerialized [b] s t) (k : BytesSerialized bs t u) : BytesSerialized (b :: bs) s u where
  rest := k.rest
  cfg := k.cfg.trans h.cfg
  shift := by
    rw [k.shift, h.cfg, h.shift, take_append_take, chainImage_cons]
    simp [chainImage]
  out := k.out.trans h.out
  fails := by
    rw [k.fails, h.fails, Tape.drop_drop]
    congr 1
    simp only [List.length_cons, List.length_nil]
    omega

/-- The writes that still come after the bytes do not fail. -/
theorem BytesSerialized.noLineFailure_after {bs : List Byte} {s t : State} (h : BytesSerialized bs s t)
    {n : Nat} (hok : noLineFailure (24 * bs.length + n) s) : noLineFailure n t := by
  intro k hk
  rw [Env.failsAt, h.fails, Tape.nth_drop]
  exact hok _ (by omega)

/-! ### Commands one after the other -/

theorem execAll_cons_of_next {i : Instr} {is : List Instr} {s t : State} (h : exec i s = .next t) :
    execAll (i :: is) s = execAll is t := by
  simp [execAll, h]

theorem execAll_append_of_next {is js : List Instr} {s t : State} (h : execAll is s = .next t) :
    execAll (is ++ js) s = execAll js t := by
  induction is generalizing s with
  | nil => rw [List.nil_append, Host.Outcome.next.inj h]
  | cons i is ih =>
    cases hexec : exec i s with
    | next u =>
      rw [execAll_cons_of_next hexec] at h
      rw [List.cons_append, execAll_cons_of_next hexec, ih h]
    | fault r => simp [execAll, hexec] at h
    | refused r => simp [execAll, hexec] at h

/-- The bytes of a list are serialized one after the other where no line fails. -/
theorem execAll_serializes (bs : List Byte) {s : State} (h : srAtRest s) (hd : 1 ≤ s.cfg.chainDepth)
    (hw : s.chip.shift.length ≤ 8 * s.cfg.chainDepth) (hok : noLineFailure (24 * bs.length) s) :
    ∃ t, execAll (bs.map .srSerialize) s = .next t ∧ BytesSerialized bs s t := by
  induction bs generalizing s with
  | nil => exact ⟨s, rfl, .nil h hw⟩
  | cons b bs ih =>
    rw [List.length_cons] at hok
    have hone := BytesSerialized.one b h hd
    have hwidth : (serialized b s).chip.shift.length ≤ 8 * (serialized b s).cfg.chainDepth := by
      rw [hone.shift, hone.cfg]
      exact List.length_take_le ..
    obtain ⟨t, hexec, ht⟩ := ih hone.rest (hone.cfg.symm ▸ hd) hwidth
      (hone.noLineFailure_after fun k hk => hok k (by simp only [List.length_singleton] at hk; omega))
    refine ⟨t, ?_, hone.cons ht⟩
    rw [List.map_cons, execAll_cons_of_next (exec_srSerialize_of_rest b h fun k hk => hok k (by omega)),
      hexec]

/-- A list of bytes serialized and latched: the outputs show the bytes, and behind them what the chain held
before (40 R152). -/
theorem execAll_serializes_latch (bs : List Byte) {s : State} (h : srAtRest s)
    (hd : 1 ≤ s.cfg.chainDepth) (hw : s.chip.shift.length ≤ 8 * s.cfg.chainDepth)
    (hok : noLineFailure (24 * bs.length + 2) s) :
    ∃ t, execAll (bs.map .srSerialize ++ [.srLatch]) s = .next t ∧ t.status = some .ok ∧
      t.chip.out = (chainImage s.cfg.bitOrder bs ++ s.chip.shift).take (8 * s.cfg.chainDepth) := by
  obtain ⟨u, hexec, hu⟩ := execAll_serializes bs h hd hw fun k hk => hok k (by omega)
  have hlatch := exec_srLatch_of_rest hu.rest (hu.noLineFailure_after hok)
  obtain ⟨-, -, -, hlow⟩ := hu.rest
  refine ⟨latched u, ?_, rfl, (latched_out hlow).trans hu.shift⟩
  rw [execAll_append_of_next hexec, execAll_cons_of_next hlatch]
  rfl

/-! ### Clearing the chain -/

/-- The image of the zero byte is zero under both orders (20_memory R65). -/
theorem byteBits_ord_zero (order : BitOrder) :
    byteBits (ord order 0x00#8) = List.replicate 8 false := by
  cases order <;> decide

theorem chainImage_zeros (order : BitOrder) (n : Nat) :
    chainImage order (List.replicate n 0x00#8) = List.replicate (8 * n) false := by
  rw [chainImage, List.reverse_replicate, List.flatMap_replicate, byteBits_ord_zero,
    List.flatten_replicate_replicate, Nat.mul_comm]

/-- `sr.clear` is a zero byte for each chip, then a latch (30_encoding R98). -/
theorem expandPseudo_clear (n : Nat) :
    expandPseudo n .clear = (List.replicate n 0x00#8).map .srSerialize ++ [.srLatch] := by
  rw [List.map_replicate]
  rfl

/-- Settles O28: the zero bytes fill the whole chain, so nothing of what it held is left. -/
theorem clearZeroesEveryOutput : Obligations.ClearZeroesEveryOutput := by
  unfold Obligations.ClearZeroesEveryOutput
  intro s h hd hw hok
  obtain ⟨t, hexec, hstatus, hout⟩ :=
    execAll_serializes_latch (List.replicate s.cfg.chainDepth 0x00#8) h hd hw.le
      (by rwa [List.length_replicate])
  refine ⟨t, expandPseudo_clear _ ▸ hexec, hstatus, ?_⟩
  rw [hout, chainImage_zeros, List.take_left' List.length_replicate]

end Sys2Proof.Machine
end

section
/-! PROOFS. `SR_SERIALIZE` and `SR_LATCH` where no line fails (40_shift_register_driver R130 to R138), and
what the outputs then show (R150 to R152). -/

namespace Sys2Proof.Machine

open Sys2Proof.Config

/-! ### The writes of one command -/

/-- The lines a serialize leaves behind, and stage 0 of chip 0, at whatever levels it starts: its first pair
brings the shift clock to 0, and the pairs after it shift from there (40 R131, R134). -/
theorem serialize_ends (s : State) (b : Byte) :
    (writeAll (serializeActions s.cfg.bitOrder b) s).sr.shclk.level = some false ∧
      (writeAll (serializeActions s.cfg.bitOrder b) s).sr.latch = s.sr.latch ∧
      (writeAll (serializeActions s.cfg.bitOrder b) s).sr.data.level =
        some (b.getLsbD (sendBit s.cfg.bitOrder 7)) ∧
      (1 ≤ s.cfg.chainDepth →
        (writeAll (serializeActions s.cfg.bitOrder b) s).chip.shift[0]? =
          some (b.getLsbD (sendBit s.cfg.bitOrder 7))) := by
  rw [serializeActions_split, writeAll_append]
  obtain ⟨hlow, hlatch⟩ := bitPair_clocks s (b.getLsbD (sendBit s.cfg.bitOrder 0))
  have hcfg := (writeAll_frame (bitPair (b.getLsbD (sendBit s.cfg.bitOrder 0))) s).cfg
  rw [bitPairs_write _ _ hlow, hcfg]
  refine ⟨hlow, hlatch, by simp [List.range'], fun hd => ?_⟩
  have hpos : 0 < 8 * s.cfg.chainDepth := by omega
  simp [List.range', hpos]

/-- The pulse of a latch from a low latch clock (40 R137, R138). -/
theorem latch_write (s : State) (h : s.sr.latch.level = some false) :
    writeAll (pulse .latch) s = { s with
      sr := { s.sr with trace := s.sr.trace ++ actionEvents (pulse .latch) }
      chip := { s.chip with out := s.chip.shift }
      env := { s.env with fails := s.env.fails.drop 2 } } := by
  have hl : (⟨s.sr.latch.mode, some false⟩ : Line) = s.sr.latch := by rw [← h]
  simp [pulse, writeAll, writeLevel, takeFails, setSrLevel, setSrLine, srLine, chipEvent, isEdge, h,
    actionEvents, hl]

/-- An `SR_SERIALIZE` that ends `OK` has made all its writes. -/
theorem exec_srSerialize_ok {b : Byte} {s t : State} (h : exec (.srSerialize b) s = .next t)
    (hok : t.status = some .ok) : t = serialized b s := by
  rcases execSrSerialize_next h with ⟨_, rfl⟩ | ⟨_, _, rfl⟩
  · simp at hok
  · exact endSr_of_ok hok

/-- So has an `SR_LATCH`. -/
theorem exec_srLatch_ok {s t : State} (h : exec .srLatch s = .next t) (hok : t.status = some .ok) :
    t = latched s := by
  rcases execSrLatch_next h with ⟨_, rfl⟩ | ⟨_, _, rfl⟩
  · simp at hok
  · exact endSr_of_ok hok

/-- Settles O14: from rest the shift clock is low, so each pair shifts its bit in. -/
theorem srSerializeCompletes : Obligations.SrSerializeCompletes := by
  unfold Obligations.SrSerializeCompletes
  intro s b h hd hok
  obtain ⟨hdata, -, -⟩ := srAtRest_lines h
  have hexec := exec_srSerialize_of_rest b h hok
  obtain ⟨-, -, hlow, -⟩ := h
  rw [hexec, serialized, serialize_write s b hlow hd, hdata]
  rfl

/-- Settles O15: an end `OK` says that all writes were made, from a low shift clock. -/
theorem srSerializeShiftsImageIn : Obligations.SrSerializeShiftsImageIn := by
  unfold Obligations.SrSerializeShiftsImageIn
  intro s t b hexec hok hlow hd
  rw [exec_srSerialize_ok hexec hok, serialized, serialize_write s b hlow hd]
  exact ⟨rfl, fun hone => by simp [hone], rfl⟩

/-- Settles O16: bit 7 is sent last under `LSB_FIRST`, bit 0 under `MSB_FIRST`. -/
theorem srSerializeEndLevels : Obligations.SrSerializeEndLevels := by
  unfold Obligations.SrSerializeEndLevels
  intro s t b hexec hok hlatch
  obtain ⟨hshclk, hkept, hdata, -⟩ := serialize_ends s b
  rw [exec_srSerialize_ok hexec hok]
  refine ⟨hshclk, (congrArg Line.level hkept).trans hlatch, fun horder => ?_, fun horder => ?_⟩
  · exact hdata.trans (by rw [horder]; rfl)
  · exact hdata.trans (by rw [horder]; rfl)

/-- Settles O17: both are the last bit sent. -/
theorem srSerializeDataIsStageZero : Obligations.SrSerializeDataIsStageZero := by
  unfold Obligations.SrSerializeDataIsStageZero
  intro s t b hexec hok hd
  obtain ⟨-, -, hdata, hstage⟩ := serialize_ends s b
  rw [exec_srSerialize_ok hexec hok]
  exact ⟨hdata.trans (hstage hd).symm, by rw [serialized, endWith_sr, hdata]; rfl⟩

/-- Settles O19: the rising edge of the pulse copies the stages, and its falling edge does nothing. -/
theorem srLatchCompletes : Obligations.SrLatchCompletes := by
  unfold Obligations.SrLatchCompletes
  intro s h hok
  have hexec := exec_srLatch_of_rest h hok
  obtain ⟨-, -, -, hlow⟩ := h
  rw [hexec, latched, latch_write s hlow]
  rfl

/-- Settles O20, by the writes of the pulse. -/
theorem srLatchCopiesStages : Obligations.SrLatchCopiesStages := by
  unfold Obligations.SrLatchCopiesStages
  intro s t hexec hok hlow
  rw [exec_srLatch_ok hexec hok, latched, latch_write s hlow]
  exact ⟨rfl, rfl⟩

/-! ### The chips of a chain -/

/-- Eight bits shifted in last stand in chip 0. -/
theorem chipBits_append_zero {xs : List Bool} (h : xs.length = 8) (bits : List Bool) :
    chipBits (xs ++ bits) 0 = xs := by
  rw [chipBits, Nat.mul_zero, List.drop_zero, List.take_left' h]

/-- Eight bits shifted in move what each chip held into the next chip. -/
theorem chipBits_append_succ {xs : List Bool} (h : xs.length = 8) (bits : List Bool) (c : Nat) :
    chipBits (xs ++ bits) (c + 1) = chipBits bits c := by
  rw [chipBits, Nat.mul_succ, Nat.add_comm, ← List.drop_drop, List.drop_left' h, chipBits]

/-- A register cut to its width shows the same chips. -/
theorem chipBits_take {depth c : Nat} (h : c < depth) (bits : List Bool) :
    chipBits (bits.take (8 * depth)) c = chipBits bits c := by
  rw [chipBits, chipBits, List.drop_take, List.take_take, Nat.min_eq_left (by omega)]

/-- A chip that the bytes of a list reach holds its own byte's image. -/
theorem chipBits_images {order : BitOrder} {bs : List Byte} {c : Nat} {b : Byte} (h : bs[c]? = some b)
    (bits : List Bool) :
    chipBits (bs.flatMap (fun x => byteBits (ord order x)) ++ bits) c = byteBits (ord order b) := by
  induction bs generalizing c with
  | nil => simp at h
  | cons x bs ih =>
    rw [List.flatMap_cons, List.append_assoc]
    cases c with
    | zero =>
      obtain rfl : x = b := by simpa using h
      exact chipBits_append_zero (byteBits_length _) _
    | succ c =>
      rw [chipBits_append_succ (byteBits_length _)]
      exact ih (by simpa using h)

/-- A chip beyond them holds what stood that many chips before it. -/
theorem chipBits_beyond_images {order : BitOrder} {bs : List Byte} {c : Nat} (h : bs.length ≤ c)
    (bits : List Bool) :
    chipBits (bs.flatMap (fun x => byteBits (ord order x)) ++ bits) c =
      chipBits bits (c - bs.length) := by
  induction bs generalizing c with
  | nil => rfl
  | cons x bs ih =>
    obtain ⟨c, rfl⟩ : ∃ k, c = k + 1 := ⟨c - 1, by simp only [List.length_cons] at h; omega⟩
    rw [List.flatMap_cons, List.append_assoc, chipBits_append_succ (byteBits_length _),
      ih (by simpa using h), List.length_cons, Nat.add_sub_add_right]

/-! ### One byte serialized and latched -/

/-- `SR_SERIALIZE b` and `SR_LATCH` from rest show the image of `b` on chip 0 (40 R150). -/
theorem execAll_serialize_latch {s : State} (b : Byte) (h : srAtRest s) (hd : 1 ≤ s.cfg.chainDepth)
    (hok : noLineFailure 26 s) :
    ∃ t, execAll [.srSerialize b, .srLatch] s = .next t ∧ t.status = some .ok ∧
      chipBits t.chip.out 0 = byteBits (ord s.cfg.bitOrder b) := by
  have hone := BytesSerialized.one b h hd
  obtain ⟨-, -, hlow, -⟩ := id h
  obtain ⟨-, -, -, hlatch⟩ := hone.rest
  refine ⟨latched (serialized b s), ?_, rfl, ?_⟩
  · rw [execAll_cons_of_next (exec_srSerialize_of_rest b h fun k hk => hok k (by omega)),
      execAll_cons_of_next (exec_srLatch_of_rest hone.rest (hone.noLineFailure_after hok))]
    rfl
  · rw [latched_out hlatch, serialized, serialize_write s b hlow hd]
    exact chipBits_append_zero (byteBits_length _) _

/-- The bits of a reversed byte are its bits reversed. -/
theorem byteBits_rev8 (b : Byte) : byteBits (rev8 b) = (byteBits b).reverse := by
  simp [byteBits, rev8, BitVec.getLsbD_reverse, BitVec.getMsbD, List.range_succ]

/-- Settles O24; the two orders are the cases of `ord`. -/
theorem serializeLatchRoundTrip : Obligations.SerializeLatchRoundTrip := by
  unfold Obligations.SerializeLatchRoundTrip
  intro s b h hd hok
  obtain ⟨t, hexec, hstatus, hout⟩ := execAll_serialize_latch b h hd hok
  exact ⟨t, hexec, hstatus, hout, fun horder => by rw [hout, horder, ord],
    fun horder => by rw [hout, horder, ord]⟩

/-- Settles O25: `rev8` reverses the image of every byte. -/
theorem reversedOrderReversesImage : Obligations.ReversedOrderReversesImage := by
  unfold Obligations.ReversedOrderReversesImage
  intro s t u b h hd hok hmsb hlsb
  obtain ⟨t', hexec, -, ht⟩ := execAll_serialize_latch
    (s := { s with cfg := { s.cfg with bitOrder := .msbFirst } }) b h hd hok
  obtain ⟨u', hexec', -, hu⟩ := execAll_serialize_latch
    (s := { s with cfg := { s.cfg with bitOrder := .lsbFirst } }) b h hd hok
  cases hmsb.symm.trans hexec
  cases hlsb.symm.trans hexec'
  rw [hu, ht]
  exact byteBits_rev8 b

/-- Settles O26: the last byte sent stands in chip 0, and the bytes together have moved what the chain held
by as many chips. -/
theorem chainedShift : Obligations.ChainedShift := by
  unfold Obligations.ChainedShift
  intro s bs h hd hw hok
  obtain ⟨t, hexec, hstatus, hout⟩ := execAll_serializes_latch bs h hd hw.le hok
  refine ⟨t, hexec, hstatus, fun c b hc hcb hb => ?_, fun c hcb hc => ?_⟩
  · rw [hout, chipBits_take hc, chainImage]
    exact chipBits_images (by rw [List.getElem?_reverse hcb, hb]) _
  · rw [hout, chipBits_take hc, chainImage, chipBits_beyond_images (by rwa [List.length_reverse]),
      List.length_reverse]

end Sys2Proof.Machine
end

section
/-! PROOFS. `SR_TEARDOWN` (40_shift_register_driver R141 to R146): its writes, its releases, and the outputs
between them. -/

namespace Sys2Proof.Machine

open Sys2Proof.Config

/-! ### The writes -/

/-- Driving the lines low makes no rising edge, so the chip stays (40 R116). -/
theorem low_write (s : State) :
    writeAll lowActions s = { s with
      sr := { s.sr with
        data := ⟨s.sr.data.mode, some false⟩
        shclk := ⟨s.sr.shclk.mode, some false⟩
        latch := ⟨s.sr.latch.mode, some false⟩
        trace := s.sr.trace ++ actionEvents lowActions }
      env := { s.env with fails := s.env.fails.drop 3 } } := by
  simp [lowActions, writeAll, writeLevel, takeFails, setSrLevel, setSrLine, srLine, chipEvent, isEdge,
    actionEvents]

theorem low_chip (s : State) : (writeAll lowActions s).chip = s.chip := by
  rw [low_write]

/-- The zero byte is sent by the same actions under both bit orders. -/
theorem serializeActions_zero (order : BitOrder) :
    serializeActions order 0x00#8 = serializeActions .lsbFirst 0x00#8 := by
  cases order <;> decide

/-- The chip after the writes of a teardown that all succeed, from low clocks: a zero byte serialized and
latched (40 R146). -/
theorem teardown_chip {s : State} (hshclk : s.sr.shclk.level = some false)
    (hlatch : s.sr.latch.level = some false) (hd : 1 ≤ s.cfg.chainDepth) :
    (writeAll teardownActions s).chip =
      ⟨List.replicate 8 false ++ s.chip.shift.take (8 * s.cfg.chainDepth - 8),
        List.replicate 8 false ++ s.chip.shift.take (8 * s.cfg.chainDepth - 8)⟩ := by
  rw [teardownActions, writeAll_append, writeAll_append, low_chip,
    ← serializeActions_zero s.cfg.bitOrder, serialize_write s _ hshclk hd,
    latch_write _ (by exact hlatch), byteBits_ord_zero]

/-- Where no write fails, the writes of a teardown are all made. -/
theorem teardownDriven_of_ok {s : State} (hok : noLineFailure 29 s) :
    teardownDriven s = writeAll teardownActions s :=
  runBestEffort_of_ok (writeCount_teardownActions.symm ▸ hok)

/-- Where the last three writes do not fail, the trace ends with them, whatever failed before (40 R143). -/
theorem teardownDriven_trace {s : State} (hok : ∀ k, 26 ≤ k → k < 29 → s.env.failsAt k = false) :
    ∃ es, (teardownDriven s).sr.trace = s.sr.trace ++ es ++ actionEvents lowActions := by
  have frame := runBestEffort_frame (serializeActions .lsbFirst 0x00#8 ++ pulse .latch) s
  obtain ⟨es, hes⟩ := frame.trace
  refine ⟨es, ?_⟩
  rw [teardownDriven, teardownActions, runBestEffort_append, runBestEffort_of_ok fun k hk => ?_,
    writeAll_trace, hes]
  have hcount : writeCount lowActions = 3 := rfl
  rw [frame.failsAt]
  exact hok _ (Nat.le_add_right 26 k) (Nat.add_lt_add_left (hcount ▸ hk) 26)

/-! ### The releases -/

/-- The releases of a teardown, of a driver that holds its lines. -/
theorem teardownRelease_of_held {s : State} (hm : ∀ l, (srLine s.sr l).mode = .output) :
    (teardownRelease s).sr = ⟨.tornDown, Line.idle, Line.idle, Line.idle,
        s.sr.trace ++ [.released .data, .released .shclk, .released .latch]⟩ ∧
      (teardownRelease s).owner = setPins (srPins s.cfg) .free s.owner ∧
      (teardownRelease s).fault = s.fault := by
  obtain ⟨u, hu, hsr, howner, -, -, -, -, -, hfault, -⟩ := releaseAll_sr hm
  rw [teardownRelease, hu]
  exact ⟨by rw [endWith_sr, hsr], howner, hfault⟩

theorem exec_srTeardown_of_held {s : State} (hh : srHolds s) (hd : srLinesDriven s.sr = true) :
    exec .srTeardown s = .next (teardownRelease (teardownDriven s)) := by
  rcases hh with hp | hp <;> simp [exec, execSrTeardown, hp, hd]

/-- The lines stay held through the writes of a teardown. -/
theorem teardownDriven_mode {s : State} (hd : srLinesDriven s.sr = true) (l : SrLine) :
    (srLine (teardownDriven s).sr l).mode = .output :=
  ((runBestEffort_frame teardownActions s).mode l).trans ((srLinesDriven_iff s.sr).1 hd l).1

/-! ### Teardown -/

/-- Settles O21: the writes go on past a failure and leave the lines held, and the releases free them. -/
theorem srTeardownCompletes : Obligations.SrTeardownCompletes := by
  unfold Obligations.SrTeardownCompletes
  intro s hh hd howner
  have frame : SrFrame 29 s (teardownDriven s) := runBestEffort_frame teardownActions s
  have side := frame.side.trans (teardownRelease_side (teardownDriven s))
  obtain ⟨hsr, hfreed, hfault⟩ := teardownRelease_of_held (teardownDriven_mode hd)
  have hheld : ∀ p ∈ srPins s.cfg, p < s.owner.length :=
    pins_inRange (y := .sr) fun p hp => by
      obtain ⟨l, rfl⟩ := mem_srPins.1 hp
      exact howner l
  rw [frame.cfg, frame.owner] at hfreed
  refine ⟨_, exec_srTeardown_of_held hh hd, rfl, by rw [hsr], fun l => ?_, fun l => ?_, fun p hp => ?_,
    ?_, fun hok => ?_, side.qd, side.result, side.cfg, side.host⟩
  · rw [hsr]
    cases l <;> rfl
  · rw [hfreed, getElem?_setPins hheld, if_pos (mem_srPins.2 ⟨l, rfl⟩)]
  · rw [hfreed, getElem?_setPins hheld, if_neg fun hmem => (mem_srPins.1 hmem).elim hp]
  · rw [hfault, teardownDriven, runBestEffort_fault, writeCount_teardownActions]
  · obtain ⟨es, hes⟩ := teardownDriven_trace hok
    exact ⟨es, by rw [hsr, hes, List.append_assoc]; rfl⟩

/-- Settles O22: the zero byte has been latched, and driving the lines low does not move the chip. -/
theorem srTeardownOutputsBeforeRelease : Obligations.SrTeardownOutputsBeforeRelease := by
  unfold Obligations.SrTeardownOutputsBeforeRelease
  intro s ⟨hready, hdriven, hshclk, hlatch⟩ hd _ hok
  have hchip := teardown_chip hshclk hlatch hd
  have hexec := exec_srTeardown_of_held (.inl hready) hdriven
  obtain ⟨hsr, -, -⟩ := teardownRelease_of_held (teardownDriven_mode hdriven)
  rw [← teardownDriven_of_ok hok] at hchip
  rw [hchip]
  refine ⟨rfl, rfl, fun hone => by simp [hone], fun c hc => ?_, ?_, _, hexec, by rw [hsr]⟩
  · rw [chipBits_append_succ List.length_replicate, ← Nat.mul_sub_one, chipBits_take (by omega)]
  · rw [teardownDriven_of_ok hok, writeAll_trace]

/-- Settles O23, by the state check of the command. -/
theorem srTeardownRepeatedDoesNothing : Obligations.SrTeardownRepeatedDoesNothing := by
  unfold Obligations.SrTeardownRepeatedDoesNothing
  intro s
  refine ⟨fun hp => ⟨endWith .ok s, ?_, rfl⟩, fun hp => ⟨endWith .lifecycleError s, ?_, rfl⟩⟩ <;>
    simp [exec, execSrTeardown, hp]

end Sys2Proof.Machine
end

section
/-! PROOFS. The clock edges the driver's commands make: how many (40_shift_register_driver R153), that it
cannot be told which of a pulse's two edges the chip acts on (R120), and that only a latch moves the
outputs (R154). -/

namespace Sys2Proof.Machine

open Sys2Proof.Config

/-! ### Counting rising edges -/

/-- A pair from a low shift clock makes one rising edge of it. -/
theorem risingEdges_shclk_bitPair (v : Bool) (es : List Event) :
    risingEdges .shclk (some false) (actionEvents (bitPair v) ++ es) =
      1 + risingEdges .shclk (some false) es := by
  simp [bitPair, pulse, actionEvents, risingEdges, isEdge]

/-- A pair makes none of the latch clock. -/
theorem risingEdges_latch_bitPair (v : Bool) (level : Option Bool) (es : List Event) :
    risingEdges .latch level (actionEvents (bitPair v) ++ es) = risingEdges .latch level es := by
  simp [bitPair, pulse, actionEvents, risingEdges]

/-- A serialize makes eight rising edges of the shift clock, and none of the latch clock, before what
follows it. -/
theorem risingEdges_serialize (order : BitOrder) (b : Byte) (level : Option Bool) (es : List Event) :
    risingEdges .shclk (some false) (actionEvents (serializeActions order b) ++ es) =
        8 + risingEdges .shclk (some false) es ∧
      risingEdges .latch level (actionEvents (serializeActions order b) ++ es) =
        risingEdges .latch level es := by
  have pairs : ∀ vs : List Bool,
      risingEdges .shclk (some false) (actionEvents (vs.flatMap bitPair) ++ es) =
          vs.length + risingEdges .shclk (some false) es ∧
        risingEdges .latch level (actionEvents (vs.flatMap bitPair) ++ es) =
          risingEdges .latch level es := by
    intro vs
    induction vs with
    | nil => simp [actionEvents]
    | cons v vs ih =>
      obtain ⟨hshclk, hlatch⟩ := ih
      rw [List.flatMap_cons, actionEvents_append, List.append_assoc, risingEdges_shclk_bitPair, hshclk,
        risingEdges_latch_bitPair, hlatch, List.length_cons]
      exact ⟨by omega, rfl⟩
  rw [serializeActions_eq]
  simpa [sentBits] using pairs (sentBits order b)

/-- Driving the lines low makes no rising edge, from whatever level. -/
theorem risingEdges_low (v : Option Bool) :
    risingEdges .shclk v (actionEvents lowActions) = 0 ∧
      risingEdges .latch v (actionEvents lowActions) = 0 := by
  simp [lowActions, actionEvents, risingEdges, isEdge]

/-! ### The events of a command -/

/-- The events of an `SR_INIT` that ends `OK` are those that drive the lines low (40 R125). -/
theorem srInit_trace {s t : State} (h : exec .srInit s = .next t) (hok : t.status = some .ok) :
    t.sr.trace = s.sr.trace ++ actionEvents lowActions := by
  rcases execSrInit_next h with ⟨_, rfl⟩ | ⟨_, rfl⟩
  · simp at hok
  rcases srConstruct_cases s with ⟨_, h⟩ | ⟨_, _, ⟨_, h⟩ | ⟨_, _, ⟨_, h⟩ | ⟨_, _, h⟩⟩⟩ <;>
    rw [h] at hok ⊢
  · simp at hok
  · simp at hok
  · simp at hok
  · rw [srDriveLow_eq_finish] at hok ⊢
    cases hr : (runActions lowActions (srAcquired3 s)).1
    · simp [srFinish, hr] at hok
    · rw [runActions_of_ok (runActions_ok_inv hr)]
      exact writeAll_trace lowActions (srAcquired3 s)

/-- The events of an `SR_TEARDOWN` from rest, no write of which fails (40 R141). -/
theorem srTeardown_trace {s t : State} (h : exec .srTeardown s = .next t) (hrest : srAtRest s)
    (hok : noLineFailure 29 s) :
    t.sr.trace = s.sr.trace ++ (actionEvents teardownActions ++
      [.released .data, .released .shclk, .released .latch]) := by
  obtain ⟨hready, hdriven, -, -⟩ := hrest
  obtain ⟨hsr, -, -⟩ := teardownRelease_of_held (teardownDriven_mode hdriven)
  have ht := Host.Outcome.next.inj (h.symm.trans (exec_srTeardown_of_held (.inl hready) hdriven))
  rw [ht, hsr, teardownDriven_of_ok hok, writeAll_trace, List.append_assoc]

/-- Settles O29: the events a command appends are those of its actions, and of a teardown's releases. -/
theorem pulseCounts : Obligations.PulseCounts := by
  unfold Obligations.PulseCounts
  intro s t i hlines hexec hok
  obtain ⟨_, es, hes⟩ := exec_cfg_trace hexec
  refine ⟨es, hes, ?_, ?_, ?_, ?_⟩
  · rintro ⟨_, _, hshclk, _⟩ ⟨b, rfl⟩
    have htrace : t.sr.trace = s.sr.trace ++ actionEvents (serializeActions s.cfg.bitOrder b) := by
      rw [exec_srSerialize_ok hexec hok]
      exact writeAll_trace ..
    obtain rfl := List.append_cancel_left (hes.symm.trans htrace)
    rw [hshclk]
    simpa [risingEdges] using risingEdges_serialize s.cfg.bitOrder b s.sr.latch.level []
  · rintro ⟨_, _, hshclk, hlatch⟩ rfl
    have htrace : t.sr.trace = s.sr.trace ++ actionEvents (pulse .latch) := by
      rw [exec_srLatch_ok hexec hok]
      exact writeAll_trace ..
    obtain rfl := List.append_cancel_left (hes.symm.trans htrace)
    rw [hshclk, hlatch]
    decide
  · rintro hrest rfl
    obtain rfl := List.append_cancel_left (hes.symm.trans (srTeardown_trace hexec hrest hlines))
    obtain ⟨_, _, hshclk, hlatch⟩ := hrest
    rw [hshclk, hlatch]
    decide
  · rintro rfl v
    obtain rfl := List.append_cancel_left (hes.symm.trans (srInit_trace hexec hok))
    exact risingEdges_low v

/-! ### Which edge the chip acts on -/

/-- After these events, from low clocks, a chip that acts on falling edges is as one that acts on rising
edges (40 R120). -/
def EdgeBlind (depth : Nat) (es : List Event) : Prop :=
  ∀ (sr : Sr) (c : Chip), sr.shclk.level = some false → sr.latch.level = some false →
    replayChip .falling depth es sr c = replayChip .rising depth es sr c

/-- A pair shifts its bit in at one edge or the other, with the same level on the data line. -/
theorem replayChip_bitPair (e : ClockEdge) (depth : Nat) (v : Bool) (es : List Event) {sr : Sr} (c : Chip)
    (h : sr.shclk.level = some false) :
    replayChip e depth (actionEvents (bitPair v) ++ es) sr c =
      replayChip e depth es { sr with data := ⟨sr.data.mode, some v⟩ }
        { c with shift := (v :: c.shift).take (8 * depth) } := by
  have hlow : (⟨sr.shclk.mode, some false⟩ : Line) = sr.shclk := by rw [← h]
  cases e <;>
    simp [bitPair, pulse, actionEvents, replayChip, chipEvent, isEdge, setSrLevel, setSrLine, srLine, h,
      shiftIn, hlow]

/-- The pulse of a latch copies the stages at one edge or the other. -/
theorem replayChip_latch (e : ClockEdge) (depth : Nat) (es : List Event) {sr : Sr} (c : Chip)
    (h : sr.latch.level = some false) :
    replayChip e depth (actionEvents (pulse .latch) ++ es) sr c =
      replayChip e depth es sr { c with out := c.shift } := by
  have hlow : (⟨sr.latch.mode, some false⟩ : Line) = sr.latch := by rw [← h]
  cases e <;>
    simp [pulse, actionEvents, replayChip, chipEvent, isEdge, setSrLevel, setSrLine, srLine, h, hlow]

theorem edgeBlind_nil (depth : Nat) : EdgeBlind depth [] := fun _ _ _ _ => rfl

theorem EdgeBlind.serialize {depth : Nat} {es : List Event} (h : EdgeBlind depth es) (order : BitOrder)
    (b : Byte) : EdgeBlind depth (actionEvents (serializeActions order b) ++ es) := by
  rw [serializeActions_eq]
  induction sentBits order b with
  | nil => exact h
  | cons v vs ih =>
    intro sr c hshclk hlatch
    rw [List.flatMap_cons, actionEvents_append, List.append_assoc, replayChip_bitPair _ _ _ _ _ hshclk,
      replayChip_bitPair _ _ _ _ _ hshclk]
    exact ih _ _ hshclk hlatch

theorem EdgeBlind.latch {depth : Nat} {es : List Event} (h : EdgeBlind depth es) :
    EdgeBlind depth (actionEvents (pulse .latch) ++ es) := by
  intro sr c hshclk hlatch
  rw [replayChip_latch _ _ _ _ hlatch, replayChip_latch _ _ _ _ hlatch]
  exact h _ _ hshclk hlatch

/-- Low clocks driven low make neither edge. -/
theorem edgeBlind_low (depth : Nat) : EdgeBlind depth (actionEvents lowActions) := by
  intro sr c hshclk hlatch
  simp [lowActions, actionEvents, replayChip, chipEvent, isEdge, setSrLevel, setSrLine, srLine, hshclk,
    hlatch]

/-- Settles O31: each pulse starts and ends low, so each of its two edges comes once, with nothing else
moved between them. -/
theorem clockEdgeUnobservable : Obligations.ClockEdgeUnobservable := by
  unfold Obligations.ClockEdgeUnobservable
  intro depth sr c as has
  suffices h : EdgeBlind depth (actionEvents as) from h sr c
  rcases has with ⟨order, b, rfl⟩ | rfl | rfl
  · simpa using (edgeBlind_nil depth).serialize order b
  · simpa using (edgeBlind_nil depth).latch
  · simpa [teardownActions] using (edgeBlind_low depth).latch.serialize .lsbFirst 0x00#8

/-! ### What moves the outputs -/

/-- Writes that do not touch the latch line leave the outputs. -/
theorem writeAll_out {as : List Action} (h : ∀ v, .set .latch v ∉ as) (s : State) :
    (writeAll as s).chip.out = s.chip.out := by
  induction as generalizing s with
  | nil => rfl
  | cons a as ih =>
    have hrest : ∀ v, .set .latch v ∉ as := fun v hv => h v (List.mem_cons_of_mem a hv)
    cases a with
    | delay => exact ih hrest s
    | set l v =>
      have hl : l ≠ .latch := by
        rintro rfl
        exact h v List.mem_cons_self
      rw [writeAll, ih hrest, writeLevel_chip, chipEvent_out hl, takeFails_chip]

/-- A serialize does not touch the latch line (40 R130). -/
theorem serializeActions_no_latch (order : BitOrder) (b : Byte) (v : Bool) :
    .set .latch v ∉ serializeActions order b := by
  simp [serializeActions, pulse]

/-- Settles O32: the decoder's commands leave the chip alone, and a serialize that loses no line writes only
the data line and the shift clock. -/
theorem outputsChangeOnlyAtLatch : Obligations.OutputsChangeOnlyAtLatch := by
  unfold Obligations.OutputsChangeOnlyAtLatch
  intro s t i hexec hinit hlatch hteardown
  cases hi : isSrCommand i
  · exact .inl (congrArg Chip.out (exec_qdSide hi hexec).chip)
  cases i with
  | srInit => exact absurd rfl hinit
  | srLatch => exact absurd rfl hlatch
  | srTeardown => exact absurd rfl hteardown
  | srSerialize b =>
    rcases execSrSerialize_next hexec with ⟨_, rfl⟩ | ⟨_, _, rfl⟩
    · exact .inl rfl
    · cases hr : (runActions (serializeActions s.cfg.bitOrder b) s).1
      · exact .inr ⟨⟨b, rfl⟩, by simp [endSr, hr]⟩
      · rw [runActions_of_ok (runActions_ok_inv hr)]
        rw [endSr, if_pos rfl, endWith_chip, writeAll_out (serializeActions_no_latch _ b)]
        exact .inl rfl
  | qdInit | qdPoll | qdReadCount | qdReset | qdRelease => cases hi

end Sys2Proof.Machine
end

section
/-! PROOFS. The constructions `SR_INIT` and `QD_INIT` (40_shift_register_driver R125, R126;
41_quadrature_decoder R165, R167; 60_exceptions R211, R220): the pins are acquired in order, and the first one
that is refused decides how they end. -/

namespace Sys2Proof.Machine

open Sys2Proof.Config

/-! ### The first refused pin -/

/-- One acquisition read from its pin: a construction stops there where the pin is not free or is denied, and
goes on where it is free and not denied. -/
theorem acquisition_stage {free stops goesOn : Prop} {denied : Bool}
    (h : ((¬ free ∨ denied = true) ∧ stops) ∨ (free ∧ denied = false ∧ goesOn)) :
    ((¬ free ∨ denied = true) → stops) ∧ (free → denied = false → goesOn) := by
  rcases h with ⟨hrefused, hstops⟩ | ⟨hfree, hdenied, hgoes⟩
  · exact ⟨fun _ => hstops, fun hf hd => absurd hrefused (by simp [hf, hd])⟩
  · exact ⟨fun hr => absurd hr (by simp [hfree, hdenied]), fun _ _ => hgoes⟩

/-- A pin is refused once other free pins have been taken where it was not free, is one of them, or is
denied (60_exceptions R220). -/
theorem refused_after_taken {ps : List PinId} {p : PinId} {os : List Owner} {x : Owner} {denied : Bool}
    (hx : .free ≠ x) (hfree : ∀ q ∈ ps, os[q]? = some .free)
    (h : os[p]? ≠ some .free ∨ p ∈ ps ∨ denied = true) :
    (setPins ps x os)[p]? ≠ some .free ∨ denied = true := by
  rw [Ne, setPins_old hfree hx]
  rcases h with h | h | h
  · exact .inl fun hp => h hp.2
  · exact .inl fun hp => hp.1 h
  · exact .inr h

/-- A free pin stays free while other free pins are taken. -/
theorem free_after_taken {ps : List PinId} {p : PinId} {os : List Owner} {x : Owner} (hx : .free ≠ x)
    (hfree : ∀ q ∈ ps, os[q]? = some .free) (hp : p ∉ ps) (h : os[p]? = some .free) :
    (setPins ps x os)[p]? = some .free :=
  (setPins_old hfree hx p).2 ⟨hp, h⟩

/-! ### The driver -/

theorem exec_srInit_of_unconstructed {s : State} (h : s.sr.phase = .unconstructed) :
    exec .srInit s = .next (srConstruct s) := by
  simp [exec, execSrInit, h]

@[simp] theorem releaseSrLine_trace (l : SrLine) (s : State) :
    (releaseSrLine l s).sr.trace = s.sr.trace ++ [.released l] := rfl

/-- With three distinct free pins and no denial the driver acquires its lines (40 R125). -/
theorem srConstruct_of_free {s : State} (hpins : (srPins s.cfg).Nodup)
    (hfree : ∀ l, s.owner[srPin s.cfg l]? = some .free)
    (hdenied : ∀ k, k < 3 → s.env.deniedAt k = false) :
    srConstruct s = srDriveLow (srAcquired3 s) := by
  have afterData := (acquisition_stage (srConstruct_cases s)).2 (hfree .data) (hdenied 0 (by decide))
  have hdata : s.owner[s.cfg.pinData]? = some .free := hfree .data
  have hshclk : s.owner[s.cfg.pinShclk]? = some .free := hfree .shclk
  simp only [srPins, List.nodup_cons, List.mem_cons, List.not_mem_nil, or_false, not_or] at hpins
  obtain ⟨⟨hds, hdl⟩, hsl, -⟩ := hpins
  have afterShclk := (acquisition_stage afterData).2
    (free_after_taken (ps := [s.cfg.pinData]) (by decide) (by simpa using hdata)
      (by simpa using Ne.symm hds) hshclk) (hdenied 1 (by decide))
  exact (acquisition_stage afterShclk).2
    (free_after_taken (ps := [s.cfg.pinData, s.cfg.pinShclk]) (by decide) (by simp [hdata, hshclk])
      (by simp [Ne.symm hdl, Ne.symm hsl]) (hfree .latch)) (hdenied 2 (by decide))

/-- Settles O11: the lines are acquired, and the three writes that drive them low succeed. -/
theorem srInitCompletes : Obligations.SrInitCompletes := by
  unfold Obligations.SrInitCompletes
  intro s hphase hpins hfree hdenied hok
  have hrun : runActions lowActions (srAcquired3 s) = (true, writeAll lowActions (srAcquired3 s)) :=
    runActions_of_ok hok
  rw [exec_srInit_of_unconstructed hphase, srConstruct_of_free hpins hfree hdenied,
    srDriveLow_eq_finish, hrun, srFinish, if_pos rfl, low_write]
  simp [srReady, endWith, srAcquired3, srAcquired2, srAcquired1, srLineAcquired, freshChip, setSrLine,
    srPin, actionEvents, lowActions, Env.chipBits, Env.chipBitAt]

/-- Once its lines are acquired, `SR_INIT` does not end `ResourceUnavailable`. -/
theorem srDriveLow_status (s : State) : (srDriveLow s).status ≠ some .resourceUnavailable := by
  rw [srDriveLow_eq_finish, srFinish]
  split <;> simp [srReady]

/-- The construction that ends `ResourceUnavailable` is the one that was refused a pin. -/
theorem srConstruct_refused {s : State} (hidle : ∀ l, srLine s.sr l = Line.idle)
    (h : (srConstruct s).status = some .resourceUnavailable) : SrRefused s (srConstruct s) := by
  rcases srConstruct_of_idle hidle with refused | ⟨_, _, heq⟩
  · exact refused
  · exact absurd (heq ▸ h) (srDriveLow_status _)

/-- Its info is the pin of one of the three lines (60_exceptions R211). -/
theorem srConstruct_info {s : State} (h : (srConstruct s).status = some .resourceUnavailable) :
    ∃ l, (srConstruct s).info = some (srPin s.cfg l) := by
  rcases srConstruct_cases s with ⟨_, e⟩ | ⟨_, _, ⟨_, e⟩ | ⟨_, _, ⟨_, e⟩ | ⟨_, _, e⟩⟩⟩
  · exact ⟨.data, by rw [e]; rfl⟩
  · exact ⟨.shclk, by rw [e]; rfl⟩
  · exact ⟨.latch, by rw [e]; rfl⟩
  · exact absurd (e ▸ h) (srDriveLow_status _)

/-- A refused construction changes of the driver only its trace. -/
theorem SrRefused.sr_eq {s t : State} (h : SrRefused s t) : t.sr = { s.sr with trace := t.sr.trace } := by
  obtain ⟨_, hsr⟩ := h.sr
  rw [hsr]

/-- Settles O12: what was acquired has been released. -/
theorem srInitNoPartialConstruction : Obligations.SrInitNoPartialConstruction := by
  unfold Obligations.SrInitNoPartialConstruction
  intro s t hphase hidle hexec hstatus
  obtain rfl := Host.Outcome.next.inj ((exec_srInit_of_unconstructed hphase).symm.trans hexec)
  have refused := srConstruct_refused hidle hstatus
  have side := srConstruct_side s
  refine ⟨by rw [refused.sr_eq]; exact hphase, fun l => ?_, refused.owner, srConstruct_info hstatus,
    side.qd, refused.fault, side.result⟩
  rw [refused.sr_eq, srLine_trace]
  exact hidle l

/-- The refusal of the pin of `l`, the pins before it being acquired: the info is that pin, and the lines
before it are released in their order (40 R125, R126). -/
theorem srConstruct_of_refused {s : State} {l : SrLine}
    (hfree : ∀ m ∈ srBefore l, s.owner[srPin s.cfg m]? = some .free)
    (hpins : ((srBefore l).map (srPin s.cfg)).Nodup)
    (hdenied : ∀ k, k < (srBefore l).length → s.env.deniedAt k = false)
    (h : s.owner[srPin s.cfg l]? ≠ some .free ∨ (∃ m ∈ srBefore l, srPin s.cfg m = srPin s.cfg l) ∨
      s.env.deniedAt (srBefore l).length = true) :
    (srConstruct s).status = some .resourceUnavailable ∧
      (srConstruct s).info = some (srPin s.cfg l) ∧
      (srConstruct s).sr.trace = s.sr.trace ++ (srBefore l).map Event.released ∧
      (l = .data → (srConstruct s).chip = s.chip) := by
  have hfree' : ∀ p ∈ (srBefore l).map (srPin s.cfg), s.owner[p]? = some .free :=
    List.forall_mem_map.2 hfree
  rw [← List.mem_map] at h
  have hrefused := refused_after_taken (x := .sr) (by decide) hfree' h
  obtain ⟨atData, afterData⟩ := acquisition_stage (srConstruct_cases s)
  cases l with
  | data =>
    rw [atData hrefused]
    exact ⟨rfl, rfl, (List.append_nil _).symm, fun _ => rfl⟩
  | shclk =>
    have stage := afterData (hfree .data (by decide)) (hdenied 0 (by decide))
    rw [(acquisition_stage stage).1 hrefused]
    exact ⟨rfl, rfl, rfl, nofun⟩
  | latch =>
    have hne : s.cfg.pinShclk ∉ [s.cfg.pinData] := by
      simpa [srBefore, srPin, eq_comm] using hpins
    have stage := (acquisition_stage (afterData (hfree .data (by decide)) (hdenied 0 (by decide)))).2
      (free_after_taken (x := .sr) (by decide)
        (List.forall_mem_singleton.2 (hfree .data (by decide))) hne (hfree .shclk (by decide)))
      (hdenied 1 (by decide))
    rw [(acquisition_stage stage).1 hrefused]
    exact ⟨rfl, rfl, List.append_assoc .., nofun⟩

/-! ### The decoder -/

theorem exec_qdInit_of_unconstructed {s : State} (h : s.qd.phase = .unconstructed) :
    exec .qdInit s = .next (qdConstruct s) := by
  simp [exec, execQdInit, h]

/-- Once its lines are acquired, `QD_INIT` does not end `ResourceUnavailable`. -/
theorem qdRegister_status (s : State) : (qdRegister s).status ≠ some .resourceUnavailable := by
  unfold qdRegister
  split
  · simp
  · split <;> simp

/-- The construction that ends `ResourceUnavailable` is the one that was refused a pin. -/
theorem qdConstruct_refused {s : State} (hidle : ∀ l, qdLine s.qd l = .unconfigured)
    (h : (qdConstruct s).status = some .resourceUnavailable) : QdRefused s (qdConstruct s) := by
  rcases qdConstruct_of_idle hidle with refused | ⟨_, _, heq⟩
  · exact refused
  · exact absurd (heq ▸ h) (qdRegister_status _)

/-- The refusal of the pin of `l`, the pins before it being acquired (41 R165, R167). -/
theorem qdConstruct_of_refused {s : State} {l : QdLine}
    (hfree : ∀ m ∈ qdBefore l, s.owner[qdPin s.cfg m]? = some .free)
    (hpins : ((qdBefore l).map (qdPin s.cfg)).Nodup)
    (hdenied : ∀ k, k < (qdBefore l).length → s.env.deniedAt k = false)
    (h : s.owner[qdPin s.cfg l]? ≠ some .free ∨ (∃ m ∈ qdBefore l, qdPin s.cfg m = qdPin s.cfg l) ∨
      s.env.deniedAt (qdBefore l).length = true) :
    (qdConstruct s).status = some .resourceUnavailable ∧
      (qdConstruct s).info = some (qdPin s.cfg l) := by
  have hfree' : ∀ p ∈ (qdBefore l).map (qdPin s.cfg), s.owner[p]? = some .free :=
    List.forall_mem_map.2 hfree
  rw [← List.mem_map] at h
  have hrefused := refused_after_taken (x := .qd) (by decide) hfree' h
  obtain ⟨atA, afterA⟩ := acquisition_stage (qdConstruct_cases s)
  cases l with
  | a =>
    rw [atA hrefused]
    exact ⟨rfl, rfl⟩
  | b =>
    have stage := afterA (hfree .a (by decide)) (hdenied 0 (by decide))
    rw [(acquisition_stage stage).1 hrefused]
    exact ⟨rfl, rfl⟩
  | sw =>
    have hne : s.cfg.pinB ∉ [s.cfg.pinA] := by
      simpa [qdBefore, qdPin, eq_comm] using hpins
    have stage := (acquisition_stage (afterA (hfree .a (by decide)) (hdenied 0 (by decide)))).2
      (free_after_taken (x := .qd) (by decide)
        (List.forall_mem_singleton.2 (hfree .a (by decide))) hne (hfree .b (by decide)))
      (hdenied 1 (by decide))
    rw [(acquisition_stage stage).1 hrefused]
    exact ⟨rfl, rfl⟩

/-! ### Both constructions -/

/-- Settles O13: the stage of the refusal is the one the premises name, and from idle lines what was acquired
is given back. -/
theorem constructionFailsAtFirstRefusedPin : Obligations.ConstructionFailsAtFirstRefusedPin := by
  unfold Obligations.ConstructionFailsAtFirstRefusedPin
  constructor
  · intro s l hphase hidle hfree hpins hdenied h
    obtain ⟨hstatus, hinfo, htrace, hchip⟩ := srConstruct_of_refused hfree hpins hdenied h
    have refused := srConstruct_refused hidle hstatus
    have side := srConstruct_side s
    exact ⟨_, exec_srInit_of_unconstructed hphase, hstatus, hinfo, htrace ▸ refused.sr_eq, refused.owner,
      side.qd, refused.fault, side.result, side.cfg, side.host, hchip⟩
  · intro s l hphase hidle hfree hpins hdenied h
    obtain ⟨hstatus, hinfo⟩ := qdConstruct_of_refused hfree hpins hdenied h
    have refused := qdConstruct_refused hidle hstatus
    have side := qdConstruct_side s
    exact ⟨_, exec_qdInit_of_unconstructed hphase, hstatus, hinfo, refused.qd, refused.owner, side.sr,
      side.chip, refused.fault, refused.result, side.cfg, side.host⟩

end Sys2Proof.Machine
end

section
/-! PROOFS. `SR_INIT`, `SR_SERIALIZE` and `SR_LATCH` at their first failed write
(40_shift_register_driver R123; 60_exceptions R213; 10_state R26). -/

namespace Sys2Proof.Machine

open Sys2Proof.Config

/-! ### A run of actions that is stopped -/

/-- Writes that succeed leave a line they do not touch. -/
theorem srLine_writeAll {as : List Action} {l : SrLine} (h : ∀ v, .set l v ∉ as) (s : State) :
    srLine (writeAll as s).sr l = srLine s.sr l := by
  induction as generalizing s with
  | nil => rfl
  | cons a as ih =>
    have hrest : ∀ v, .set l v ∉ as := fun v hv => h v (List.mem_cons_of_mem a hv)
    cases a with
    | delay => exact ih hrest s
    | set m v =>
      have hl : l ≠ m := by
        rintro rfl
        exact h v List.mem_cons_self
      rw [writeAll, ih hrest, writeLevel_sr, srLine_trace, setSrLevel, srLine_setSrLine_ne hl, takeFails_sr]

/-- What a run of the actions `as` from `s` has come to in `u`, stopped by write `n`, the first to fail. -/
structure StoppedAt (n : Nat) (as : List Action) (s u : State) : Prop where
  frame : SrFrame (n + 1) s u
  fault : u.fault = true
  lost : u.writeLost = true
  trace : u.sr.trace = s.sr.trace ++ (actionEvents as).take n
  chip : u.chip = ⟨s.env.chipBits 0 (8 * s.cfg.chainDepth),
    s.env.chipBits (8 * s.cfg.chainDepth) (8 * s.cfg.chainDepth)⟩
  level : ∀ l v, (actionEvents as)[n]? = some (.level l v) →
    (srLine u.sr l).level = some (s.env.levelAt 0)
  untouched : ∀ l, (∀ v, .set l v ∉ as) → srLine u.sr l = srLine s.sr l

/-- A run whose write `n` is the first to fail stops there (40 R123; 60_exceptions R213). -/
theorem runActions_stoppedAt {as : List Action} {s : State} {n : Nat} (hn : n < writeCount as)
    (hok : noLineFailure n s) (hlost : s.env.failsAt n = true) :
    (runActions as s).1 = false ∧ StoppedAt n as s (runActions as s).2 := by
  obtain ⟨pre, post, l, v, rfl, rfl, hrun⟩ := runActions_of_lost hn hok hlost
  obtain ⟨hlevel, hbits⟩ := writeAll_draws pre s
  have frame := writeAll_frame pre s
  rw [hrun]
  refine ⟨rfl, ⟨frame.trans (loseLevel_frame l _), rfl, rfl, ?trace, ?chip, ?level, ?untouched⟩⟩
  case trace => rw [loseLevel_sr, setSrLevel_trace, takeFails_sr, writeAll_trace, actionEvents_take]
  case chip =>
    simp only [loseLevel_chip, takeFails_env, takeFails_cfg, frame.cfg, Env.chipBits, Env.chipBitAt, hbits]
  case level =>
    intro m w hevent
    rw [actionEvents_append, ← writeCount_events, List.getElem?_append_right (Nat.le_refl _),
      Nat.sub_self] at hevent
    obtain ⟨rfl, -⟩ := Event.level.inj (Option.some.inj hevent)
    simp [srLine_setSrLevel_level, Env.levelAt, hlevel]
  case untouched =>
    intro m hm
    have hpre : ∀ w, .set m w ∉ pre := fun w hw => hm w (List.mem_append_left _ hw)
    have hne : m ≠ l := by
      rintro rfl
      exact hm v (List.mem_append_right _ List.mem_cons_self)
    rw [loseLevel_sr, setSrLevel, srLine_setSrLine_ne hne, takeFails_sr, srLine_writeAll hpre]

/-- A run of actions goes on past a write that succeeds. -/
theorem runActions_set_of_ok {l : SrLine} {v : Bool} {as : List Action} {s : State}
    (h : s.env.failsAt 0 = false) :
    runActions (.set l v :: as) s = runActions as (writeLevel l v (takeFails s)) := by
  simp [runActions, setLevel_of_ok h]

/-- A run of actions ends at a write that fails. -/
theorem runActions_set_of_lost {l : SrLine} {v : Bool} {as : List Action} {s : State}
    (h : s.env.failsAt 0 = true) :
    runActions (.set l v :: as) s = (false, loseLevel l (takeFails s)) := by
  simp [runActions, setLevel_of_lost h]

/-- The end of a command that was stopped keeps the lines as they are. -/
theorem srLine_srLost (s : State) (l : SrLine) : srLine (srLost s).sr l = srLine s.sr l :=
  srLine_phase ..

theorem endSr_of_lost {r : Bool × State} (h : r.1 = false) : endSr r = srLost r.2 := by
  simp [endSr, h]

/-- In `READY` with its lines driven, `SR_SERIALIZE` runs its actions. -/
theorem exec_srSerialize_of_ready {s : State} (b : Byte) (hready : s.sr.phase = .ready)
    (hdriven : srLinesDriven s.sr = true) :
    exec (.srSerialize b) s = .next (endSr (runActions (serializeActions s.cfg.bitOrder b) s)) := by
  simp [exec, execSrSerialize, hready, hdriven]

/-- So does `SR_LATCH`. -/
theorem exec_srLatch_of_ready {s : State} (hready : s.sr.phase = .ready)
    (hdriven : srLinesDriven s.sr = true) :
    exec .srLatch s = .next (endSr (runActions (pulse .latch) s)) := by
  simp [exec, execSrLatch, hready, hdriven]

/-! ### The write that fails -/

/-- The pairs of a serialize write the data line, then the shift clock twice. -/
theorem bitPairs_event (vs : List Bool) {n : Nat} (h : n < 3 * vs.length) :
    ∃ v, (actionEvents (vs.flatMap bitPair))[n]? =
      some (.level (if n % 3 = 0 then .data else .shclk) v) := by
  induction vs generalizing n with
  | nil => simp at h
  | cons v vs ih =>
    have hevents : actionEvents ((v :: vs).flatMap bitPair) =
        .level .data v :: .level .shclk true :: .level .shclk false ::
          actionEvents (vs.flatMap bitPair) := by
      rw [List.flatMap_cons, actionEvents_append]
      rfl
    rw [hevents]
    match n with
    | 0 => exact ⟨v, rfl⟩
    | 1 => exact ⟨true, rfl⟩
    | 2 => exact ⟨false, rfl⟩
    | n + 3 =>
      rw [Nat.add_mod_right]
      exact ih (by simp only [List.length_cons] at h; omega)

/-- The line that write `n` of a serialize goes to. -/
theorem serialize_event (order : BitOrder) (b : Byte) {n : Nat} (h : n < 24) :
    ∃ v, (actionEvents (serializeActions order b))[n]? =
      some (.level (if n % 3 = 0 then .data else .shclk) v) := by
  rw [serializeActions_eq]
  exact bitPairs_event _ (by simpa [sentBits] using h)

/-- Both writes of a latch go to the latch line. -/
theorem latch_event {n : Nat} (h : n < 2) :
    ∃ v, (actionEvents (pulse .latch))[n]? = some (.level .latch v) := by
  match n, h with
  | 0, _ => exact ⟨true, rfl⟩
  | 1, _ => exact ⟨false, rfl⟩

/-! ### `SR_INIT` -/

/-- The draws of chip bits from a place further on. -/
theorem chipBits_of_dropped {e e' : Env} {n : Nat} (h : e'.chipBit = e.chipBit.drop n) (k m : Nat) :
    e'.chipBits k m = e.chipBits (n + k) m := by
  simp [Env.chipBits, Env.chipBitAt, h, Nat.add_assoc]

/-- The levels of the three lines, in the order in which they are acquired and driven. -/
def srLevels (sr : Sr) : List (Option Bool) := [sr.data.level, sr.shclk.level, sr.latch.level]

/-- The levels where driving the lines low stops: low before the failure, drawn at it, unchanged after it. -/
theorem runActions_low_levels {s : State} {n : Nat} (hn : n < 3) (hok : noLineFailure n s)
    (hlost : s.env.failsAt n = true) :
    srLevels (runActions lowActions s).2.sr =
      List.replicate n (some false) ++ some (s.env.levelAt 0) :: (srLevels s.sr).drop (n + 1) := by
  match n, hn with
  | 0, _ =>
    rw [lowActions, runActions_set_of_lost hlost]
    rfl
  | 1, _ =>
    have hdata := writeLevel_frame .data false s
    rw [lowActions, runActions_set_of_ok (hok 0 (by decide)),
      runActions_set_of_lost (by rwa [hdata.failsAt])]
    rfl
  | 2, _ =>
    have hdata := writeLevel_frame .data false s
    have hshclk := writeLevel_frame .shclk false (writeLevel .data false (takeFails s))
    rw [lowActions, runActions_set_of_ok (hok 0 (by decide)),
      runActions_set_of_ok (by rw [hdata.failsAt]; exact hok 1 (by decide)),
      runActions_set_of_lost (by rwa [hshclk.failsAt, hdata.failsAt])]
    rfl

/-- The levels of the lines just acquired, and the next one to be drawn (92 D14). -/
theorem srAcquired3_levels (s : State) :
    srLevels (srAcquired3 s).sr =
        [some (s.env.levelAt 0), some (s.env.levelAt 1), some (s.env.levelAt 2)] ∧
      (srAcquired3 s).env.levelAt 0 = s.env.levelAt 3 := by
  simp [srLevels, srAcquired3, srAcquired2, srAcquired1, srLineAcquired, setSrLine, Env.levelAt]

/-! ### The three commands -/

/-- Settles O18: the run of each command's actions is stopped by the write, and the command ends there. -/
theorem srCommandsStopAtFailedWrite : Obligations.SrCommandsStopAtFailedWrite := by
  unfold Obligations.SrCommandsStopAtFailedWrite
  intro s n hok hlost
  refine ⟨fun hn hphase hpins hfree hdenied => ?init, fun hn hrest b => ?serialize,
    fun hn hrest => ?latch⟩
  case init =>
    obtain ⟨hstop, stopped⟩ := runActions_stoppedAt (as := lowActions) (s := srAcquired3 s) hn hok hlost
    have hexec : exec .srInit s = .next (srLost (runActions lowActions (srAcquired3 s)).2) := by
      rw [exec_srInit_of_unconstructed hphase, srConstruct_of_free hpins hfree hdenied,
        srDriveLow_eq_finish, srFinish, hstop, if_neg Bool.false_ne_true]
    have hbits : (srAcquired3 s).env.chipBit = s.env.chipBit.drop (16 * s.cfg.chainDepth) := rfl
    have hcfg : (srAcquired3 s).cfg = s.cfg := rfl
    have frame := stopped.frame
    refine ⟨_, hexec, rfl, stopped.fault, stopped.lost, rfl, stopped.trace, ?_, fun l => ?_, ?_,
      frame.owner, frame.qd, frame.result, frame.cfg, frame.host, by rw [srLost_env, frame.env]; rfl⟩
    · rw [srLost_chip, stopped.chip, chipBits_of_dropped hbits, chipBits_of_dropped hbits, Nat.add_zero,
        hcfg, ← Nat.add_mul]
    · rw [srLine_srLost, frame.mode]
      cases l <;> rfl
    · obtain ⟨hacquired, hnext⟩ := srAcquired3_levels s
      refine (runActions_low_levels (s := srAcquired3 s) hn hok hlost).trans ?_
      rw [hacquired, hnext]
      match n, hn with
      | 0, _ | 1, _ | 2, _ => rfl
  case serialize =>
    obtain ⟨hready, hdriven, -, -⟩ := hrest
    have hexec := exec_srSerialize_of_ready b hready hdriven
    obtain ⟨hstop, stopped⟩ := runActions_stoppedAt
      ((writeCount_serializeActions s.cfg.bitOrder b).symm ▸ hn) hok hlost
    rw [endSr_of_lost hstop] at hexec
    have frame := stopped.frame
    obtain ⟨v, hevent⟩ := serialize_event s.cfg.bitOrder b hn
    refine ⟨_, hexec, rfl, stopped.fault, stopped.lost, rfl, stopped.trace, stopped.chip, fun l => ?_, ?_,
      stopped.untouched .latch (serializeActions_no_latch _ b), frame.owner, frame.qd, frame.result,
      frame.cfg, frame.host, by rw [srLost_env, frame.env]⟩
    · rw [srLine_srLost, frame.mode]
      exact ((srLinesDriven_iff s.sr).1 hdriven l).1
    · rw [srLine_srLost]
      exact stopped.level _ v hevent
  case latch =>
    obtain ⟨hready, hdriven, -, -⟩ := hrest
    have hexec := exec_srLatch_of_ready hready hdriven
    obtain ⟨hstop, stopped⟩ := runActions_stoppedAt (as := pulse .latch) hn hok hlost
    rw [endSr_of_lost hstop] at hexec
    have frame := stopped.frame
    obtain ⟨v, hevent⟩ := latch_event hn
    refine ⟨_, hexec, rfl, stopped.fault, stopped.lost, ?_, stopped.chip, frame.owner, frame.qd,
      frame.result, frame.cfg, frame.host, by rw [srLost_env, frame.env]⟩
    have hlatch : (runActions (pulse .latch) s).2.sr.latch = ⟨.output, some (s.env.levelAt 0)⟩ :=
      Line.ext ((frame.mode .latch).trans ((srLinesDriven_iff s.sr).1 hdriven .latch).1)
        (stopped.level .latch v hevent)
    exact Sr.ext rfl (stopped.untouched .data (by simp [pulse])) (stopped.untouched .shclk (by simp [pulse]))
      hlatch stopped.trace

end Sys2Proof.Machine
end

section
/-! PROOFS. The count accesses `QD_READ_COUNT` and `QD_RESET`, and the steps of the other agents
(41_quadrature_decoder R177, R178, R185, R186, R189, R195; 20_memory R75, R76). -/

namespace Sys2Proof.Machine

open Sys2Proof.Config

/-! ### The other agents -/

/-- The pending edges after the switch's step (41 R185). -/
theorem switchEdge_pending (v coalesced : Bool) (s : State) :
    (switchEdge v coalesced s).qd.pending =
      if s.qd.registered = true ∧ s.env.sw = true ∧ v = false ∧
          ¬ (coalesced = true ∧ 0 < s.qd.pending) then s.qd.pending + 1
      else s.qd.pending := by
  have counted : (s.qd.registered && s.env.sw && !v && !(coalesced && decide (0 < s.qd.pending))) =
      decide (s.qd.registered = true ∧ s.env.sw = true ∧ v = false ∧
        ¬ (coalesced = true ∧ 0 < s.qd.pending)) := by
    simp only [Bool.decide_and, decide_not, Bool.decide_eq_true, Bool.decide_eq_false, Bool.and_assoc]
  simp only [switchEdge, counted, decide_eq_true_eq]

/-- Settles O48: the switch's step writes its level, and the pending edges as `switchEdge_pending` says. -/
theorem switchEdgeCountsFallingEdges : Obligations.SwitchEdgeCountsFallingEdges := by
  unfold Obligations.SwitchEdgeCountsFallingEdges
  intro s v coalesced
  rw [← switchEdge_pending]
  rfl

/-! ### The two count accesses -/

/-- Once constructed, `QD_RESET` is one store of 0 (41 R178). -/
theorem exec_qdReset_of_constructed {s : State} (h : s.qd.phase ≠ .unconstructed) :
    exec .qdReset s = .next (endWith .ok (countAccess (countStore 0) s)) := by
  simp [exec, execQdReset, h]

/-- Once constructed, `QD_READ_COUNT` is one load of the count (41 R177). -/
theorem exec_qdReadCount_of_constructed {s : State} {c : Int} (h : s.qd.phase ≠ .unconstructed)
    (hc : s.qd.count = some c) :
    exec .qdReadCount s = .next (endWith .ok (countAccess countLoad s)) := by
  simp [exec, execQdReadCount, h, hc]

/-- Settles O44: the store of a quiet access. -/
theorem qdResetCompletes : Obligations.QdResetCompletes := by
  unfold Obligations.QdResetCompletes
  intro s hp hquiet
  rw [exec_qdReset_of_constructed hp, countAccess_of_quiet (access := countStore 0) hquiet fun _ => rfl]
  rfl

/-- Settles O45: both cases of `RESET_EDGE`, and a store of 0 that no delivery can change. -/
theorem resetZeroesCountOnly : Obligations.ResetZeroesCountOnly := by
  unfold Obligations.ResetZeroesCountOnly
  intro s
  refine ⟨fun hreg hpend => ?enabled, fun hnot => ?disabled, fun hp => ?reset⟩
  case enabled => exact asyncStep_resetEdge_of_enabled ((resetEnabled_iff s).2 ⟨hreg, hpend⟩)
  case disabled =>
    rw [← resetEnabled_iff, Bool.not_eq_true] at hnot
    exact asyncStep_resetEdge_of_disabled hnot
  case reset =>
    obtain ⟨frame, -⟩ := countStore_access_frame 0 s
    refine ⟨_, exec_qdReset_of_constructed hp, countStore_zero_count s, ?_⟩
    rw [endWith_qd, frame.qd]

/-- Settles O43: the load of a quiet access, and a delivery at either of the two points of one. -/
theorem qdReadCountCompletes : Obligations.QdReadCountCompletes := by
  unfold Obligations.QdReadCountCompletes
  intro s c hp hc
  rw [exec_qdReadCount_of_constructed hp hc]
  refine ⟨fun hquiet => ?quiet, fun hreg hpend h0 h1 => ?before, fun hreg hpend h0 h1 => ?after⟩
  case quiet =>
    rw [countAccess_of_quiet (access := countLoad) hquiet fun _ => rfl, ← hc]
    rfl
  case before =>
    rw [countAccess_of_delivery_before (access := countLoad) h0 h1
      ((resetEnabled_iff s).2 ⟨hreg, hpend⟩) fun _ => rfl]
    simp [pointPassed, countLoad, resetEdge, countStore, endWith]
  case after =>
    rw [countAccess_of_delivery_after (access := countLoad) h0 h1
      ((resetEnabled_iff (countLoad (pointPassed s))).2 ⟨hreg, hpend⟩) fun _ => rfl]
    simp [pointPassed, countLoad, resetEdge, countStore, endWith, hc]

end Sys2Proof.Machine
end

section
/-! PROOFS. `QD_POLL`: its samples, its failed reads, and four polls in sequence (41_quadrature_decoder R170,
R171, R174, R175, R191, R192). -/

namespace Sys2Proof.Machine

open Sys2Proof.Config

/-! ### One poll -/

/-- The count after a poll that sampled `currA` and `currB`, the count before being `c` (41 R170). -/
def polledCount (w : Nat) (a currA currB : Bool) (c : Int) : Int :=
  if currA = a then c else wrapW w (c + pollDelta currA currB)

theorem polledCount_of_moved {a currA : Bool} (w : Nat) (currB : Bool) (c : Int) (h : currA ≠ a) :
    polledCount w a currA currB c = wrapW w (c + pollDelta currA currB) := if_neg h

/-- A quiet poll that sampled `currA` and `currB`, the previous sample being `a` (41 R170, R173). -/
theorem pollSamples_of_quiet {s : State} {a : Bool} {c : Int} (currA currB : Bool)
    (hlast : s.qd.lastA = some a) (hc : s.qd.count = some c) (hquiet : quietInside 2 s) :
    pollSamples currA currB s =
      { s with
        qd :=
          { s.qd with
            count := some (polledCount s.cfg.countWidth a currA currB c)
            lastA := some currA }
        status := some .ok
        info := none
        env := { s.env with inside := if currA = a then s.env.inside else s.env.inside.drop 2 } } := by
  by_cases hmoved : currA = a
  · subst hmoved
    simp [pollSamples, polledCount, hlast, endWith, ← hc]
  · have hne : s.qd.lastA ≠ some currA := by simpa [hlast] using Ne.symm hmoved
    have hadd := countAccess_of_quiet (access := countAdd (pollDelta currA currB)) hquiet fun _ => rfl
    simp [pollSamples, hne, hadd, hc, endWith, polledCount, hmoved]

/-- The state after a poll of a live decoder with no failed read and no other agent's step (41 R170). -/
def livePolled (a : Bool) (c : Int) (s : State) : State :=
  { s with
    qd :=
      { s.qd with
        count := some (polledCount s.cfg.countWidth a (s.env.inputAt 0) (s.env.inputAt 1) c)
        lastA := some (s.env.inputAt 0) }
    status := some .ok
    info := none
    env :=
      { s.env with
        fails := s.env.fails.drop 2
        input := s.env.input.drop 2
        inside := if s.env.inputAt 0 = a then s.env.inside else s.env.inside.drop 2 } }

theorem exec_qdPoll_of_quiet {s : State} {a : Bool} {c : Int} (hlive : qdLiveAt a c s)
    (hok : noLineFailure 2 s) (hquiet : quietInside 2 s) :
    exec .qdPoll s = .next (livePolled a c s) := by
  have hexec := exec_qdPoll_of_live hlive hok
  obtain ⟨_, _, hlast, hc⟩ := hlive
  rw [hexec, pollSamples_of_quiet (s := samplesRead s) _ _ hlast hc hquiet]
  rfl

/-- Settles O37. -/
theorem qdPollCompletes : Obligations.QdPollCompletes := by
  unfold Obligations.QdPollCompletes
  intro s a c hlive hok hquiet
  rw [exec_qdPoll_of_quiet hlive hok hquiet, ← apply_ite some]
  rfl

/-! ### The direction table -/

/-- Without a transition of A the table has no change. -/
theorem directionTable_of_still (a currB : Bool) : directionTable a a currB = 0 := by
  cases a <;> cases currB <;> rfl

/-- With one it has the poll's own. -/
theorem directionTable_of_moved {a currA : Bool} (currB : Bool) (h : currA ≠ a) :
    directionTable a currA currB = pollDelta currA currB := by
  obtain rfl : currA = !a := Bool.eq_not_of_ne h
  cases a <;> cases currB <;> rfl

/-- The rule of the samples and the table say the same of a count in range (41 R170, R171). -/
theorem polledCount_eq_table {w : Nat} {c : Int} (hw : 1 ≤ w) (hc : inRangeW w c)
    (a currA currB : Bool) :
    polledCount w a currA currB c = wrapW w (c + directionTable a currA currB) := by
  by_cases h : currA = a
  · subst h
    rw [directionTable_of_still, Int.add_zero, wrapW_of_inRange hw hc, polledCount, if_pos rfl]
  · rw [directionTable_of_moved currB h, polledCount_of_moved w currB c h]

/-- Settles O38: the count of `livePolled` is the table's. -/
theorem qdPollFollowsDirectionTable : Obligations.QdPollFollowsDirectionTable := by
  unfold Obligations.QdPollFollowsDirectionTable
  intro s a c hlive hw hrange hok hquiet
  refine ⟨_, exec_qdPoll_of_quiet hlive hok hquiet, ?_⟩
  rw [← polledCount_eq_table (Nat.le_of_succ_le hw) hrange]
  rfl

/-- Settles O39: the add wraps, here at both ends of the 32-bit range. -/
theorem qdPollWraps : Obligations.QdPollWraps := by
  unfold Obligations.QdPollWraps
  intro s a c hlive hok hquiet hmoved
  have hcount : (livePolled a c s).qd.count =
      some (wrapW s.cfg.countWidth (c + pollDelta (s.env.inputAt 0) (s.env.inputAt 1))) :=
    congrArg some (polledCount_of_moved _ _ c hmoved)
  refine ⟨_, exec_qdPoll_of_quiet hlive hok hquiet, ?_, fun hw hc hB => ?_, fun hw hc hB => ?_⟩
  · rw [directionTable_of_moved _ hmoved, hcount]
  · rw [hcount, hw, hc, pollDelta, if_pos hB]
    decide
  · rw [hcount, hw, hc, pollDelta, if_neg (not_not_intro hB)]
    decide

/-! ### A read that fails -/

/-- A poll of a live decoder goes on to its reads (41 R170). -/
theorem exec_qdPoll_of_liveAt {s : State} {a : Bool} {c : Int} (h : qdLiveAt a c s) :
    exec .qdPoll s = .next (pollStep s) := by
  obtain ⟨hphase, hlines, hlast, hcount⟩ := h
  simp [exec, execQdPoll, hphase, hlines, hlast, hcount]

/-- Settles O40: the reads of A and of B are the two places at which `pollStep` can lose a line. -/
theorem qdPollFailedRead : Obligations.QdPollFailedRead := by
  unfold Obligations.QdPollFailedRead
  intro s a c hlive
  refine ⟨fun h0 => ⟨_, exec_qdPoll_of_liveAt hlive, ?readA⟩,
    fun h0 h1 => ⟨_, exec_qdPoll_of_liveAt hlive, ?readB⟩⟩
  case readA =>
    obtain ⟨-, heq⟩ := (pollStep_cases s).resolve_right (by simp [h0])
    rw [heq]
    rfl
  case readB =>
    obtain ⟨-, -, heq⟩ :=
      ((pollStep_cases s).resolve_left (by simp [h0])).resolve_right (by simp [h1])
    rw [heq]
    rfl

/-! ### Polls in sequence -/

/-- A live decoder whose next `n` polls meet no failed read and no other agent's step. -/
structure QuietPolls (n : Nat) (a : Bool) (c : Int) (s : State) : Prop where
  live : qdLiveAt a c s
  reads : noLineFailure (2 * n) s
  inside : quietInside (2 * n) s

/-- One poll of such a decoder leaves the others. -/
theorem QuietPolls.poll {n : Nat} {a : Bool} {c : Int} {s : State} (h : QuietPolls (n + 1) a c s) :
    exec .qdPoll s = .next (livePolled a c s) ∧
      QuietPolls n (s.env.inputAt 0)
        (polledCount s.cfg.countWidth a (s.env.inputAt 0) (s.env.inputAt 1) c) (livePolled a c s) := by
  obtain ⟨⟨hphase, hlines, hlast, hc⟩, hreads, hinside⟩ := h
  refine ⟨exec_qdPoll_of_quiet ⟨hphase, hlines, hlast, hc⟩ (fun k hk => hreads k (by omega))
    (fun k hk => hinside k (by omega)), ⟨hphase, hlines, rfl, rfl⟩, fun k hk => ?_, fun k hk => ?_⟩
  · have taken : (livePolled a c s).env.failsAt k = s.env.failsAt (2 + k) := Tape.nth_drop ..
    rw [taken]
    exact hreads _ (by omega)
  · have passed : (livePolled a c s).env.insideAt k =
        s.env.insideAt (if s.env.inputAt 0 = a then k else 2 + k) := by
      simp only [livePolled, Env.insideAt]
      split
      · rfl
      · exact Tape.nth_drop ..
    rw [passed]
    split
    · exact hinside _ (by omega)
    · exact hinside _ (by omega)

/-- The samples of the polls after the first one. -/
@[simp] theorem livePolled_inputAt (a : Bool) (c : Int) (s : State) (k : Nat) :
    (livePolled a c s).env.inputAt k = s.env.inputAt (2 + k) := Tape.nth_drop ..

@[simp] theorem livePolled_cfg (a : Bool) (c : Int) (s : State) : (livePolled a c s).cfg = s.cfg := rfl

@[simp] theorem livePolled_count (a : Bool) (c : Int) (s : State) :
    (livePolled a c s).qd.count =
      some (polledCount s.cfg.countWidth a (s.env.inputAt 0) (s.env.inputAt 1) c) := rfl

/-- Settles O42: each poll by `QuietPolls.poll`, and two unit steps wrap as their sum. -/
theorem quadratureCycleMovesCountByTwo : Obligations.QuadratureCycleMovesCountByTwo := by
  unfold Obligations.QuadratureCycleMovesCountByTwo
  intro s c hlive _ _ hreads hinside
  have polls : QuietPolls 4 false c s := ⟨hlive, hreads, hinside⟩
  obtain ⟨hexec1, polls⟩ := polls.poll
  obtain ⟨hexec2, polls⟩ := polls.poll
  obtain ⟨hexec3, polls⟩ := polls.poll
  obtain ⟨hexec4, -⟩ := polls.poll
  refine ⟨_, _, _, _, hexec1, hexec2, hexec3, hexec4, fun hin => ?clockwise, fun hin => ?mirrored⟩
  all_goals
    simp only [List.range_succ, List.range_zero, List.nil_append, List.cons_append, List.map_cons,
      List.map_nil, List.cons.injEq, and_true] at hin
    obtain ⟨a1, b1, a2, b2, a3, b3, a4, b4⟩ := hin
  case clockwise =>
    simp [polledCount, pollDelta, wrapW_add_wrapW, a1, b1, a2, a3, b3, a4, Int.add_assoc]
  case mirrored =>
    simp [polledCount, pollDelta, wrapW_add_wrapW, a1, a2, b2, a3, a4, b4, Int.add_assoc, Int.sub_eq_add_neg]

end Sys2Proof.Machine
end

section
/-! PROOFS. `QD_INIT` and `QD_RELEASE` (41_quadrature_decoder R165 to R168, R179, R180): the pins acquired, the
registration and the first read, and what is given back. -/

namespace Sys2Proof.Machine

open Sys2Proof.Config

/-! ### Up to the registration -/

/-- The holder of the three lines' pins, pin by pin. -/
theorem qdPins_holder {c : Settings} {os : List Owner} {x : Owner}
    (h : ∀ l, os[qdPin c l]? = some x) : ∀ p ∈ qdPins c, os[p]? = some x := by
  intro p hp
  obtain ⟨l, rfl⟩ := mem_qdPins.1 hp
  exact h l

/-- With three distinct free pins and no denial the decoder acquires its lines (41 R165). -/
theorem qdConstruct_of_free {s : State} (hpins : (qdPins s.cfg).Nodup)
    (hfree : ∀ l, s.owner[qdPin s.cfg l]? = some .free)
    (hdenied : ∀ k, k < 3 → s.env.deniedAt k = false) :
    qdConstruct s = qdRegister (qdCleared (qdAcquired3 s)) := by
  have afterA := (acquisition_stage (qdConstruct_cases s)).2 (hfree .a) (hdenied 0 (by decide))
  have hA : s.owner[s.cfg.pinA]? = some .free := hfree .a
  have hB : s.owner[s.cfg.pinB]? = some .free := hfree .b
  simp only [qdPins, List.nodup_cons, List.mem_cons, List.not_mem_nil, or_false, not_or] at hpins
  obtain ⟨⟨hab, hasw⟩, hbsw, -⟩ := hpins
  have afterB := (acquisition_stage afterA).2
    (free_after_taken (ps := [s.cfg.pinA]) (by decide) (by simpa using hA)
      (by simpa using Ne.symm hab) hB) (hdenied 1 (by decide))
  exact (acquisition_stage afterB).2
    (free_after_taken (ps := [s.cfg.pinA, s.cfg.pinB]) (by decide) (by simp [hA, hB])
      (by simp [Ne.symm hasw, Ne.symm hbsw]) (hfree .sw)) (hdenied 2 (by decide))

/-- What stands just before the registration of a `QD_INIT` that took its pins, whatever other agents did
around its count access (41 R165). -/
structure QdUnregistered (s u : State) : Prop where
  cfg : u.cfg = s.cfg
  qd : u.qd =
    { s.qd with
      a := qdMode s.cfg .a
      b := qdMode s.cfg .b
      sw := qdMode s.cfg .sw
      count := some 0
      pending := 0 }
  owner : u.owner = setPins (qdPins s.cfg) .qd s.owner
  result : u.result = s.result
  fault : u.fault = s.fault
  rejected : u.env.rejectedAt 0 = s.env.rejectedAt 0
  fails : u.env.failsAt 0 = s.env.failsAt 0

theorem qdUnregistered (s : State) : QdUnregistered s (qdCleared (qdAcquired3 s)) := by
  obtain ⟨hqd, hcfg, howner, hresult, hfault⟩ := qdCleared_spec (qdAcquired3 s)
  have henv := (countStore_access_frame 0 (qdAcquired3 s)).1.env
  refine ⟨hcfg, hqd, howner, hresult, hfault, ?_, ?_⟩
  · show (countAccess (countStore 0) (qdAcquired3 s)).env.rejectedAt 0 = _
    rw [henv]
    rfl
  · show (countAccess (countStore 0) (qdAcquired3 s)).env.failsAt 0 = _
    rw [henv]
    rfl

theorem QdUnregistered.lines {s u : State} (h : QdUnregistered s u) (l : QdLine) :
    qdLine u.qd l = qdMode s.cfg l := by
  rw [h.qd]
  cases l <;> rfl

theorem QdUnregistered.held {s u : State} (h : QdUnregistered s u) (l : QdLine) :
    qdLine u.qd l ≠ .unconfigured :=
  h.lines l ▸ qdMode_ne_unconfigured s.cfg l

/-- Other agents' steps leave the decoder's lines. -/
theorem AsyncFrame.qdLine_eq {s t : State} (h : AsyncFrame s t) (l : QdLine) :
    qdLine t.qd l = qdLine s.qd l := by
  rw [h.qd]
  cases l <;> rfl

/-- They leave a count that is 0. -/
theorem AsyncFrame.count_zero {s t : State} (h : AsyncFrame s t) (hc : s.qd.count = some 0) :
    t.qd.count = some 0 := by
  rcases h.count with same | ⟨zero, _⟩
  · exact same.trans hc
  · exact zero

/-- The same point where no other agent steps: the count is stored and nothing is pending. -/
theorem qdCleared_of_quiet {s : State} (h : quietInside 2 s) :
    qdCleared s =
      { s with
        qd := { s.qd with count := some 0, pending := 0 }
        env := { s.env with inside := s.env.inside.drop 2 } } := by
  rw [qdCleared, countAccess_of_quiet (access := countStore 0) h fun _ => rfl]
  rfl

/-! ### The four ends of `QD_INIT` -/

/-- Its info is the pin of one of the three lines (60_exceptions R211). -/
theorem qdConstruct_info {s : State} (h : (qdConstruct s).status = some .resourceUnavailable) :
    ∃ l, (qdConstruct s).info = some (qdPin s.cfg l) := by
  rcases qdConstruct_cases s with ⟨_, e⟩ | ⟨_, _, ⟨_, e⟩ | ⟨_, _, ⟨_, e⟩ | ⟨_, _, e⟩⟩⟩
  · exact ⟨.a, by rw [e]; rfl⟩
  · exact ⟨.b, by rw [e]; rfl⟩
  · exact ⟨.sw, by rw [e]; rfl⟩
  · exact absurd (e ▸ h) (qdRegister_status _)

/-- Settles O34: what was acquired has been released. -/
theorem qdInitNoPartialConstruction : Obligations.QdInitNoPartialConstruction := by
  unfold Obligations.QdInitNoPartialConstruction
  intro s t hphase hidle hexec hstatus
  obtain rfl := Host.Outcome.next.inj ((exec_qdInit_of_unconstructed hphase).symm.trans hexec)
  have refused := qdConstruct_refused hidle hstatus
  have side := qdConstruct_side s
  exact ⟨refused.qd, refused.owner, qdConstruct_info hstatus, side.sr, side.chip, refused.fault,
    refused.result⟩

/-- Settles O33: the quiet construction, its registration, and the first read. -/
theorem qdInitCompletes : Obligations.QdInitCompletes := by
  unfold Obligations.QdInitCompletes
  intro s hphase hpins hfree hdenied hrejected hreads hinside
  have held := (qdUnregistered s).held
  have hcleared := qdCleared_of_quiet (s := qdAcquired3 s) fun k hk => hinside k (by omega)
  rw [exec_qdInit_of_unconstructed hphase, qdConstruct_of_free hpins hfree hdenied]
  rw [hcleared] at held ⊢
  rcases qdRegister_cases _ held with ⟨hr, _⟩ | ⟨_, u, hu, ⟨hf, _⟩ | ⟨_, heq⟩⟩
  · exact absurd (hrejected.symm.trans hr) (by decide)
  · exact absurd ((hreads 0 (by decide)).symm.trans hf) (by decide)
  · rw [interleave_of_quiet (by simpa [qdAcquired3, qdAcquired2, qdAcquired1, qdLineAcquired,
      Env.insideAt] using hinside 2 (by decide))] at hu
    rw [heq, hu]
    simp [endWith, qdAcquired3, qdAcquired2, qdAcquired1, qdLineAcquired, setQdLine, qdMode, qdPin,
      Env.inputAt]

/-- Settles O35: a rejected registration gives back the lines, the pins and the count. -/
theorem qdInitRejectedReleasesAll : Obligations.QdInitRejectedReleasesAll := by
  unfold Obligations.QdInitRejectedReleasesAll
  intro s hphase hreg hpins hfree hdenied hrejected
  have side := qdConstruct_side s
  have before := qdUnregistered s
  refine ⟨_, exec_qdInit_of_unconstructed hphase, ?_⟩
  rw [qdConstruct_of_free hpins hfree hdenied] at side ⊢
  rcases qdRegister_cases _ before.held with ⟨_, heq⟩ | ⟨hr, _⟩
  · have hqd := before.qd
    have howner := before.owner
    have hcfg := before.cfg
    rw [heq] at side ⊢
    refine ⟨rfl, ?_, fun l => ?_, rfl, ?_, ?_, ?_, ?_, side.sr, side.chip, before.fault, before.result⟩
    · simp [hqd, hphase]
    · cases l <;> rfl
    · simp [hqd, hreg]
    · simp [hqd]
    · simp [hqd]
    · rw [endWith_owner, howner, hcfg]
      exact setPins_back (qdPins_holder hfree) .qd
  · exact absurd (before.rejected.trans hrejected) (by simp [hr])

/-- Settles O36: the registration stands, and the decoder holds its lines in `FAILED`. -/
theorem qdInitFirstReadFails : Obligations.QdInitFirstReadFails := by
  unfold Obligations.QdInitFirstReadFails
  intro s hphase hpins hfree hdenied hrejected hfails
  have side := qdConstruct_side s
  have before := qdUnregistered s
  refine ⟨_, exec_qdInit_of_unconstructed hphase, ?_⟩
  rw [qdConstruct_of_free hpins hfree hdenied] at side ⊢
  rcases qdRegister_cases _ before.held with ⟨hr, _⟩ | ⟨_, u, hu, ⟨_, heq⟩ | ⟨hf, _⟩⟩
  · exact absurd (before.rejected.trans hrejected) (by simp [hr])
  · have frame := hu ▸ (interleave_frame _).1
    have hlast : u.qd.lastA = s.qd.lastA := by rw [frame.qd, before.qd]
    have hcount : u.qd.count = some 0 := frame.count_zero (by rw [before.qd])
    have howner : u.owner = setPins (qdPins s.cfg) .qd s.owner := frame.owner.trans before.owner
    rw [heq] at side ⊢
    refine ⟨rfl, rfl, rfl, hlast, hcount, frame.registered, fun l => ?_, fun l => ?_, side.sr, side.chip,
      frame.result.trans before.result⟩
    · rw [qdLost_qd, qdLine_phase]
      exact (frame.qdLine_eq l).trans (before.lines l)
    · rw [qdLost_owner, takeFails_owner, howner]
      exact (setPins_new (qdPins_holder hfree) _).2 (.inl (mem_qdPins.2 ⟨l, rfl⟩))
  · exact absurd (before.fails.trans hfails) (by simp [hf])

/-! ### Release -/

/-- A decoder that holds its lines is released (41 R179). -/
theorem exec_qdRelease_of_holds {s : State} (h : qdHolds s) :
    exec .qdRelease s = .next (qdReleaseAll s) := by
  rcases h with h | h <;> simp [exec, execQdRelease, h]

/-- Settles O46. -/
theorem qdReleaseCompletes : Obligations.QdReleaseCompletes := by
  unfold Obligations.QdReleaseCompletes
  intro s hholds hlines
  rw [exec_qdRelease_of_holds hholds, qdReleaseAll_of_held ((qdLinesHeld_iff s.qd).1 hlines)]
  rfl

/-- Settles O47: each command by its check of the phase, and the count by its two accesses. -/
theorem afterReleaseCountRemains : Obligations.AfterReleaseCountRemains := by
  unfold Obligations.AfterReleaseCountRemains
  intro s c hphase hc
  have hconstructed : s.qd.phase ≠ .unconstructed := by simp [hphase]
  refine ⟨⟨endWith .lifecycleError s, ?poll, rfl⟩, ⟨endWith .lifecycleError s, ?init, rfl⟩,
    ⟨endWith .ok s, ?release, rfl⟩, fun hquiet => ?read,
    ⟨_, exec_qdReset_of_constructed hconstructed, rfl, countStore_zero_count s⟩⟩
  case poll => simp [exec, execQdPoll, hphase]
  case init => simp [exec, execQdInit, hphase]
  case release => simp [exec, execQdRelease, hphase]
  case read =>
    obtain ⟨hread, -, -⟩ := qdReadCountCompletes s c hconstructed hc
    exact ⟨_, hread hquiet, rfl, rfl⟩

end Sys2Proof.Machine
end

section
/-! PROOFS. What changes the count (41_quadrature_decoder R196). -/

namespace Sys2Proof.Machine

open Sys2Proof.Config

/-- The count is moved by one wrapping unit, `last_a` being no longer what it was (41 R171, R174). -/
def CountMoved (s t : State) : Prop :=
  ∃ c d, s.qd.count = some c ∧ (d = 1 ∨ d = -1) ∧
    t.qd.count = some (wrapW s.cfg.countWidth (c + d)) ∧ t.qd.lastA ≠ s.qd.lastA

theorem pollDelta_unit (currA currB : Bool) : pollDelta currA currB = 1 ∨ pollDelta currA currB = -1 := by
  unfold pollDelta
  split
  · exact .inl rfl
  · exact .inr rfl

/-- A quiet poll leaves the count or moves it (41 R170, R175). -/
theorem pollStep_count {s : State} {a : Bool} {c : Int} (ha : s.qd.lastA = some a)
    (hc : s.qd.count = some c) (hquiet : quietInside 2 s) :
    (pollStep s).qd.count = s.qd.count ∨ CountMoved s (pollStep s) := by
  rcases pollStep_cases s with ⟨_, heq⟩ | ⟨_, _, heq⟩ | ⟨_, _, heq⟩
  · exact .inl (by rw [heq]; rfl)
  · exact .inl (by rw [heq]; rfl)
  · rw [heq.trans (pollSamples_of_quiet (s := samplesRead s) _ _ ha hc hquiet)]
    by_cases hmoved : s.env.inputAt 0 = a
    · exact .inl (hc ▸ congrArg some (if_pos hmoved))
    · refine .inr ⟨c, _, hc, pollDelta_unit _ _,
        congrArg some (polledCount_of_moved _ (s.env.inputAt 1) c hmoved), ?_⟩
      simpa [ha] using hmoved

/-- The releases of `QD_RELEASE` keep the count, whichever lines are held (41 R179, R180). -/
theorem qdReleaseAll_count (s : State) : (qdReleaseAll s).qd.count = s.qd.count := rfl

/-- What a quiet command of a constructed decoder's machine does to the count. -/
theorem exec_count {i : Instr} {s t : State} (hp : s.qd.phase ≠ .unconstructed)
    (hquiet : quietInside 2 s) (hexec : exec i s = .next t) :
    t.qd.count = s.qd.count ∨ (i = .qdReset ∧ t.qd.count = some 0) ∨ (i = .qdPoll ∧ CountMoved s t) := by
  cases i with
  | srInit | srSerialize b | srLatch | srTeardown =>
    exact .inl (congrArg Qd.count (exec_srSide rfl hexec).qd)
  | qdInit =>
    rcases execQdInit_next hexec with ⟨_, rfl⟩ | ⟨hun, _⟩
    · exact .inl rfl
    · exact absurd hun hp
  | qdPoll =>
    rcases execQdPoll_next hexec with ⟨_, rfl⟩ | ⟨_, _, ha, hc, rfl⟩
    · exact .inl rfl
    · obtain ⟨a, ha⟩ := Option.ne_none_iff_exists'.1 ha
      obtain ⟨c, hc⟩ := Option.ne_none_iff_exists'.1 hc
      exact (pollStep_count ha hc hquiet).imp_right fun moved => .inr ⟨rfl, moved⟩
  | qdReadCount =>
    rcases execQdReadCount_next hexec with ⟨hun, _⟩ | ⟨_, _, rfl⟩
    · exact absurd hun hp
    · rw [countAccess_of_quiet (access := countLoad) hquiet fun _ => rfl]
      exact .inl rfl
  | qdReset =>
    rcases execQdReset_next hexec with ⟨hun, _⟩ | ⟨_, rfl⟩
    · exact absurd hun hp
    · exact .inr (.inl ⟨rfl, countStore_zero_count s⟩)
  | qdRelease =>
    rcases execQdRelease_next hexec with ⟨_, rfl⟩ | ⟨_, rfl⟩ | ⟨_, rfl⟩
    · exact .inl rfl
    · exact .inl rfl
    · exact .inl (qdReleaseAll_count s)

/-- What another agent's step does to the count (41 R185, R186). -/
theorem asyncStep_count (a : AsyncStep) (s : State) :
    (asyncStep a s).qd.count = s.qd.count ∨
      a = .resetEdge ∧ resetEnabled s = true ∧ (asyncStep a s).qd.count = some 0 := by
  cases a with
  | swEdge v coalesced => exact .inl rfl
  | resetEdge =>
    cases he : resetEnabled s
    · exact .inl (by rw [asyncStep_resetEdge_of_disabled he])
    · exact .inr ⟨rfl, rfl, by rw [asyncStep_resetEdge_of_enabled he]; rfl⟩

/-- Settles O49: the host's turn by `exec_count`, another agent's by `asyncStep_count`. -/
theorem countChangesOnlyAsNamed : Obligations.CountChangesOnlyAsNamed := by
  unfold Obligations.CountChangesOnlyAsNamed
  intro s t hp hquiet hstep
  obtain ⟨_, _, w, rest, hwords, hturn⟩ := step_next hstep
  rcases hturn with ⟨hhost, ⟨_, _, rfl⟩ | ⟨i, hdecode, hexec⟩⟩ | ⟨a, hagent, rfl⟩
  · exact .inl rfl
  · have hword : s.host.words.head?.map decode = some (.command i) := by simp [hwords, hdecode]
    rcases exec_count (s := issued rest s) hp hquiet hexec with
      same | ⟨rfl, zero⟩ | ⟨rfl, c, d, hc, hd, hcount, hlast⟩
    · exact .inl same
    · exact .inr (.inl ⟨zero, .inr ⟨hhost, hword⟩⟩)
    · exact .inr (.inr ⟨c, d, hc, hd, hcount, hhost, hword, hlast⟩)
  · rcases asyncStep_count a (turnTaken s) with same | ⟨rfl, henabled, zero⟩
    · exact .inl same
    · obtain ⟨hreg, hpend⟩ := (resetEnabled_iff _).1 henabled
      exact .inr (.inl ⟨zero, .inl ⟨hagent, hreg, hpend⟩⟩)

end Sys2Proof.Machine
end

section
/-! PROOFS. How a command word ends (60_exceptions R214 to R216): an illegal word, a command outside its allowed
states, and the statuses each command's row names; and another agent's turn (R221, R229). -/

namespace Sys2Proof.Machine

open Sys2Proof.Config

/-! ### Illegal words and other agents' turns -/

/-- Settles O4: a word that selects no row decodes to no command. -/
theorem illegalWordChangesOnlyStatus : Obligations.IllegalWordChangesOnlyStatus := by
  unfold Obligations.IllegalWordChangesOnlyStatus
  intro w s hrow
  obtain ⟨why, hwhy⟩ := decode_illegal_of_no_row hrow
  exact ⟨_, issue_of_illegal s hwhy, rfl⟩

/-- Settles O8: the machine takes a turn, and the turn is the agent's. -/
theorem agentTurnIsItsStep : Obligations.AgentTurnIsItsStep := by
  unfold Obligations.AgentTurnIsItsStep
  intro s a hlegal hone hwords hturn
  obtain ⟨w, rest, hcons⟩ := List.exists_cons_of_ne_nil hwords
  calc step s
      = takeTurn w rest s := step_of_legal hlegal hone hcons
    _ = .next (asyncStep a (turnTaken s)) := takeTurn_agent w rest hturn

/-! ### Outside the allowed states -/

/-- `SR_TEARDOWN` is allowed in every state but `UNCONSTRUCTED` (60_exceptions R216). -/
theorem srConstructed_iff (p : SrPhase) :
    p = .ready ∨ p = .failed ∨ p = .tornDown ↔ p ≠ .unconstructed := by
  cases p <;> decide

/-- `QD_READ_COUNT`, `QD_RESET` and `QD_RELEASE` are allowed in every state but `UNCONSTRUCTED`
(60_exceptions R216). -/
theorem qdConstructed_iff (p : QdPhase) :
    p = .live ∨ p = .failed ∨ p = .released ↔ p ≠ .unconstructed := by
  cases p <;> decide

/-- A command's state check comes before all else it does (60_exceptions R214). -/
theorem exec_of_not_allowed {i : Instr} {s : State} (h : ¬ allowedIn s i) :
    exec i s = .next (endWith .lifecycleError s) := by
  cases i with
  | srInit | srSerialize b | srLatch | qdInit | qdPoll => exact if_pos h
  | srTeardown =>
    have hp : s.sr.phase = .unconstructed := not_ne_iff.1 (mt (srConstructed_iff _).2 h)
    simp [exec, execSrTeardown, hp]
  | qdReadCount | qdReset => exact if_pos (not_ne_iff.1 (mt (qdConstructed_iff _).2 h))
  | qdRelease =>
    have hp : s.qd.phase = .unconstructed := not_ne_iff.1 (mt (qdConstructed_iff _).2 h)
    simp [exec, execQdRelease, hp]

/-! ### The statuses a command can end with -/

/-- The state has the status `OK` or one of a list. -/
def EndsIn (others : List Status) (t : State) : Prop :=
  t.status = some .ok ∨ ∃ st ∈ others, t.status = some st

theorem EndsIn.mono {xs ys : List Status} {t : State} (h : EndsIn xs t) (hsub : xs ⊆ ys) : EndsIn ys t :=
  h.imp_right fun ⟨st, hst, heq⟩ => ⟨st, hsub hst, heq⟩

theorem EndsIn.of_mem {others : List Status} {st : Status} {t : State} (hst : st ∈ others)
    (h : t.status = some st) : EndsIn others t :=
  .inr ⟨st, hst, h⟩

/-- Writes that stop at the first failure end `OK` or with the loss of a line (60_exceptions R213). -/
theorem endSr_endsIn (r : Bool × State) : EndsIn [.platformLineFailure] (endSr r) := by
  unfold endSr
  split
  · exact .inl rfl
  · exact .of_mem (by decide) rfl

theorem srDriveLow_endsIn (s : State) : EndsIn [.platformLineFailure] (srDriveLow s) := by
  unfold srDriveLow
  simp only
  split
  · exact .inl rfl
  · exact .of_mem (by decide) rfl

/-- The driver's construction: a refused pin, or the end of its three writes (40 R125). -/
theorem srConstruct_endsIn (s : State) : EndsIn (otherStatuses .srInit) (srConstruct s) := by
  have raised : ∀ p u, EndsIn (otherStatuses .srInit) (raiseUnavailable p u) :=
    fun _ _ => .of_mem (by decide) rfl
  rcases srConstruct_cases s with ⟨_, h⟩ | ⟨_, _, ⟨_, h⟩ | ⟨_, _, ⟨_, h⟩ | ⟨_, _, h⟩⟩⟩ <;> rw [h]
  · exact raised _ _
  · exact raised _ _
  · exact raised _ _
  · exact (srDriveLow_endsIn _).mono (by decide)

/-- From its registration on, `QD_INIT` is rejected, loses the first read, or ends `OK` (41 R165). -/
theorem qdRegister_endsIn (s : State) :
    EndsIn [.notificationSetupFailed, .platformLineFailure] (qdRegister s) := by
  unfold qdRegister
  split
  · exact .of_mem (st := .notificationSetupFailed) (by decide) rfl
  · split
    · exact .of_mem (st := .platformLineFailure) (by decide) rfl
    · exact .inl rfl

/-- The decoder's construction: a refused pin, or what its registration comes to (41 R165). -/
theorem qdConstruct_endsIn (s : State) : EndsIn (otherStatuses .qdInit) (qdConstruct s) := by
  have raised : ∀ p u, EndsIn (otherStatuses .qdInit) (raiseUnavailable p u) :=
    fun _ _ => .of_mem (by decide) rfl
  rcases qdConstruct_cases s with ⟨_, h⟩ | ⟨_, _, ⟨_, h⟩ | ⟨_, _, ⟨_, h⟩ | ⟨_, _, h⟩⟩⟩ <;> rw [h]
  · exact raised _ _
  · exact raised _ _
  · exact raised _ _
  · exact (qdRegister_endsIn _).mono (by decide)

/-- A poll loses the read of A or of B, or ends `OK` (41 R170, R175). -/
theorem pollStep_endsIn (s : State) : EndsIn (otherStatuses .qdPoll) (pollStep s) := by
  rcases pollStep_cases s with ⟨_, h⟩ | ⟨_, _, h⟩ | ⟨_, _, h⟩ <;> rw [h]
  · exact .of_mem (by decide) (qdLost_status _)
  · exact .of_mem (by decide) (qdLost_status _)
  · exact .inl rfl

/-- A command that answers a next state in a state it is allowed in ends as its row of R216 says. -/
theorem exec_endsIn_of_allowed {i : Instr} {s t : State} (hallowed : allowedIn s i)
    (hexec : exec i s = .next t) : EndsIn (otherStatuses i) t := by
  cases i with
  | srInit =>
    rcases execSrInit_next hexec with ⟨hp, _⟩ | ⟨_, rfl⟩
    · exact absurd hallowed hp
    · exact srConstruct_endsIn s
  | srSerialize b =>
    rcases execSrSerialize_next hexec with ⟨hp, _⟩ | ⟨_, _, rfl⟩
    · exact absurd hallowed hp
    · exact endSr_endsIn _
  | srLatch =>
    rcases execSrLatch_next hexec with ⟨hp, _⟩ | ⟨_, _, rfl⟩
    · exact absurd hallowed hp
    · exact endSr_endsIn _
  | srTeardown =>
    rcases execSrTeardown_next hexec with ⟨hp, _⟩ | ⟨_, rfl⟩ | ⟨_, _, rfl⟩
    · exact absurd hp ((srConstructed_iff _).1 hallowed)
    · exact .inl rfl
    · exact .inl rfl
  | qdInit =>
    rcases execQdInit_next hexec with ⟨hp, _⟩ | ⟨_, rfl⟩
    · exact absurd hallowed hp
    · exact qdConstruct_endsIn s
  | qdPoll =>
    rcases execQdPoll_next hexec with ⟨hp, _⟩ | ⟨_, _, _, _, rfl⟩
    · exact absurd hallowed hp
    · exact pollStep_endsIn s
  | qdReadCount =>
    rcases execQdReadCount_next hexec with ⟨hp, _⟩ | ⟨_, _, rfl⟩
    · exact absurd hp ((qdConstructed_iff _).1 hallowed)
    · exact .inl rfl
  | qdReset =>
    rcases execQdReset_next hexec with ⟨hp, _⟩ | ⟨_, rfl⟩
    · exact absurd hp ((qdConstructed_iff _).1 hallowed)
    · exact .inl rfl
  | qdRelease =>
    rcases execQdRelease_next hexec with ⟨hp, _⟩ | ⟨_, rfl⟩ | ⟨_, rfl⟩
    · exact absurd hp ((qdConstructed_iff _).1 hallowed)
    · exact .inl rfl
    · exact .inl rfl

/-- Settles O50: the state check outside the allowed states, and the command's own ends in them. -/
theorem commandsEndAsTheirRowSays : Obligations.CommandsEndAsTheirRowSays := by
  unfold Obligations.CommandsEndAsTheirRowSays
  exact fun i s => ⟨fun hnot => ⟨_, exec_of_not_allowed hnot, rfl⟩, fun _ => exec_endsIn_of_allowed⟩

end Sys2Proof.Machine
end

section
/-! PROOFS. The outputs after enough serializes and a latch (70_reset_and_hazards R241), and what the
observation shows of them (20_memory R78; log entry 22). -/

namespace Sys2Proof.Machine

open Sys2Proof.Config

/-! ### The writes of a list of bytes and a latch -/

/-- The writes of `SR_SERIALIZE` of each byte of a list and of `SR_LATCH`. -/
def chainWrites (order : BitOrder) (bs : List Byte) : List Action :=
  bs.flatMap (serializeActions order) ++ pulse .latch

theorem chainWrites_eq_pairs (order : BitOrder) (bs : List Byte) :
    chainWrites order bs = (bs.flatMap (sentBits order)).flatMap bitPair ++ pulse .latch := by
  have hpairs : serializeActions order = fun b => (sentBits order b).flatMap bitPair :=
    funext (serializeActions_eq order)
  rw [chainWrites, hpairs, List.flatMap_assoc]

/-- The bits of the bytes fill the stages from the deepest one on (20_memory R65). -/
theorem sentBits_chain_reverse (order : BitOrder) (bs : List Byte) :
    (bs.flatMap (sentBits order)).reverse = chainImage order bs := by
  rw [List.reverse_flatMap, chainImage]
  simp only [Function.comp_def, sentBits_reverse]

theorem chainImage_length (order : BitOrder) (bs : List Byte) :
    (chainImage order bs).length = 8 * bs.length := by
  simp [chainImage, List.length_flatMap, Nat.mul_comm]

/-- Writes do not read how the command before them ended. -/
theorem writeAll_endWith (as : List Action) (st : Status) (s : State) :
    writeAll as (endWith st s) = endWith st (writeAll as s) := by
  induction as generalizing s with
  | nil => rfl
  | cons a as ih =>
    cases a with
    | delay => exact ih s
    | set l v => exact ih (writeLevel l v (takeFails s))

/-- Where no line fails, the commands make these writes and nothing else. -/
theorem execAll_chainWrites (bs : List Byte) {s : State} (h : srAtRest s) (hd : 1 ≤ s.cfg.chainDepth)
    (hok : noLineFailure (24 * bs.length + 2) s) :
    execAll (bs.map .srSerialize ++ [.srLatch]) s =
      .next (endWith .ok (writeAll (chainWrites s.cfg.bitOrder bs) s)) := by
  induction bs generalizing s with
  | nil => exact execAll_cons_of_next (exec_srLatch_of_rest h hok)
  | cons b bs ih =>
    rw [List.length_cons] at hok
    have hone := BytesSerialized.one b h hd
    have hexec := exec_srSerialize_of_rest b h fun k hk => hok k (by omega)
    have hrest := ih hone.rest (hone.cfg.symm ▸ hd)
      (hone.noLineFailure_after fun k hk => hok k (by simp only [List.length_singleton] at hk; omega))
    rw [List.map_cons, List.cons_append, execAll_cons_of_next hexec, hrest, hone.cfg, serialized,
      writeAll_endWith, ← writeAll_append]
    simp [chainWrites, endWith]

/-! ### What the trace says after writes -/

theorem tracedOf_writeAll (as : List Action) (s : State) :
    tracedOf (writeAll as s) = (actionEvents as).foldl (tracedEvent s.cfg.chainDepth) (tracedOf s) := by
  rw [tracedOf, (writeAll_frame as s).cfg, writeAll_trace, traced_append, tracedOf]

/-- A record that gives both clocks at 0 and is of the chain's width. -/
structure TracedAtRest (depth : Nat) (t : Traced) : Prop where
  shclk : t.shclk = some false
  latch : t.latch = some false
  width : t.shift.length = 8 * depth

/-- In `READY` the trace gives the clocks' rest levels (10_state R25). -/
theorem Inv.tracedAtRest {s : State} (h : Inv s) (hp : s.sr.phase = .ready) :
    TracedAtRest s.cfg.chainDepth (tracedOf s) := by
  have hlost := h.sr_trace.not_lost (.inr hp)
  obtain ⟨hshclk, hlatch⟩ := h.sr_rest hp
  exact ⟨(h.sr_trace.level hlost .shclk).trans hshclk, (h.sr_trace.level hlost .latch).trans hlatch,
    (h.sr_trace.shift hlost).length_eq.trans h.shift_width⟩

/-- Bytes serialized and latched are known at the outputs, and behind them what was known of the stages. -/
theorem TracedAtRest.chainWrites_out {s : State} (h : TracedAtRest s.cfg.chainDepth (tracedOf s))
    (order : BitOrder) (bs : List Byte) :
    (tracedOf (writeAll (chainWrites order bs) s)).out =
      ((chainImage order bs).map some ++ (tracedOf s).shift).take (8 * s.cfg.chainDepth) := by
  rw [tracedOf_writeAll, chainWrites_eq_pairs, actionEvents_append, List.foldl_append,
    traced_bitPairs _ _ _ h.shclk h.width, traced_latch _ _ (by exact h.latch), sentBits_chain_reverse]

/-- Driving the lines low makes no edge, so what is known of the outputs stays. -/
theorem traced_low_out (depth : Nat) (t : Traced) :
    ((actionEvents lowActions).foldl (tracedEvent depth) t).out = t.out := rfl

/-- While no write has failed, the observation shows what the trace says of the outputs. -/
theorem observe_of_kept {s : State} (h : s.writeLost = false) :
    (observe s).out = (tracedOf s).out ∧ (observe s).outAtRelease = (tracedOf s).atRelease := by
  simp [observe, h]

/-! ### Outputs that are defined -/

/-- As many bytes as chips fill the whole chain. -/
theorem chainImage_fills {depth : Nat} {bs : List Byte} (order : BitOrder) (h : depth ≤ bs.length) :
    8 * depth ≤ (chainImage order bs).length := by
  rw [chainImage_length]
  omega

/-- As many bytes as chips, latched, are all the outputs show, whatever the chip held. -/
theorem execAll_fills_outputs {bs : List Byte} {s t : State} (h : srAtRest s)
    (hd : 1 ≤ s.cfg.chainDepth) (hw : s.chip.shift.length = 8 * s.cfg.chainDepth)
    (hbs : s.cfg.chainDepth ≤ bs.length) (hok : noLineFailure (24 * bs.length + 2) s)
    (ht : execAll (bs.map .srSerialize ++ [.srLatch]) s = .next t) :
    t.chip.out = (chainImage s.cfg.bitOrder bs).take (8 * s.cfg.chainDepth) := by
  obtain ⟨u, hu, -, hout⟩ := execAll_serializes_latch bs h hd hw.le hok
  obtain rfl : t = u := Host.Outcome.next.inj (ht.symm.trans hu)
  rw [hout, List.take_append_of_le_length (chainImage_fills _ hbs)]

/-- The trace then knows every output. -/
theorem observe_chainWrites {bs : List Byte} {s : State} (order : BitOrder)
    (h : TracedAtRest s.cfg.chainDepth (tracedOf s)) (hkept : s.writeLost = false)
    (hbs : s.cfg.chainDepth ≤ bs.length) :
    (observe (endWith .ok (writeAll (chainWrites order bs) s))).out =
      ((chainImage order bs).take (8 * s.cfg.chainDepth)).map some := by
  have hfills := chainImage_fills order hbs
  obtain ⟨hshown, -⟩ := observe_of_kept (s := endWith .ok (writeAll (chainWrites order bs) s))
    ((writeAll_lost _ s).trans hkept)
  calc (observe (endWith .ok (writeAll (chainWrites order bs) s))).out
      = (tracedOf (writeAll (chainWrites order bs) s)).out := hshown
    _ = ((chainImage order bs).map some ++ (tracedOf s).shift).take (8 * s.cfg.chainDepth) :=
        h.chainWrites_out order bs
    _ = ((chainImage order bs).take (8 * s.cfg.chainDepth)).map some := by
        rw [List.take_append_of_le_length (by rwa [List.length_map]), List.map_take]

/-- Settles O27: the bytes fill the whole chain, and the trace knows every one of their bits. -/
theorem outputsDefinedAfterDepthSerializes : Obligations.OutputsDefinedAfterDepthSerializes := by
  unfold Obligations.OutputsDefinedAfterDepthSerializes
  intro s before₁ before₂ bs h hd hw₁ hw₂ hbs hok
  have hexec := fun before => execAll_chainWrites bs (s := { s with chip := before }) h hd hok
  have hout₁ := execAll_fills_outputs (s := { s with chip := before₁ }) h hd hw₁ hbs hok (hexec before₁)
  have hout₂ := execAll_fills_outputs (s := { s with chip := before₂ }) h hd hw₂ hbs hok (hexec before₂)
  refine ⟨_, _, hexec before₁, hexec before₂, hout₁.trans hout₂.symm, fun hinv => ?_⟩
  have hready : s.sr.phase = .ready := h.1
  rw [hout₁]
  exact observe_chainWrites (s := { s with chip := before₁ }) s.cfg.bitOrder (hinv.tracedAtRest hready)
    (hinv.sr_trace.not_lost (.inr hready)) hbs

end Sys2Proof.Machine
end

section
/-! PROOFS. The end of a run that is shut down between commands (70_reset_and_hazards R256, R257, R265) and
what the observation then shows (40_shift_register_driver R119, R146; log entry 22). -/

namespace Sys2Proof.Machine

open Sys2Proof.Config

/-! ### Shutting down -/

/-- A driver that owes a teardown and has lost no line is in `READY` (60_exceptions R213). -/
theorem Inv.ready_of_owes {s : State} (h : Inv s) (hf : s.fault = false)
    (howes : owesTeardown s = true) : s.sr.phase = .ready := by
  simp only [owesTeardown, Bool.or_eq_true, decide_eq_true_eq] at howes
  refine howes.resolve_right fun hfailed => ?_
  rw [h.failed_fault (.inl hfailed)] at hf
  cases hf

/-- A driver that owes no teardown holds no line. -/
theorem not_owes_iff (s : State) : owesTeardown s = false ↔ ¬ srHolds s := by
  simp [owesTeardown, srHolds]

/-- Where no teardown is owed, the driver was never constructed or has been torn down. -/
theorem phase_of_not_holds {s : State} (h : ¬ srHolds s) :
    s.sr.phase = .unconstructed ∨ s.sr.phase = .tornDown := by
  cases hp : s.sr.phase <;> simp [srHolds, hp] at h ⊢

/-- A driver that holds no line shows no output (40 R119). -/
theorem Inv.observe_idle {s : State} (h : Inv s) (hn : ¬ srHolds s) :
    (observe s).out = unknownBits s.cfg.chainDepth := by
  simp only [observe, (h.sr_trace.idle hn).2, ite_self]

/-- A shutdown changes no more than the host's list. -/
theorem Inv.shutdown {s : State} (h : Inv s) : Inv (hostShutdown s) :=
  h.congr rfl rfl rfl rfl rfl rfl rfl id fun hs => h.failed_fault (.inr (.inr hs))

/-- The state in which a host that shuts down issues its teardown. -/
def shutdownIssued (s : State) : State := issued [] (hostShutdown s)

/-- A legal machine with one host, on the host's turn, issues the teardown it owes. -/
theorem step_hostShutdown {s : State} (hl : launchLegal s = true) (h2 : s.host.second = false)
    (ht : s.env.turnAt 0 = .host) (howes : owesTeardown s = true) :
    step (hostShutdown s) = exec .srTeardown (shutdownIssued s) := by
  have hwords : (hostShutdown s).host.words = [encode .srTeardown] := by simp [hostShutdown, howes]
  calc step (hostShutdown s)
      = takeTurn (encode .srTeardown) [] (hostShutdown s) :=
        step_of_legal (s := hostShutdown s) hl h2 hwords
    _ = issue (encode .srTeardown) (shutdownIssued s) := takeTurn_host (s := hostShutdown s) _ _ ht
    _ = exec .srTeardown (shutdownIssued s) := issue_of_command _ (decode_encode _)

/-- A legal launch has at least one chip (10_state R42). -/
theorem chainDepth_of_legal {s : State} (h : launchLegal s = true) : 1 ≤ s.cfg.chainDepth := by
  simp only [launchLegal, Settings.legal, Bool.and_eq_true, decide_eq_true_eq] at h
  obtain ⟨⟨⟨⟨hdepth, _⟩, _⟩, _⟩, _⟩ := h
  exact hdepth

/-! ### The teardown as it is observed -/

theorem teardownRelease_writeLost {s : State} (hm : ∀ l, (srLine s.sr l).mode = .output) :
    (teardownRelease s).writeLost = s.writeLost := by
  obtain ⟨u, hu, -, -, -, -, -, -, -, -, hlost, -⟩ := releaseAll_sr hm
  rw [teardownRelease, hu]
  exact hlost

/-- The releases of a driver whose lines the trace gives levels: no output is shown after them, and the
outputs known just before them are kept (40 R119, R146). -/
theorem observe_teardownRelease {s : State} (hm : ∀ l, (srLine s.sr l).mode = .output)
    (hlost : s.writeLost = false) (hlevel : ∀ l, (tracedLevel (tracedOf s) l).isSome = true) :
    (observe (teardownRelease s)).out = unknownBits s.cfg.chainDepth ∧
      (observe (teardownRelease s)).outAtRelease = some (tracedOf s).out := by
  obtain ⟨hsr, -, -⟩ := teardownRelease_of_held hm
  obtain ⟨⟨-, hnone, -⟩, hkept⟩ := traced_teardown s.cfg.chainDepth s.sr.trace
  obtain ⟨hshown, hshownAt⟩ := observe_of_kept ((teardownRelease_writeLost hm).trans hlost)
  rw [hshown, hshownAt, tracedOf, (teardownRelease_side s).cfg, hsr]
  exact ⟨hnone, hkept hlevel⟩

/-- The writes of a teardown make a zero byte known at chip 0, and move what was known of the stages behind
it (40 R146). -/
theorem TracedAtRest.teardown_out {s : State} (h : TracedAtRest s.cfg.chainDepth (tracedOf s))
    (hd : 1 ≤ s.cfg.chainDepth) :
    (tracedOf (writeAll teardownActions s)).out =
      List.replicate 8 (some false) ++ (tracedOf s).shift.take (8 * s.cfg.chainDepth - 8) := by
  have hsplit : teardownActions = chainWrites .lsbFirst [0x00#8] ++ lowActions := by
    simp [teardownActions, chainWrites]
  have himage : (chainImage .lsbFirst [0x00#8]).map some = List.replicate 8 (some false) := by decide
  rw [hsplit, writeAll_append, tracedOf_writeAll, traced_low_out, h.chainWrites_out, himage,
    List.take_append, List.length_replicate, List.take_of_length_le]
  rw [List.length_replicate]
  omega

/-- A teardown from `READY` none of whose writes fails shows no output, and just before its releases chip 0
at 0. -/
theorem Inv.observe_teardown {s : State} (h : Inv s) (hp : s.sr.phase = .ready)
    (hd : 1 ≤ s.cfg.chainDepth) (hok : noLineFailure 29 s) :
    (observe (teardownRelease (teardownDriven s))).out = unknownBits s.cfg.chainDepth ∧
      (observe (teardownRelease (teardownDriven s))).outAtRelease =
        some (List.replicate 8 (some false) ++ (tracedOf s).shift.take (8 * s.cfg.chainDepth - 8)) := by
  have hkept := h.sr_trace.not_lost (.inr hp)
  have held := h.srLinesHeld (.inl hp)
  have hmode := teardownDriven_mode held.driven
  rw [teardownDriven_of_ok hok] at hmode ⊢
  have hlevel : ∀ l, (tracedLevel (tracedOf (writeAll teardownActions s)) l).isSome = true :=
    fun l => tracedLevel_writeAll (.inr (by rw [h.sr_trace.level hkept l]; exact held.level l))
  obtain ⟨hout, hrelease⟩ := observe_teardownRelease hmode ((writeAll_lost _ s).trans hkept) hlevel
  rw [(writeAll_frame teardownActions s).cfg] at hout
  exact ⟨hout, hrelease.trans (congrArg some ((h.tracedAtRest hp).teardown_out hd))⟩

/-- A teardown from `READY` that is the host's last word and loses no line ends the run well
(70_reset_and_hazards R265). -/
theorem Inv.teardown_goodEnd {s : State} (h : Inv s) (hp : s.sr.phase = .ready)
    (hwords : s.host.words = []) (hl : launchLegal s = true) (h2 : s.host.second = false)
    (hf : s.fault = false) (hok : noLineFailure 29 s) :
    goodEnd (teardownRelease (teardownDriven s)) := by
  have hh : srHolds s := .inl hp
  have frame : SrFrame 29 s (teardownDriven s) := runBestEffort_frame teardownActions s
  have side := frame.side.trans (teardownRelease_side (teardownDriven s))
  obtain ⟨hsr, -, hfault⟩ := teardownRelease_of_held (teardownDriven_mode (h.sr_driven hh))
  refine ⟨by rw [side.host, hwords], .inr (by rw [hsr]), ?_, by rw [side.host, h2], ?_⟩
  · rw [launchLegal, side.cfg, (h.teardown_moved hh).length]
    exact hl
  · rw [hfault, teardownDriven_of_ok hok, writeAll_fault, hf]

/-- Settles O60: an idle driver is at a good end already, and one that owes a teardown is in `READY`, from
where the teardown the host issues ends the run well. -/
theorem shutdownComesToGoodEnd : Obligations.ShutdownComesToGoodEnd := by
  unfold Obligations.ShutdownComesToGoodEnd
  intro s h hl h2 hf hok ht
  refine ⟨fun howes => ?_, fun howes => ?_⟩
  · have hn := (not_owes_iff s).1 howes
    have hwords : (hostShutdown s).host.words = [] := by simp [hostShutdown, howes]
    exact ⟨⟨hwords, phase_of_not_holds hn, hl, h2, hf⟩, h.shutdown.observe_idle hn⟩
  · have hready := h.ready_of_owes hf howes
    have hinv : Inv (shutdownIssued s) := h.shutdown.host_turn []
    have hd := chainDepth_of_legal hl
    obtain ⟨hout, hrelease⟩ := hinv.observe_teardown hready hd hok
    refine ⟨teardownRelease (teardownDriven (shutdownIssued s)), _, ?_,
      hinv.teardown_goodEnd hready rfl hl h2 hf hok, hout, hrelease, ?_, fun hone => ?_⟩
    · rw [step_hostShutdown hl h2 ht howes]
      exact exec_srTeardown_of_held (.inl hready) (hinv.sr_driven (.inl hready))
    · exact List.take_left' List.length_replicate
    · have hcfg : (shutdownIssued s).cfg.chainDepth = 1 := hone
      simp [hcfg]

end Sys2Proof.Machine
end
